-- ==== Sys2Proof/Word.lean ====
section
/-!
DEFINITION. The word types of the block (00_scope.md R10): u8, u16 and u32.
-/

namespace Sys2Proof

/-- A byte of buffer memory, u8 (R10). -/
abbrev Byte := BitVec 8

/-- A 16-bit unsigned number, u16 (R10): ports, checksums, lengths of slots. -/
abbrev Half := BitVec 16

/-- A 32-bit register, address or sequence number, u32 (R10). -/
abbrev Word := BitVec 32

end Sys2Proof
end

