-- ==== Sys2Proof/Config.lean ====
section
/-!
DEFINITION. What an implementation fixes (the parameters of 00_scope.md R7, R8) and the values the spec leaves free.
A machine's parameters stand in its State as plain data, so that a statement about every state holds for every
choice of them. The free values are opaque: no proof can see what they are.
-/

namespace Sys2Proof

/-- The parameter TCP_HASH_FN (R7, R86, D22): the default mix of R86, or any other function, which the model leaves
uninterpreted (Config.hashMix). -/
inductive HashFn where
  | default
  | uninterpreted (n : Nat)
  deriving DecidableEq, Repr

/-- The parameters of R7, fixed for the life of the block (R8). -/
structure Params where
  /-- TCP_MAX_UNACKED, U in the rules. -/
  maxUnacked : Nat
  /-- TCP_RETRANSMIT_TIMEOUT, TO in the rules. -/
  retransmitTimeout : Nat
  /-- TCP_TABLE_WAYS. -/
  tableWays : Nat
  /-- TCP_TABLE_LINES. -/
  tableLines : Nat
  /-- IPV4_PAYLOAD_MTU. -/
  payloadMtu : Nat
  /-- MEM_SIZE. -/
  memSize : Nat
  /-- EVQ_DEPTH. -/
  evqDepth : Nat
  /-- TCP_HASH_FN. -/
  hash : HashFn
  deriving DecidableEq, Repr

/-- The parameter values of State.reset: the source's defaults 4 and 2 (R7) and, for the OPEN parameters, the test
configuration of D46. DESIGN CHOICE, unsafe: log entry 2. -/
def Config.params : Params :=
  { maxUnacked := 4, retransmitTimeout := 2, tableWays := 2, tableLines := 4, payloadMtu := 1480,
    memSize := 65536, evqDepth := 64, hash := .default }

/-- The n-th value of the ISN input when the environment has placed none there: a free value under no law (R31, D14,
U5). Log entry 5, safe. -/
opaque Config.isnInput : Nat → Word

/-- The n-th uninterpreted hash mix of a remote IP, a local port and a remote port (R86, U2). The line index is its value
modulo TCP_TABLE_LINES, so that the result lies in the range R7 asks for. Log entry 3, safe. -/
opaque Config.hashMix : Nat → Word → Half → Half → Nat

end Sys2Proof
end

