-- ==== Sys2Proof/Syntax.lean ====
section
/-!
DEFINITION. The commands of the block: one constructor per row of spec/opcode_table.json (30_encoding.md R51), and the
fields of a command word (R50). A command word holds no operand (R53): the operands are in ARG0..ARG3 (R62).
-/

namespace Sys2Proof

/-- The fourteen commands (R51). -/
inductive Instr where
  | nop
  | cksum
  | pseudo
  | destClass
  | ethClassify
  | ipv4Rx
  | rxFrame
  | tcpHash
  | tcpLookup
  | tcpAlloc
  | tcpClear
  | tcpRx
  | tcpSend
  | ageTick
  deriving DecidableEq, Repr

/-- The two fields of the one command format (R50): OPCODE in bits 7:0, RSVD in bits 31:8. -/
structure CommandFields where
  opcode : Byte
  rsvd : BitVec 24
  deriving DecidableEq, Repr

end Sys2Proof
end

