-- ==== Sys2Proof/WellFormed.lean ====
section
/-!
DEFINITION. What makes a command word legal (30_encoding.md R50, R52) and a choice of parameters admissible
(00_scope.md R7, 70_reset_and_hazards.md R146).
-/

namespace Sys2Proof

/-- The opcode values that R51 lists; every other value is illegal (R52). -/
def listedOpcodes : List Byte :=
  [0x00#8, 0x01#8, 0x02#8, 0x03#8, 0x08#8, 0x09#8, 0x0A#8, 0x10#8, 0x11#8, 0x12#8, 0x13#8, 0x18#8, 0x20#8, 0x21#8]

/-- R50: bits 31:8 are reserved and must be 0. -/
def CommandFields.rsvdZero (f : CommandFields) : Bool := f.rsvd == 0#24

/-- R52: the opcode is one of those R51 lists. -/
def CommandFields.opcodeListed (f : CommandFields) : Bool := listedOpcodes.contains f.opcode

/-- A legal command word: both checks of R52. -/
def CommandFields.wf (f : CommandFields) : Bool := f.rsvdZero && f.opcodeListed

/-- N in the rules: the number of socket-table entries (R32). -/
def Params.handles (p : Params) : Nat := p.tableWays * p.tableLines

/-- The constraints R7 puts on the parameters, and EVQ_DEPTH against the worst cases (R61, R146). -/
structure Params.Wf (p : Params) : Prop where
  maxUnacked_pos : 1 ≤ p.maxUnacked
  maxUnacked_le : p.maxUnacked ≤ 255
  timeout_pos : 1 ≤ p.retransmitTimeout
  timeout_le : p.retransmitTimeout ≤ 65535
  ways_pos : 1 ≤ p.tableWays
  lines_pos : 1 ≤ p.tableLines
  handles_le : p.handles ≤ 65535
  mtu_ge : 20 ≤ p.payloadMtu
  mtu_le : p.payloadMtu ≤ 65555
  mem_pos : 1 ≤ p.memSize
  mem_le : p.memSize ≤ 2 ^ 32
  evq_rx : p.maxUnacked + 3 ≤ p.evqDepth
  evq_tick : p.handles * p.maxUnacked ≤ p.evqDepth

end Sys2Proof
end

