-- ==== Sys2Proof/Decode.lean ====
section
/-!
DEFINITION. Decoding a command word (30_encoding.md R50 to R53) and, after it, the encoder. Decoding is total on 32-bit
words and rejects by name. The block fetches nothing: a command word is what the host writes to CMD (R49, R119).
-/

namespace Sys2Proof

/-- Why a command word is illegal (R52). -/
inductive DecodeError where
  /-- Bits 31:8 are not all 0. -/
  | reservedBits
  /-- The opcode is not in R51. -/
  | unlistedOpcode
  deriving DecidableEq, Repr

/-- The fields of a command word (R50). -/
def CommandFields.ofWord (w : Word) : CommandFields :=
  { opcode := w.extractLsb' 0 8, rsvd := w.extractLsb' 8 24 }

/-- The command word with these fields (R50). -/
def CommandFields.toWord (f : CommandFields) : Word := f.rsvd ++ f.opcode

/-- The opcode map of R51, read from an opcode. -/
def opcodeMap : List (Byte × Instr) :=
  [(0x00#8, .nop), (0x01#8, .cksum), (0x02#8, .pseudo), (0x03#8, .destClass),
   (0x08#8, .ethClassify), (0x09#8, .ipv4Rx), (0x0A#8, .rxFrame),
   (0x10#8, .tcpHash), (0x11#8, .tcpLookup), (0x12#8, .tcpAlloc), (0x13#8, .tcpClear),
   (0x18#8, .tcpRx), (0x20#8, .tcpSend), (0x21#8, .ageTick)]

/-- The command of an opcode, where R51 lists it. -/
def decodeOpcode (op : Byte) : Option Instr := opcodeMap.lookup op

/-- The decoder: the launch sequence's first test (R119). A word is illegal where its reserved bits are not all 0 or its
opcode is not listed (R52). -/
def decode (w : Word) : Except DecodeError Instr :=
  let f := CommandFields.ofWord w
  if f.rsvdZero then
    match decodeOpcode f.opcode with
    | some i => .ok i
    | none => .error .unlistedOpcode
  else .error .reservedBits

/-- The opcode of a command (R51, D3). -/
def Instr.opcode : Instr → Byte
  | .nop => 0x00#8
  | .cksum => 0x01#8
  | .pseudo => 0x02#8
  | .destClass => 0x03#8
  | .ethClassify => 0x08#8
  | .ipv4Rx => 0x09#8
  | .rxFrame => 0x0A#8
  | .tcpHash => 0x10#8
  | .tcpLookup => 0x11#8
  | .tcpAlloc => 0x12#8
  | .tcpClear => 0x13#8
  | .tcpRx => 0x18#8
  | .tcpSend => 0x20#8
  | .ageTick => 0x21#8

/-- The fields of a command's word: its opcode, and reserved bits of 0 (R50). -/
def Instr.fields (i : Instr) : CommandFields := { opcode := i.opcode, rsvd := 0#24 }

/-- The encoder (R50, R63): the command word of a command. -/
def encode (i : Instr) : Word := i.fields.toWord

/-- The decoder on a row of spec/opcode_table.json: every row has 32 bits, and the bits above nbits are 0. -/
def decodeTableWord (nbits w : Nat) : Option Instr :=
  match decode (BitVec.ofNat 32 (w % 2 ^ nbits)) with
  | .ok i => some i
  | .error _ => none

end Sys2Proof
end

