-- ==== Sys2Proof/Machine/State.lean ====
section
/-!
DEFINITION. The state of the block (10_state.md, 20_memory.md), as plain data: every register of the host window, the
event queue, the port bitmap, the socket table with its unacked slots, buffer memory and the parameters; beside them the
host's pending accesses and the ISN input. Reset is 70_reset_and_hazards.md R143.
-/

namespace Sys2Proof.Machine

/-- The error codes a command can end with (30_encoding.md R54, 60_exceptions.md R129). -/
inductive CmdError where
  | illegalCmd
  | memRange
  | badHandle
  | notConfigured
  | evqFull
  deriving DecidableEq, Repr

/-- STATUS.CODE: OK or an error; no other value is ever written (R54). -/
inductive CmdCode where
  | ok
  | error (e : CmdError)
  deriving DecidableEq, Repr

/-- RES0..RES7 (R22). A register that a rule does not name is written 0. -/
structure Results where
  r0 : Word := 0#32
  r1 : Word := 0#32
  r2 : Word := 0#32
  r3 : Word := 0#32
  r4 : Word := 0#32
  r5 : Word := 0#32
  r6 : Word := 0#32
  r7 : Word := 0#32
  deriving DecidableEq, Repr

/-- The event kinds (30_encoding.md R60). KIND 0 does not exist, so it never occurs in the queue (R59). -/
inductive EventKind where
  | icmp
  | accepted
  | rxData
  | closed
  | bufRelease
  | tx
  | retx
  | replyRstAck
  | replySynAck
  | replyAck
  | replyFinAck
  deriving DecidableEq, Repr

/-- An event record (R59): the three fields of W0, and W1..W5. A word that a kind does not use is 0. -/
structure Event where
  kind : EventKind
  slot : Byte := 0#8
  handle : Half := 0xFFFF#16
  w1 : Word := 0#32
  w2 : Word := 0#32
  w3 : Word := 0#32
  w4 : Word := 0#32
  w5 : Word := 0#32
  deriving DecidableEq, Repr

/-- An unacked slot (10_state.md R34). -/
structure Slot where
  occupied : Bool
  buf : Word
  len : Half
  endSeq : Word
  age : Half
  deriving DecidableEq, Repr

/-- The empty slot: every field 0 (R38, R143). -/
def Slot.empty : Slot := { occupied := false, buf := 0#32, len := 0#16, endSeq := 0#32, age := 0#16 }

/-- A socket-table entry (10_state.md R33). localSeq is the next sequence number to send (90_conflicts.md C2). -/
structure Entry where
  valid : Bool
  remoteIp : Word
  localPort : Half
  remotePort : Half
  remoteSeq : Word
  remoteSeqSent : Word
  localSeq : Word
  localInitialSeq : Word
  remoteInitialSeq : Word
  idle : Half
  unacked : List Slot
  deriving DecidableEq, Repr

/-- The invalid entry with u slots: every field 0, every slot empty (R38). -/
def Entry.empty (u : Nat) : Entry :=
  { valid := false, remoteIp := 0#32, localPort := 0#16, remotePort := 0#16, remoteSeq := 0#32,
    remoteSeqSent := 0#32, localSeq := 0#32, localInitialSeq := 0#32, remoteInitialSeq := 0#32,
    idle := 0#16, unacked := List.replicate u Slot.empty }

/-- One access of the host (R18, R19, R42, R144). Accesses to the register window carry their width in bits. -/
inductive HostAccess where
  /-- A read of the register window. -/
  | read (bits : Nat) (offset : Word)
  /-- A write to the register window. -/
  | write (bits : Nat) (offset : Word) (value : Word)
  /-- A read of one byte of buffer memory, which the host owns (R42, R47). -/
  | memRead (addr : Word)
  /-- A write of one byte of buffer memory (R47, R48). -/
  | memWrite (addr : Word) (value : Byte)
  /-- The block's one reset, applied between commands (R143, R144). -/
  | reset
  deriving DecidableEq, Repr

/-- Buffer memory (20_memory.md R42): address and byte pairs, addresses strictly rising, no byte listed that equals
what an unlisted address reads as. -/
abbrev Memory := List Host.Cell

/-- The words of the port bitmap (10_state.md R30), by word number, in the same canonical form. -/
abbrev PortWords := List (Nat × Word)

/-- The state of the block, its parameters, and the inputs it waits for. -/
structure State where
  /-- The parameters (00_scope.md R7, R8, 10_state.md R26): fixed for the life of the block. -/
  params : Params
  /-- CTRL.CFG_LOCK (R24). -/
  cfgLock : Bool
  /-- STATUS.CODE (R23). -/
  code : CmdCode
  /-- STATUS.ERR (R23). -/
  err : Bool
  /-- CMD: the last value written (R20, R123). -/
  cmd : Word
  /-- EVQ_POP: the last value written (R20, R123). -/
  evqPop : Word
  /-- ARG0 (R21). -/
  arg0 : Word
  /-- ARG1 (R21). -/
  arg1 : Word
  /-- ARG2 (R21). -/
  arg2 : Word
  /-- ARG3 (R21). -/
  arg3 : Word
  /-- RES0..RES7 (R22). -/
  res : Results
  /-- HOST_IP (R25). -/
  hostIp : Word
  /-- BCAST_IP (R25). -/
  bcastIp : Word
  /-- GATEWAY_IP (R25); no command reads it. -/
  gatewayIp : Word
  /-- The event queue, oldest record first (R27). -/
  evq : List Event
  /-- PORT_OPEN (R30): the words that are not 0. -/
  portOpen : PortWords
  /-- The socket table, by handle (R32). -/
  table : List Entry
  /-- Buffer memory (R42). -/
  mem : Memory
  /-- The values the environment holds ready at the ISN input (R31). The model's own field: log entry 5. -/
  isnFeed : List Word
  /-- How many values were taken from the ISN input (R31). The model's own field: log entry 5. -/
  isnDrawn : Nat
  /-- The host's pending accesses, first next (R18). The model's own field: log entry 1. -/
  inputs : List HostAccess
  /-- What the host's last read answered. The model's own field: log entry 6. -/
  readData : Word
  deriving DecidableEq, Repr

/-- Why the model stops with a fault. No command does. -/
inductive Fault where
  /-- A host access to a byte of buffer memory at or above MEM_SIZE, a byte that does not exist (R42). Raised by the
  memory accesses of the host in HostControl.lean. Safe: the run stops. Log entry 7. -/
  | hostMemoryRange
  deriving DecidableEq, Repr

/-- Why the model refuses. No command does. -/
inductive Refusal where
  /-- An instruction without a meaning yet. Raised by exec alone, and by no arm of it now. Safe: the run stops. -/
  | notModelled (mnemonic : String)
  /-- A host access to the register window that is not an aligned 32-bit access, which the spec puts outside the model and
  refuses (R19, R128, U17). Raised by the register accesses in HostControl.lean. Safe: the run stops. -/
  | notAlignedWordAccess
  deriving DecidableEq, Repr

/-- The block right after reset (R143), for any parameters. The inputs wait for the host: nothing is pending. -/
def State.resetWith (p : Params) : State :=
  { params := p
    cfgLock := false
    code := .ok
    err := false
    cmd := 0#32
    evqPop := 0#32
    arg0 := 0#32
    arg1 := 0#32
    arg2 := 0#32
    arg3 := 0#32
    res := {}
    hostIp := 0#32
    bcastIp := 0#32
    gatewayIp := 0#32
    evq := []
    portOpen := []
    table := List.replicate (p.tableWays * p.tableLines) (Entry.empty p.maxUnacked)
    mem := []
    isnFeed := []
    isnDrawn := 0
    inputs := []
    readData := 0#32 }

/-- The block right after reset (R143), with the parameters of log entry 2. -/
def State.reset : State := State.resetWith Config.params

end Sys2Proof.Machine
end

