-- ==== Sys2Proof/Machine/Ops.lean ====
section
/-!
DEFINITION. The named operations over memory, registers, the event queue, the socket table and sequence numbers
(00_scope.md R12 to R15), the launch checks every command goes through (45_host_control.md R119), and how a command ends:
raise, the block's one form of taking an exception (60_exceptions.md R130), and finish (10_state.md R22).
-/

namespace Sys2Proof.Machine

/-- The outcome of a step of this machine. -/
abbrev Outcome := Host.Outcome State Fault Refusal

/-! ### Sparse data in one canonical form: buffer memory and the port words -/

/-- What an address that is not listed reads as: 0. For the port words the spec's reset value (R143); for buffer memory,
whose contents after reset are unspecified, DESIGN CHOICE, unsafe: log entry 4. -/
def Cells.unlisted (n : Nat) : BitVec n := 0#n

/-- The value at an address. -/
def Cells.read {n : Nat} : List (Nat × BitVec n) → Nat → BitVec n
  | [], _ => Cells.unlisted n
  | (k, v) :: m, a => if a = k then v else Cells.read m a

/-- The cells after writing v at a, in canonical form. -/
def Cells.write {n : Nat} : List (Nat × BitVec n) → Nat → BitVec n → List (Nat × BitVec n)
  | [], a, v => if v = Cells.unlisted n then [] else [(a, v)]
  | (k, u) :: m, a, v =>
    if a < k then (if v = Cells.unlisted n then (k, u) :: m else (a, v) :: (k, u) :: m)
    else if a = k then (if v = Cells.unlisted n then m else (a, v) :: m)
    else (k, u) :: Cells.write m a v

/-- The canonical form: addresses strictly rising, no cell that equals what an unlisted address reads as. -/
abbrev Cells.Wf {n : Nat} (m : List (Nat × BitVec n)) : Prop :=
  m.Pairwise (fun x y => x.1 < y.1) ∧ ∀ c ∈ m, c.2 ≠ Cells.unlisted n

/-- The canonical form of buffer memory. -/
abbrev Memory.wf (m : Memory) : Prop := Cells.Wf (n := 8) m

/-- Byte(a) (R12). -/
def Memory.byte (m : Memory) (a : Nat) : Byte := Cells.read m a

/-- be16(a): the byte at a is the more significant one (R12, R44). -/
def Memory.be16 (m : Memory) (a : Nat) : Half := m.byte a ++ m.byte (a + 1)

/-- be32(a): the byte at a is the most significant one (R12, R44). -/
def Memory.be32 (m : Memory) (a : Nat) : Word := m.be16 a ++ m.be16 (a + 2)

/-- The n bytes from a on, in address order. -/
def Memory.bytes (m : Memory) (a n : Nat) : List Byte := (List.range n).map fun i => m.byte (a + i)

/-- Memory after the write of one byte (R12). -/
def Memory.setByte (m : Memory) (a : Nat) (v : Byte) : Memory := Cells.write m a v

/-- Memory after the write of a 16-bit number, its more significant byte at a (R12, R44). -/
def Memory.setBe16 (m : Memory) (a : Nat) (v : Half) : Memory :=
  (m.setByte a (v.extractLsb' 8 8)).setByte (a + 1) (v.extractLsb' 0 8)

/-- The access-window check (20_memory.md R41): the n bytes from addr on lie in buffer memory. -/
def inWindow (p : Params) (addr n : Nat) : Bool :=
  n == 0 || (decide (addr + n - 1 < p.memSize) && decide (addr + n - 1 ≤ 2 ^ 32 - 1))

/-! ### Sequence numbers (R14) -/

/-- seq_add: addition modulo 2^32. -/
def seqAdd (a : Word) (n : Nat) : Word := BitVec.ofNat 32 (a.toNat + n)

/-- seq_le: the distance from a to b, modulo 2^32, is below 2^31 (D35). -/
def seqLe (a b : Word) : Bool := (b - a).toNat < 2 ^ 31

/-! ### Small fields -/

/-- A handle, or the null handle 0xFFFFFFFF, in a RES register (R58, D23). -/
def handleWord : Option Nat → Word
  | some h => BitVec.ofNat 32 h
  | none => 0xFFFFFFFF#32

/-- The KIND byte of an event (R60). -/
def EventKind.byte : EventKind → Byte
  | .icmp => 0x01#8
  | .accepted => 0x02#8
  | .rxData => 0x03#8
  | .closed => 0x04#8
  | .bufRelease => 0x05#8
  | .tx => 0x06#8
  | .retx => 0x07#8
  | .replyRstAck => 0x10#8
  | .replySynAck => 0x11#8
  | .replyAck => 0x12#8
  | .replyFinAck => 0x13#8

/-- W0 of an event record (R59): HANDLE, SLOT, KIND. -/
def Event.w0 (e : Event) : Word := e.handle ++ e.slot ++ e.kind.byte

/-- The word that names a connection's ports in replies and results: remote port, local port (R60, R97). -/
def portsWord (remotePort localPort : Half) : Word := remotePort ++ localPort

/-! ### Event queue -/

/-- emit: append one record at the tail (R15, R27). -/
def State.emit (s : State) (e : Event) : State := { s with evq := s.evq ++ [e] }

/-- Append several records, in order. -/
def State.emitAll (s : State) (es : List Event) : State := { s with evq := s.evq ++ es }

/-- The records the queue can still take (R28). -/
def State.evqFree (s : State) : Nat := s.params.evqDepth - s.evq.length

/-! ### Socket table -/

/-- T[h] (R85). -/
def State.entry (s : State) (h : Nat) : Entry := s.table.getD h (Entry.empty s.params.maxUnacked)

/-- T[h] replaced. -/
def State.setEntry (s : State) (h : Nat) (e : Entry) : State := { s with table := s.table.set h e }

/-! ### ISN input -/

/-- The value at the ISN input: the environment's, or else a free value (R31, log entry 5). -/
def State.isn (s : State) : Word :=
  match s.isnFeed with
  | v :: _ => v
  | [] => Config.isnInput s.isnDrawn

/-- The state after one value was taken from the ISN input (draw_isn, R15). -/
def State.drawIsn (s : State) : State := { s with isnFeed := s.isnFeed.tail, isnDrawn := s.isnDrawn + 1 }

/-- The port's bit of the bitmap (R30): bit p mod 32 of word p div 32. -/
def State.portIsOpen (s : State) (p : Half) : Bool := (Cells.read s.portOpen (p.toNat / 32)).getLsbD (p.toNat % 32)

/-! ### How a command ends -/

/-- raise E (R15, R130): CODE and ERR are written, nothing else changes. It is called on the state before the command, so
that whatever the command had planned is discarded. The block has no other exception entry (R133). -/
def State.raise (e : CmdError) (s : State) : State := { s with code := .error e, err := true }

/-- The way back from an error (R134): the host clears ERR; CODE keeps the last command's code (R122). -/
def State.clearErr (s : State) : State := { s with err := false }

/-- finish (R15, R22): CODE is OK and all eight RES registers are written. ERR is not cleared (R122). -/
def State.finish (r : Results) (s : State) : State := { s with code := .ok, res := r }

/-- What a command's body answers: an error, or the changed state and the results. -/
abbrev Body := Except CmdError (State × Results)

/-- The config column of R51: the command needs CTRL.CFG_LOCK = 1. -/
def needsConfig : Instr → Bool
  | .destClass | .ipv4Rx | .rxFrame | .tcpSend | .ageTick => true
  | .nop | .cksum | .pseudo | .ethClassify | .tcpHash | .tcpLookup | .tcpAlloc | .tcpClear | .tcpRx => false

/-- The commands whose ARG0 is a handle, checked at launch (R119). -/
def takesHandle : Instr → Bool
  | .tcpClear | .tcpSend => true
  | .nop | .cksum | .pseudo | .destClass | .ethClassify | .ipv4Rx | .rxFrame | .tcpHash | .tcpLookup | .tcpAlloc
  | .tcpRx | .ageTick => false

/-- The worst-case event count of a command (R61). -/
def worstEvents (p : Params) : Instr → Nat
  | .nop | .cksum | .pseudo | .destClass | .ethClassify | .ipv4Rx | .tcpHash | .tcpLookup | .tcpAlloc => 0
  | .tcpClear => p.maxUnacked
  | .tcpRx | .rxFrame => p.maxUnacked + 3
  | .tcpSend => 1
  | .ageTick => p.handles * p.maxUnacked

/-- The first error of the launch sequence after the word was found legal (R119, R131). -/
def launchError (i : Instr) (s : State) : Option CmdError :=
  if needsConfig i && !s.cfgLock then some .notConfigured
  else if takesHandle i && decide (s.params.handles ≤ s.arg0.toNat) then some .badHandle
  else if s.evqFree < worstEvents s.params i then some .evqFull
  else none

/-- The state a command leaves: its body's writes committed together with finish, or STATUS alone written (R15, R119). -/
def State.conclude (s : State) : Body → State
  | .ok (t, r) => t.finish r
  | .error e => s.raise e

/-- The launch of a command (R119): the checks in their order, then the body. One atomic step, and always a next state. -/
def launch (i : Instr) (body : State → Body) (s : State) : Outcome :=
  match launchError i s with
  | some e => .next (s.raise e)
  | none => .next (s.conclude (body s))

end Sys2Proof.Machine
end

