-- ==== Sys2Proof/Machine/Operands.lean ====
section
/-!
DEFINITION. Operand assembly (30_encoding.md R53, R62): the one operand form is an ARG register, read whole or by its
low bits.
-/

namespace Sys2Proof.Machine

/-- A u16 from an ARG register: bits 15:0; the other bits are ignored (R62). -/
def argU16 (w : Word) : Half := w.extractLsb' 0 16

/-- A u8 from an ARG register: bits 7:0 (R62). -/
def argU8 (w : Word) : Byte := w.extractLsb' 0 8

/-- The operands of the three tuple commands: remote IP, local port, remote port (R62, R90). -/
structure Tuple where
  remoteIp : Word
  localPort : Half
  remotePort : Half
  deriving DecidableEq, Repr

/-- The tuple in ARG0..ARG2 (R62). -/
def State.argTuple (s : State) : Tuple :=
  { remoteIp := s.arg0, localPort := argU16 s.arg1, remotePort := argU16 s.arg2 }

end Sys2Proof.Machine
end

