-- ==== Sys2Proof/Machine/Checksum.lean ====
section
/-!
DEFINITION. The checksum kernel (40_checksum.md): CKSUM (R65), PSEUDO (R66), and the generation of a segment's checksum
field (R68), which TCP_SEND and AGE_TICK share.
-/

namespace Sys2Proof.Machine

/-- oc_add (00_scope.md R13): addition with the carry added back. -/
def ocAdd (s w : Half) : Half :=
  let t := s.toNat + w.toNat
  if 0xFFFF < t then BitVec.ofNat 16 ((t &&& 0xFFFF) + 1) else BitVec.ofNat 16 t

/-- The one's-complement sum of the bytes' big-endian words, an odd last byte in the high half (R65). -/
def cksumBytes : List Byte → Half → Half
  | [], s => s
  | [b], s => ocAdd s (b ++ 0#8)
  | b :: c :: rest, s => cksumBytes rest (ocAdd s (b ++ c))

/-- cksum(addr, len, initial) (R65). -/
def cksum (m : Memory) (addr len : Nat) (initial : Half) : Half := cksumBytes (m.bytes addr len) initial

/-- pseudo(src, dst, proto, length) (R66). -/
def pseudoSum (src dst : Word) (proto : Byte) (length : Half) : Half :=
  let s := ocAdd 0#16 (src.extractLsb' 16 16)
  let s := ocAdd s (src.extractLsb' 0 16)
  let s := ocAdd s (dst.extractLsb' 16 16)
  let s := ocAdd s (dst.extractLsb' 0 16)
  let s := ocAdd s (0#8 ++ proto)
  ocAdd s length

/-- What a TCP segment's checksum field is given (R68): the complement of the sum over the segment, seeded with the
prelude of HOST_IP, the remote IP, protocol 6 and the segment length. The field is 0 in the memory it is taken of. -/
def tcpChecksum (m : Memory) (hostIp remoteIp : Word) (buf len : Nat) : Half :=
  ~~~ cksum m buf len (pseudoSum hostIp remoteIp 6#8 (BitVec.ofNat 16 len))

/-- A segment's checksum field written anew (R68, R109 step 4, R112): zeroed, then the complement of the sum. -/
def sealSegment (m : Memory) (hostIp remoteIp : Word) (buf len : Nat) : Memory :=
  let z := m.setBe16 (buf + 16) 0#16
  z.setBe16 (buf + 16) (tcpChecksum z hostIp remoteIp buf len)

/-- The body of CKSUM (R65). -/
def cksumBody (s : State) : Body :=
  if inWindow s.params s.arg0.toNat s.arg1.toNat then
    .ok (s, { r0 := (cksum s.mem s.arg0.toNat s.arg1.toNat (argU16 s.arg2)).setWidth 32 })
  else .error .memRange

/-- The body of PSEUDO (R66). -/
def pseudoBody (s : State) : Body :=
  .ok (s, { r0 := (pseudoSum s.arg0 s.arg1 (argU8 s.arg2) (argU16 s.arg3)).setWidth 32 })

/-- CKSUM (R65). -/
def execCksum (s : State) : Outcome := launch .cksum cksumBody s

/-- PSEUDO (R66). -/
def execPseudo (s : State) : Outcome := launch .pseudo pseudoBody s

end Sys2Proof.Machine
end

