-- ==== Sys2Proof/Machine/Flags.lean ====
section
/-!
DEFINITION. The block's flags (10_state.md R23): CTRL.CFG_LOCK, STATUS.ERR, and EVQ_NONEMPTY and EVQ_FULL, which are
computed from EVQ_COUNT and never stored; and the CTRL and STATUS words that hold them (R20).
-/

namespace Sys2Proof.Machine

/-- The number of a STATUS.CODE (30_encoding.md R54). -/
def CmdCode.byte : CmdCode → Byte
  | .ok => 0x00#8
  | .error .illegalCmd => 0x01#8
  | .error .memRange => 0x02#8
  | .error .badHandle => 0x03#8
  | .error .notConfigured => 0x04#8
  | .error .evqFull => 0x05#8

/-- STATUS.EVQ_NONEMPTY: EVQ_COUNT > 0 (R20, R23). -/
def State.evqNonempty (s : State) : Bool := decide (0 < s.evq.length)

/-- STATUS.EVQ_FULL: EVQ_COUNT = EVQ_DEPTH (R20, R23). -/
def State.evqFull (s : State) : Bool := s.evq.length == s.params.evqDepth

/-- STATUS as read (R20, R122): CODE in bits 7:0, ERR in 8, EVQ_NONEMPTY in 9, EVQ_FULL in 10, the rest 0. -/
def State.statusWord (s : State) : Word :=
  0#21 ++ BitVec.ofBool s.evqFull ++ BitVec.ofBool s.evqNonempty ++ BitVec.ofBool s.err ++ s.code.byte

/-- A host write to STATUS (R122): bit 8 = 1 clears ERR, every other bit is ignored. -/
def State.writeStatus (s : State) (v : Word) : State := if v.getLsbD 8 then s.clearErr else s

/-- CTRL as read (R121): CFG_LOCK in bit 0, the rest 0. -/
def State.ctrlWord (s : State) : Word := 0#31 ++ BitVec.ofBool s.cfgLock

/-- A host write to CTRL (R24, R121): bit 0 = 1 sets CFG_LOCK; nothing but reset clears it. -/
def State.writeCtrl (s : State) (v : Word) : State := { s with cfgLock := s.cfgLock || v.getLsbD 0 }

end Sys2Proof.Machine
end

