-- ==== Sys2Proof/Machine/HostControl.lean ====
section
/-!
DEFINITION. Host control (45_host_control.md): NOP (R120), every host read and write of the register window (R121 to
R128), the host's accesses to buffer memory (20_memory.md R42), reset (R143, R144), and how the next access is taken from
the host's pending ones.
-/

namespace Sys2Proof.Machine

/-! ### NOP -/

/-- The body of NOP (R120): all RES registers are written 0. -/
def nopBody (s : State) : Body := .ok (s, {})

/-- NOP (R120). -/
def execNop (s : State) : Outcome := launch .nop nopBody s

/-! ### The register map -/

/-- The registers of the host window (10_state.md R20). portOpen i is PORT_OPEN[i]; table n is the n-th word of the TABLE
window; every offset that R20 does not list is unlisted (R128). -/
inductive HostReg where
  | ctrl
  | status
  | cmd
  | paramId
  | arg0
  | arg1
  | arg2
  | arg3
  | res0
  | res1
  | res2
  | res3
  | res4
  | res5
  | res6
  | res7
  | hostIp
  | bcastIp
  | gatewayIp
  | paramTable
  | paramTcp
  | paramMtu
  | paramMem
  | paramEvq
  | evqCount
  | evqPop
  | evqHead0
  | evqHead1
  | evqHead2
  | evqHead3
  | evqHead4
  | evqHead5
  | portOpen (i : Nat)
  | table (n : Nat)
  | unlisted
  deriving DecidableEq, Repr

/-- The registers below offset 0x1000 (R20). -/
def lowRegisters : List (Nat × HostReg) :=
  [(0x000, .ctrl), (0x004, .status), (0x008, .cmd), (0x00C, .paramId),
   (0x010, .arg0), (0x014, .arg1), (0x018, .arg2), (0x01C, .arg3),
   (0x020, .res0), (0x024, .res1), (0x028, .res2), (0x02C, .res3),
   (0x030, .res4), (0x034, .res5), (0x038, .res6), (0x03C, .res7),
   (0x040, .hostIp), (0x044, .bcastIp), (0x048, .gatewayIp),
   (0x050, .paramTable), (0x054, .paramTcp), (0x058, .paramMtu), (0x05C, .paramMem), (0x060, .paramEvq),
   (0x064, .evqCount), (0x068, .evqPop),
   (0x070, .evqHead0), (0x074, .evqHead1), (0x078, .evqHead2), (0x07C, .evqHead3), (0x080, .evqHead4),
   (0x084, .evqHead5)]

/-- The register at a word-aligned offset (R20). -/
def regAt (off : Nat) : HostReg :=
  if off < 0x1000 then
    match lowRegisters.lookup off with
    | some r => r
    | none => .unlisted
  else if off ≤ 0x2FFC then .portOpen ((off - 0x1000) / 4)
  else if off < 0x10000 then .unlisted
  else .table ((off - 0x10000) / 4)

/-! ### Reads -/

/-- EW: the words of one entry in the TABLE window (R37). -/
def entryWords (p : Params) : Nat := 9 + 4 * p.maxUnacked

/-- The words of a slot in the TABLE window, j = 0..3 (R37). -/
def Slot.word (sl : Slot) (j : Nat) : Word :=
  match j with
  | 0 => sl.age ++ 0#15 ++ BitVec.ofBool sl.occupied
  | 1 => sl.buf
  | 2 => sl.len.setWidth 32
  | _ => sl.endSeq

/-- Word n of an entry in the TABLE window (R37). -/
def Entry.word (e : Entry) (n : Nat) : Word :=
  match n with
  | 0 => 0#31 ++ BitVec.ofBool e.valid
  | 1 => e.remoteIp
  | 2 => e.remotePort ++ e.localPort
  | 3 => e.remoteSeq
  | 4 => e.remoteSeqSent
  | 5 => e.localSeq
  | 6 => e.localInitialSeq
  | 7 => e.remoteInitialSeq
  | 8 => e.idle.setWidth 32
  | m + 9 => (e.unacked.getD (m / 4) Slot.empty).word (m % 4)

/-- Word n of the TABLE window (R37): past the last entry it reads 0. -/
def State.tableWord (s : State) (n : Nat) : Word :=
  let h := n / entryWords s.params
  if h < s.params.handles then (s.entry h).word (n % entryWords s.params) else 0#32

/-- The words of the head record, j = 0..5; 0 where the queue is empty (R125). -/
def State.evqHead (s : State) (j : Nat) : Word :=
  match s.evq with
  | [] => 0#32
  | e :: _ =>
    match j with
    | 0 => e.w0
    | 1 => e.w1
    | 2 => e.w2
    | 3 => e.w3
    | 4 => e.w4
    | _ => e.w5

/-- A host read of a register (R20, R121 to R128). No read has a side effect. -/
def State.readReg (s : State) : HostReg → Word
  | .ctrl => s.ctrlWord
  | .status => s.statusWord
  | .cmd => s.cmd
  | .paramId => 0x534E0007#32
  | .arg0 => s.arg0
  | .arg1 => s.arg1
  | .arg2 => s.arg2
  | .arg3 => s.arg3
  | .res0 => s.res.r0
  | .res1 => s.res.r1
  | .res2 => s.res.r2
  | .res3 => s.res.r3
  | .res4 => s.res.r4
  | .res5 => s.res.r5
  | .res6 => s.res.r6
  | .res7 => s.res.r7
  | .hostIp => s.hostIp
  | .bcastIp => s.bcastIp
  | .gatewayIp => s.gatewayIp
  | .paramTable => BitVec.ofNat 16 s.params.tableWays ++ BitVec.ofNat 16 s.params.tableLines
  | .paramTcp => BitVec.ofNat 16 s.params.retransmitTimeout ++ 0#8 ++ BitVec.ofNat 8 s.params.maxUnacked
  | .paramMtu => BitVec.ofNat 32 s.params.payloadMtu
  | .paramMem => BitVec.ofNat 32 s.params.memSize
  | .paramEvq => BitVec.ofNat 32 s.params.evqDepth
  | .evqCount => BitVec.ofNat 32 s.evq.length
  | .evqPop => s.evqPop
  | .evqHead0 => s.evqHead 0
  | .evqHead1 => s.evqHead 1
  | .evqHead2 => s.evqHead 2
  | .evqHead3 => s.evqHead 3
  | .evqHead4 => s.evqHead 4
  | .evqHead5 => s.evqHead 5
  | .portOpen i => Cells.read s.portOpen i
  | .table n => s.tableWord n
  | .unlisted => 0#32

/-! ### Writes -/

/-- A host write to EVQ_POP (R125): the head record is removed, if there is one; the value is kept (R123). -/
def State.popEvent (s : State) (v : Word) : State := { s with evq := s.evq.tail, evqPop := v }

/-- A host write to a register (R20, R121 to R128). A write to CMD keeps the value (R123); the command it launches is
run by the step. Read-only registers, the TABLE window and unlisted offsets ignore writes. -/
def State.writeReg (s : State) (r : HostReg) (v : Word) : State :=
  match r with
  | .ctrl => s.writeCtrl v
  | .status => s.writeStatus v
  | .cmd => { s with cmd := v }
  | .arg0 => { s with arg0 := v }
  | .arg1 => { s with arg1 := v }
  | .arg2 => { s with arg2 := v }
  | .arg3 => { s with arg3 := v }
  | .hostIp => if s.cfgLock then s else { s with hostIp := v }
  | .bcastIp => if s.cfgLock then s else { s with bcastIp := v }
  | .gatewayIp => if s.cfgLock then s else { s with gatewayIp := v }
  | .evqPop => s.popEvent v
  | .portOpen i => { s with portOpen := Cells.write s.portOpen i v }
  | .paramId | .res0 | .res1 | .res2 | .res3 | .res4 | .res5 | .res6 | .res7 | .paramTable | .paramTcp | .paramMtu
  | .paramMem | .paramEvq | .evqCount | .evqHead0 | .evqHead1 | .evqHead2 | .evqHead3 | .evqHead4 | .evqHead5
  | .table _ | .unlisted => s

/-! ### Reset, and the host's accesses -/

/-- The block's reset (R143, R144): every piece of block state at its reset value, nothing emitted. The parameters stay
(R8); buffer memory is not reset, so it keeps its bytes (log entry 8); the ISN input and the host's pending accesses lie
outside the block. -/
def State.hostReset (s : State) : State :=
  { State.resetWith s.params with
    mem := s.mem, isnFeed := s.isnFeed, isnDrawn := s.isnDrawn, inputs := s.inputs, readData := s.readData }

/-- A register access is an aligned 32-bit access (R19). -/
def alignedWord (bits : Nat) (off : Word) : Bool := bits == 32 && off.toNat % 4 == 0

/-- What taking the host's next access comes to: an outcome, or a command to run on a state. -/
inductive Taken where
  | done (o : Outcome)
  | command (i : Instr) (s : State)

/-- A host write of v to CMD (R119): the register keeps v; a legal word is a command, an illegal one ends with
ERR_ILLEGAL_CMD (R52). -/
def launchWord (v : Word) (s : State) : Taken :=
  let s := s.writeReg .cmd v
  match decode v with
  | .ok i => .command i s
  | .error _ => .done (.next (s.raise .illegalCmd))

/-- One access of the host, on the state from which it was taken. -/
def takeAccess (a : HostAccess) (s : State) : Taken :=
  match a with
  | .read bits off =>
    if alignedWord bits off then .done (.next { s with readData := s.readReg (regAt off.toNat) })
    else .done (.refused .notAlignedWordAccess)
  | .write bits off v =>
    if alignedWord bits off then
      (match regAt off.toNat with
       | .cmd => launchWord v s
       | r => .done (.next (s.writeReg r v)))
    else .done (.refused .notAlignedWordAccess)
  | .memRead a =>
    if a.toNat < s.params.memSize then .done (.next { s with readData := (s.mem.byte a.toNat).setWidth 32 })
    else .done (.fault .hostMemoryRange)
  | .memWrite a b =>
    if a.toNat < s.params.memSize then .done (.next { s with mem := s.mem.setByte a.toNat b })
    else .done (.fault .hostMemoryRange)
  | .reset => .done (.next s.hostReset)

/-- The host's next access, taken from the pending ones. With none pending the block waits for a host access and holds
its state (R142, R143). -/
def takeNext (s : State) : Taken :=
  match s.inputs with
  | [] => .done (.next s)
  | a :: rest => takeAccess a { s with inputs := rest }

/-- The state in which the host's next access writes w to CMD. -/
def State.withCommandWrite (s : State) (w : Word) : State := { s with inputs := .write 32 0x008#32 w :: s.inputs }

end Sys2Proof.Machine
end

