-- ==== Sys2Proof/Machine/Ipv4.lean ====
section
/-!
DEFINITION. The Ethernet classifier and the IPv4 receive checks (41_ipv4_rx.md): DEST_CLASS (R76, R77), ETH_CLASSIFY
(R78, R79) and IPV4_RX (R80 to R82). RX_FRAME (R84) chains them and stands in RxFrame.lean.
-/

namespace Sys2Proof.Machine

/-- The destination classes (30_encoding.md R55). -/
inductive DestClass where
  | unicastUs
  | broadcast
  | multicast
  | unicastOther
  deriving DecidableEq, Repr

/-- The code of a class (R55). -/
def DestClass.byte : DestClass → Byte
  | .unicastUs => 0#8
  | .broadcast => 1#8
  | .multicast => 2#8
  | .unicastOther => 3#8

/-- dest_class(a) (R76): the first class that matches, in the source's order (D19). -/
def destClassOf (hostIp bcastIp a : Word) : DestClass :=
  if a = hostIp then .unicastUs
  else if a = bcastIp ∨ a = 0xFFFFFFFF#32 then .broadcast
  else if a.extractLsb' 28 4 = 0b1110#4 then .multicast
  else .unicastOther

/-- The Ethernet verdicts (R55). -/
inductive EthVerdict where
  | ipv4
  | notIpv4
  | runt
  deriving DecidableEq, Repr

/-- The code of an Ethernet verdict (R55). -/
def EthVerdict.byte : EthVerdict → Byte
  | .ipv4 => 0x00#8
  | .notIpv4 => 0x01#8
  | .runt => 0x02#8

/-- What eth_check answers (R78): verdict, EtherType, payload address, ethernet_payload_length. -/
structure EthInfo where
  verdict : EthVerdict
  etherType : Half
  payload : Word
  payloadLen : Word
  deriving DecidableEq, Repr

/-- eth_check(f, flen) with its access window (R78): 14 bytes where the frame has them, else none. -/
def ethCheck (s : State) (f flen : Word) : Except CmdError EthInfo :=
  if flen.toNat < 14 then .ok { verdict := .runt, etherType := 0#16, payload := 0#32, payloadLen := 0#32 }
  else if inWindow s.params f.toNat 14 then
    let et := s.mem.be16 (f.toNat + 12)
    .ok { verdict := if et = 0x0800#16 then .ipv4 else .notIpv4, etherType := et,
          payload := f + 14#32, payloadLen := flen - 14#32 }
  else .error .memRange

/-- The IPv4 verdicts (R56). -/
inductive Ipv4Verdict where
  | deliverIcmp
  | deliverTcp
  | udpPlaceholder
  | dropChecksum
  | dropVersionIhl
  | dropLength
  | dropFragment
  | dropNotForUs
  | dropIcmpMulticast
  | dropTcpNotUnicast
  | dropUnknownProto
  deriving DecidableEq, Repr

/-- The code of an IPv4 verdict (R56). -/
def Ipv4Verdict.byte : Ipv4Verdict → Byte
  | .deliverIcmp => 0x00#8
  | .deliverTcp => 0x01#8
  | .udpPlaceholder => 0x02#8
  | .dropChecksum => 0x10#8
  | .dropVersionIhl => 0x11#8
  | .dropLength => 0x12#8
  | .dropFragment => 0x13#8
  | .dropNotForUs => 0x14#8
  | .dropIcmpMulticast => 0x15#8
  | .dropTcpNotUnicast => 0x16#8
  | .dropUnknownProto => 0x17#8

/-- The header fields of the packet at p (R73): version+IHL, DSCP/ECN, total length, fragment id, flags+fragOff, TTL,
protocol, source and destination. -/
structure Ipv4Header where
  vihl : Byte
  dscp : Byte
  totalLen : Half
  id : Half
  flagsFrag : Half
  ttl : Byte
  proto : Byte
  src : Word
  dst : Word
  deriving DecidableEq, Repr

/-- The fields as they stand in buffer memory (R73). -/
def ipv4Header (m : Memory) (p : Nat) : Ipv4Header :=
  { vihl := m.byte p, dscp := m.byte (p + 1), totalLen := m.be16 (p + 2), id := m.be16 (p + 4),
    flagsFrag := m.be16 (p + 6), ttl := m.byte (p + 8), proto := m.byte (p + 9),
    src := m.be32 (p + 12), dst := m.be32 (p + 16) }

/-- The header length in bytes, 4 x IHL (R73, R80). -/
def ipv4HeaderLen (vihl : Byte) : Nat := 4 * (vihl.extractLsb' 0 4).toNat

/-- Step 5's test (R80): the reserved bit, MF, or a fragment offset that is not 0. DF is ignored. -/
def isFragment (ff : Half) : Bool := ff.getLsbD 15 || ff.getLsbD 13 || ff.extractLsb' 0 13 != 0#13

/-- Steps 1 to 7 of the receive checks: the verdict of the first failing step (R80, R81). -/
def ipv4Verdict (sum : Half) (h : Ipv4Header) (eplen : Nat) (cls : DestClass) : Ipv4Verdict :=
  if sum ≠ 0xFFFF#16 then .dropChecksum
  else if h.vihl ≠ 0x45#8 then .dropVersionIhl
  else if h.totalLen.toNat < 20 ∨ eplen < h.totalLen.toNat then .dropLength
  else if isFragment h.flagsFrag then .dropFragment
  else if cls = .unicastOther then .dropNotForUs
  else if h.proto = 1#8 then
    (if cls = .unicastUs ∨ cls = .broadcast then .deliverIcmp else .dropIcmpMulticast)
  else if h.proto = 6#8 then
    (if cls = .unicastUs then .deliverTcp else .dropTcpNotUnicast)
  else if h.proto = 17#8 then .udpPlaceholder
  else .dropUnknownProto

/-- What ipv4_check answers (R80). upperLen is total_length - 20, or 0 where total_length is below 20. -/
structure Ipv4Info where
  verdict : Ipv4Verdict
  header : Ipv4Header
  cls : DestClass
  prelude : Half
  payload : Word
  upperLen : Nat
  deriving DecidableEq, Repr

/-- ipv4_check(p, eplen) with its access windows (R80): first the byte at p, then max(20, 4 x IHL) bytes. -/
def ipv4Check (s : State) (p eplen : Word) : Except CmdError Ipv4Info :=
  if !inWindow s.params p.toNat 1 then .error .memRange
  else
    let hlen := ipv4HeaderLen (s.mem.byte p.toNat)
    if !inWindow s.params p.toNat (max 20 hlen) then .error .memRange
    else
      let h := ipv4Header s.mem p.toNat
      let cls := destClassOf s.hostIp s.bcastIp h.dst
      let v := ipv4Verdict (cksum s.mem p.toNat hlen 0#16) h eplen.toNat cls
      .ok { verdict := v, header := h, cls := cls,
            prelude := if v = .deliverTcp then pseudoSum h.src h.dst 6#8 (h.totalLen - 20#16) else 0#16,
            payload := p + 20#32, upperLen := h.totalLen.toNat - 20 }

/-- The body of DEST_CLASS (R77). -/
def destClassBody (s : State) : Body :=
  .ok (s, { r0 := (destClassOf s.hostIp s.bcastIp s.arg0).byte.setWidth 32 })

/-- The body of ETH_CLASSIFY (R79). -/
def ethClassifyBody (s : State) : Body :=
  match ethCheck s s.arg0 s.arg1 with
  | .error e => .error e
  | .ok i => .ok (s, { r0 := i.verdict.byte.setWidth 32, r1 := i.etherType.setWidth 32, r2 := i.payload,
                       r3 := i.payloadLen })

/-- (tlen << 16) | (cls << 8) | proto, as RES3 of IPV4_RX and RX_FRAME holds it (R82, R84). -/
def Ipv4Info.lengthClassProto (i : Ipv4Info) : Word := i.header.totalLen ++ i.cls.byte ++ i.header.proto

/-- The body of IPV4_RX (R82). -/
def ipv4RxBody (s : State) : Body :=
  match ipv4Check s s.arg0 s.arg1 with
  | .error e => .error e
  | .ok i =>
    .ok (s, { r0 := i.verdict.byte.setWidth 32
              r1 := i.header.src
              r2 := i.header.dst
              r3 := i.lengthClassProto
              r4 := i.header.flagsFrag ++ i.prelude
              r5 := i.payload
              r6 := i.header.id ++ BitVec.ofNat 16 i.upperLen
              r7 := 0#8 ++ i.header.ttl ++ i.header.dscp ++ i.header.vihl })

/-- DEST_CLASS (R77). -/
def execDestClass (s : State) : Outcome := launch .destClass destClassBody s

/-- ETH_CLASSIFY (R79). -/
def execEthClassify (s : State) : Outcome := launch .ethClassify ethClassifyBody s

/-- IPV4_RX (R82). -/
def execIpv4Rx (s : State) : Outcome := launch .ipv4Rx ipv4RxBody s

end Sys2Proof.Machine
end

