-- ==== Sys2Proof/Machine/SocketTable.lean ====
section
/-!
DEFINITION. The TCP socket table (42_socket_table.md): hash, lookup, alloc and clear (R86 to R89), and the commands
TCP_HASH (R90), TCP_LOOKUP (R91), TCP_ALLOC (R92) and TCP_CLEAR (R93).
-/

namespace Sys2Proof.Machine

/-- rotl16(x, 8) (00_scope.md R10). -/
def rotl16By8 (x : Half) : Half := (x <<< 8) ||| (x >>> 8)

/-- The default mix (R86, D22), before it is reduced to a line. -/
def defaultMix (t : Tuple) : Half :=
  t.remoteIp.extractLsb' 16 16 ^^^ t.remoteIp.extractLsb' 0 16 ^^^ t.localPort ^^^ rotl16By8 t.remotePort

/-- line(ip, lp, rp) (R86): in [0, TCP_TABLE_LINES). -/
def hashLine (p : Params) (t : Tuple) : Nat :=
  match p.hash with
  | .default => (defaultMix t).toNat % p.tableLines
  | .uninterpreted n => Config.hashMix n t.remoteIp t.localPort t.remotePort % p.tableLines

/-- The handles probed on a line: ways 0, 1, ... in that order (R85). -/
def probes (p : Params) (line : Nat) : List Nat := (List.range p.tableWays).map fun w => w * p.tableLines + line

/-- The entry is valid and holds the tuple (R87). -/
def Entry.holds (e : Entry) (t : Tuple) : Bool :=
  e.valid && e.remoteIp == t.remoteIp && e.localPort == t.localPort && e.remotePort == t.remotePort

/-- lookup(ip, lp, rp) (R87). -/
def State.lookup (s : State) (t : Tuple) : Option Nat :=
  (probes s.params (hashLine s.params t)).find? fun h => (s.entry h).holds t

/-- The first way of a line whose entry is not valid (R88). -/
def State.freeHandle (s : State) (line : Nat) : Option Nat :=
  (probes s.params line).find? fun h => !(s.entry h).valid

/-- The reasons of alloc (30_encoding.md R58). -/
inductive AllocResult where
  | allocated
  | lineFull
  | duplicate
  deriving DecidableEq, Repr

/-- The code of an alloc reason (R58). -/
def AllocResult.word : AllocResult → Word
  | .allocated => 0#32
  | .lineFull => 1#32
  | .duplicate => 2#32

/-- A fresh entry for a tuple: valid, the tuple written, every other field 0 and every slot empty (R88). -/
def Entry.fresh (u : Nat) (t : Tuple) : Entry :=
  { Entry.empty u with valid := true, remoteIp := t.remoteIp, localPort := t.localPort, remotePort := t.remotePort }

/-- alloc(ip, lp, rp) (R88): no eviction, no duplicate. -/
def State.alloc (s : State) (t : Tuple) : State × Option Nat × AllocResult :=
  if (s.lookup t).isSome then (s, none, .duplicate)
  else match s.freeHandle (hashLine s.params t) with
    | some h => (s.setEntry h (Entry.fresh s.params.maxUnacked t), some h, .allocated)
    | none => (s, none, .lineFull)

/-- EV_BUF_RELEASE for a slot (R60). -/
def Event.bufRelease (h k : Nat) (sl : Slot) : Event :=
  { kind := .bufRelease, slot := BitVec.ofNat 8 k, handle := BitVec.ofNat 16 h,
    w1 := sl.buf, w2 := sl.len.setWidth 32, w3 := sl.endSeq }

/-- The slots from number k on after the release of those occupied slots that pick selects, and the release records in
ascending slot order (R89, R102). -/
def releaseSlots (h : Nat) (pick : Slot → Bool) : Nat → List Slot → List Slot × List Event
  | _, [] => ([], [])
  | k, sl :: rest =>
    let (slots, events) := releaseSlots h pick (k + 1) rest
    if sl.occupied && pick sl then (Slot.empty :: slots, Event.bufRelease h k sl :: events)
    else (sl :: slots, events)

/-- clear(h) (R89): every occupied slot is released, then every field of the entry is 0. -/
def State.clearEntry (s : State) (h : Nat) : State :=
  (s.emitAll (releaseSlots h (fun _ => true) 0 (s.entry h).unacked).2).setEntry h (Entry.empty s.params.maxUnacked)

/-- The results of TCP_CLEAR (R58). -/
inductive ClearResult where
  | cleared
  | notValid
  deriving DecidableEq, Repr

/-- The code of a TCP_CLEAR result (R58). -/
def ClearResult.word : ClearResult → Word
  | .cleared => 0#32
  | .notValid => 1#32

/-- The body of TCP_HASH (R90). -/
def tcpHashBody (s : State) : Body :=
  .ok (s, { r0 := BitVec.ofNat 32 (hashLine s.params s.argTuple) })

/-- The body of TCP_LOOKUP (R91). -/
def tcpLookupBody (s : State) : Body :=
  .ok (s, { r0 := handleWord (s.lookup s.argTuple), r1 := BitVec.ofNat 32 (hashLine s.params s.argTuple) })

/-- The body of TCP_ALLOC (R92). -/
def tcpAllocBody (s : State) : Body :=
  let (t, h, r) := s.alloc s.argTuple
  .ok (t, { r0 := handleWord h, r1 := r.word })

/-- The body of TCP_CLEAR (R93); the handle was checked at launch (R119). -/
def tcpClearBody (s : State) : Body :=
  if (s.entry s.arg0.toNat).valid then .ok (s.clearEntry s.arg0.toNat, { r0 := s.arg0, r1 := ClearResult.cleared.word })
  else .ok (s, { r0 := s.arg0, r1 := ClearResult.notValid.word })

/-- TCP_HASH (R90). -/
def execTcpHash (s : State) : Outcome := launch .tcpHash tcpHashBody s

/-- TCP_LOOKUP (R91). -/
def execTcpLookup (s : State) : Outcome := launch .tcpLookup tcpLookupBody s

/-- TCP_ALLOC (R92). -/
def execTcpAlloc (s : State) : Outcome := launch .tcpAlloc tcpAllocBody s

/-- TCP_CLEAR (R93). -/
def execTcpClear (s : State) : Outcome := launch .tcpClear tcpClearBody s

end Sys2Proof.Machine
end

