-- ==== Sys2Proof/Machine/Retransmit.lean ====
section
/-!
DEFINITION. TCP send and the retransmit queue (44_retransmit.md): TCP_SEND (R109 to R111) and AGE_TICK (R112 to R114).
-/

namespace Sys2Proof.Machine

/-- The results of TCP_SEND (30_encoding.md R58). -/
inductive SendResult where
  | sent
  | ringFull
  | malformed
  | notValid
  deriving DecidableEq, Repr

/-- The code of a TCP_SEND result (R58). -/
def SendResult.word : SendResult → Word
  | .sent => 0#32
  | .ringFull => 1#32
  | .malformed => 2#32
  | .notValid => 3#32

/-- The answer of a TCP_SEND that does nothing: its code, and no slot (R109). -/
def sendNothing (s : State) (r : SendResult) : Body := .ok (s, { r0 := r.word, r1 := 0xFFFFFFFF#32 })

/-- The lowest free slot of a ring (R109, D36). -/
def freeSlot (slots : List Slot) : Option Nat := slots.findIdx? fun sl => !sl.occupied

/-- EV_TX or EV_RETX for a slot (R60). -/
def Event.ofSlot (kind : EventKind) (h k : Nat) (sl : Slot) (remoteIp : Word) : Event :=
  { kind := kind, slot := BitVec.ofNat 8 k, handle := BitVec.ofNat 16 h,
    w1 := sl.buf, w2 := sl.len.setWidth 32, w3 := sl.endSeq, w4 := remoteIp }

/-- The header length a segment declares, 4 x data offset (R96, R109). -/
def segmentHeaderLen (m : Memory) (b : Nat) : Nat := 4 * ((m.byte (b + 12)).extractLsb' 4 4).toNat

/-- The send itself, once slot k is found (R109 steps 1 to 4): PSH, local_seq, the slot, the checksum field,
remote_seq_sent (D38), EV_TX. -/
def State.sendSegment (s : State) (h b plen segLen k : Nat) : State × Results :=
  let e := s.entry h
  let localSeq := seqAdd e.localSeq plen
  let slot : Slot :=
    { occupied := true, buf := BitVec.ofNat 32 b, len := BitVec.ofNat 16 segLen, endSeq := localSeq, age := 0#16 }
  let pushed := s.mem.setByte (b + 13) (s.mem.byte (b + 13) ||| 0x08#8)
  let mem := sealSegment pushed s.hostIp e.remoteIp b segLen
  let e' := { e with localSeq := localSeq, unacked := e.unacked.set k slot, remoteSeqSent := mem.be32 (b + 8) }
  ((({ s with mem := mem }).setEntry h e').emit (Event.ofSlot .tx h k slot e.remoteIp),
   { r0 := SendResult.sent.word, r1 := BitVec.ofNat 32 k, r2 := localSeq,
     r3 := (mem.be16 (b + 16)).setWidth 32, r4 := BitVec.ofNat 32 segLen })

/-- The body of TCP_SEND (R109); the handle was checked at launch (R119). The ring is checked before any change (D37,
90_conflicts.md C6). -/
def tcpSendBody (s : State) : Body :=
  let h := s.arg0.toNat
  let b := s.arg1.toNat
  let plen := s.arg2.toNat
  if !(s.entry h).valid then sendNothing s .notValid
  else if !inWindow s.params b 20 then .error .memRange
  else
    let hlen := segmentHeaderLen s.mem b
    if hlen < 20 ∨ 65515 < hlen + plen then sendNothing s .malformed
    else if !inWindow s.params b (hlen + plen) then .error .memRange
    else match freeSlot (s.entry h).unacked with
      | none => sendNothing s .ringFull
      | some k => .ok (s.sendSegment h b plen (hlen + plen) k)

/-- What the aging scan has done so far (R112): the scanned part, memory, the records, and the two counts. -/
structure AgeOut (α : Type) where
  items : List α
  mem : Memory
  events : List Event
  aged : Nat
  resent : Nat
  deriving DecidableEq, Repr

/-- The slot's counter reaches TO on this tick (R112). -/
def Slot.due (timeout : Nat) (sl : Slot) : Bool := sl.occupied && decide (timeout ≤ sl.age.toNat + 1)

/-- The inner loop of age_scan (R112): the slots of the valid entry h from number k on, in ascending order, memory
threaded through so that each rewrite of a checksum is seen by the next. -/
def ageSlots (p : Params) (hostIp remoteIp : Word) (h : Nat) : Nat → List Slot → Memory → AgeOut Slot
  | _, [], m => { items := [], mem := m, events := [], aged := 0, resent := 0 }
  | k, sl :: rest, m =>
    if !sl.occupied then
      let o := ageSlots p hostIp remoteIp h (k + 1) rest m
      { o with items := sl :: o.items }
    else if sl.due p.retransmitTimeout then
      let o := ageSlots p hostIp remoteIp h (k + 1) rest
        (sealSegment m hostIp remoteIp sl.buf.toNat sl.len.toNat)
      { o with items := { sl with age := 0#16 } :: o.items,
               events := Event.ofSlot .retx h k sl remoteIp :: o.events,
               aged := o.aged + 1, resent := o.resent + 1 }
    else
      let o := ageSlots p hostIp remoteIp h (k + 1) rest m
      { o with items := { sl with age := sl.age + 1#16 } :: o.items, aged := o.aged + 1 }

/-- The outer loop of age_scan (R112): the entries from handle h on, in ascending order; an entry that is not valid is
passed over. -/
def ageEntries (p : Params) (hostIp : Word) : Nat → List Entry → Memory → AgeOut Entry
  | _, [], m => { items := [], mem := m, events := [], aged := 0, resent := 0 }
  | h, e :: rest, m =>
    if !e.valid then
      let o := ageEntries p hostIp (h + 1) rest m
      { o with items := e :: o.items }
    else
      let i := ageSlots p hostIp e.remoteIp h 0 e.unacked m
      let o := ageEntries p hostIp (h + 1) rest i.mem
      { items := { e with unacked := i.items } :: o.items, mem := o.mem, events := i.events ++ o.events,
        aged := i.aged + o.aged, resent := i.resent + o.resent }

/-- AGE_TICK's access window (R113): every byte of every slot that is due lies in buffer memory. -/
def State.dueInWindow (s : State) : Bool :=
  s.table.all fun e => !e.valid ||
    e.unacked.all fun sl => !sl.due s.params.retransmitTimeout || inWindow s.params sl.buf.toNat sl.len.toNat

/-- The body of AGE_TICK (R113): the windows of all due slots are checked before any change. -/
def ageTickBody (s : State) : Body :=
  if !s.dueInWindow then .error .memRange
  else
    let o := ageEntries s.params s.hostIp 0 s.table s.mem
    .ok (({ s with table := o.items, mem := o.mem }).emitAll o.events,
         { r0 := BitVec.ofNat 32 o.aged, r1 := BitVec.ofNat 32 o.resent })

/-- TCP_SEND (R109). -/
def execTcpSend (s : State) : Outcome := launch .tcpSend tcpSendBody s

/-- AGE_TICK (R113). -/
def execAgeTick (s : State) : Outcome := launch .ageTick ageTickBody s

end Sys2Proof.Machine
end

