-- ==== Sys2Proof/Machine/TcpRx.lean ====
section
/-!
DEFINITION. TCP receive (43_tcp_dispatch.md): the segment layout (R96), the dispatcher tcp_rx (R97 to R104), which
RX_FRAME also runs, and the command TCP_RX (R105).
-/

namespace Sys2Proof.Machine

/-- The TCP verdicts (30_encoding.md R57). -/
inductive TcpVerdict where
  | rstCleared
  | rstNoSocket
  | synAccepted
  | synPortClosed
  | synTableFull
  | synDuplicate
  | ackProcessed
  | finClosed
  | dropChecksum
  | dropMalformed
  | dropNoSocket
  | dropOutOfOrder
  | dropNoFlags
  deriving DecidableEq, Repr

/-- The code of a TCP verdict (R57). -/
def TcpVerdict.byte : TcpVerdict → Byte
  | .rstCleared => 0x00#8
  | .rstNoSocket => 0x01#8
  | .synAccepted => 0x02#8
  | .synPortClosed => 0x03#8
  | .synTableFull => 0x04#8
  | .synDuplicate => 0x05#8
  | .ackProcessed => 0x06#8
  | .finClosed => 0x07#8
  | .dropChecksum => 0x10#8
  | .dropMalformed => 0x11#8
  | .dropNoSocket => 0x12#8
  | .dropOutOfOrder => 0x13#8
  | .dropNoFlags => 0x14#8

/-- A received segment as the dispatcher sees it (R96, R97). paddr and plen are those of the payload. -/
structure Segment where
  tuple : Tuple
  seq : Word
  ack : Word
  doff : BitVec 4
  flags : Byte
  plen : Nat
  paddr : Word
  deriving DecidableEq, Repr

/-- FIN, bit 0 of the flags byte (R96). -/
def Segment.fin (g : Segment) : Bool := g.flags.getLsbD 0
/-- SYN, bit 1 (R96). -/
def Segment.syn (g : Segment) : Bool := g.flags.getLsbD 1
/-- RST, bit 2 (R96). -/
def Segment.rst (g : Segment) : Bool := g.flags.getLsbD 2
/-- ACK, bit 4 (R96). -/
def Segment.ackFlag (g : Segment) : Bool := g.flags.getLsbD 4

/-- The segment at s of slen bytes from remote address rip (R96, R97). -/
def parseSegment (m : Memory) (s : Word) (slen : Nat) (rip : Word) : Segment :=
  let a := s.toNat
  let doff := (m.byte (a + 12)).extractLsb' 4 4
  { tuple := { remoteIp := rip, localPort := m.be16 (a + 2), remotePort := m.be16 a },
    seq := m.be32 (a + 4), ack := m.be32 (a + 8), doff := doff, flags := m.byte (a + 13),
    plen := slen - 4 * doff.toNat, paddr := s + BitVec.ofNat 32 (4 * doff.toNat) }

/-- The ports word of a segment: remote port, local port (R97). -/
def Segment.ports (g : Segment) : Word := portsWord g.tuple.remotePort g.tuple.localPort

/-- What tcp_rx answers beside the changed state (R97). -/
structure TcpInfo where
  verdict : TcpVerdict
  handle : Option Nat := none
  ports : Word := 0#32
  seq : Word := 0#32
  ack : Word := 0#32
  doffFlags : Word := 0#32
  plen : Nat := 0
  paddr : Word := 0#32
  deriving DecidableEq, Repr

/-- The answer for a segment dropped after its header was read: the payload is not reported (R97). -/
def Segment.dropped (g : Segment) (v : TcpVerdict) : TcpInfo :=
  { verdict := v, ports := g.ports, seq := g.seq, ack := g.ack, doffFlags := 0#20 ++ g.doff ++ g.flags }

/-- The answer for a segment that reached the flag dispatch: the common tail R of R97. -/
def Segment.answer (g : Segment) (v : TcpVerdict) (h : Option Nat) : TcpInfo :=
  { g.dropped v with handle := h, plen := g.plen, paddr := g.paddr }

/-- A reply request to the segment's sender (R60): W1 remote IP, W2 ports, W3 seq, W4 ack. -/
def Segment.reply (g : Segment) (kind : EventKind) (handle : Half) (seq ack : Word) (w5 : Word := 0#32) : Event :=
  { kind := kind, handle := handle, w1 := g.tuple.remoteIp, w2 := g.ports, w3 := seq, w4 := ack, w5 := w5 }

/-- The RST+ACK reply: seq 0, ack just past the segment (R100, D31). -/
def Segment.rstAck (g : Segment) : Event := g.reply .replyRstAck 0xFFFF#16 0#32 (seqAdd g.seq (1 + g.plen))

/-- An upper-layer callback that carries only the entry: EV_ACCEPTED, EV_CLOSED (R60). -/
def Event.ofEntry (kind : EventKind) (h : Nat) : Event := { kind := kind, handle := BitVec.ofNat 16 h }

/-- The RST branch (R99): a matching entry is closed and cleared, else nothing. -/
def State.rxRst (s : State) (g : Segment) : State × TcpInfo :=
  match s.lookup g.tuple with
  | none => (s, g.answer .rstNoSocket none)
  | some h => ((s.emit (Event.ofEntry .closed h)).clearEntry h, g.answer .rstCleared (some h))

/-- The entry of an accepted SYN once its SYN+ACK is out (R97, R100): local_seq is past the SYN, remote_seq_sent is what
the SYN+ACK carries (D32). -/
def Entry.accepted (e : Entry) (seq isn : Word) : Entry :=
  { e with remoteInitialSeq := seq, remoteSeq := seqAdd seq 1, localInitialSeq := isn,
           localSeq := seqAdd isn 1, remoteSeqSent := seqAdd seq 1 }

/-- The MSS the SYN+ACK announces: IPV4_PAYLOAD_MTU - 20, in bits 15:0 (R60, R100). -/
def mss (p : Params) : Word := (BitVec.ofNat 16 (p.payloadMtu - 20)).setWidth 32

/-- The branch of a SYN without ACK (R100). -/
def State.rxSyn (s : State) (g : Segment) : State × TcpInfo :=
  if !s.portIsOpen g.tuple.localPort then (s.emit g.rstAck, g.answer .synPortClosed none)
  else match s.lookup g.tuple with
    | some h => (s, g.answer .synDuplicate (some h))
    | none =>
      match s.alloc g.tuple with
      | (_, none, _) => (s.emit g.rstAck, g.answer .synTableFull none)
      | (t, some h, _) =>
        let isn := t.isn
        let t := t.drawIsn
        let t := t.emit (g.reply .replySynAck (BitVec.ofNat 16 h) isn (seqAdd g.seq 1) (mss t.params))
        let t := t.setEntry h ((t.entry h).accepted g.seq isn)
        (t.emit (Event.ofEntry .accepted h), g.answer .synAccepted (some h))

/-- Step 3 of the ACK branch (R101, R102): the slots whose end_seq the ack covers are released. -/
def State.rxRelease (s : State) (h : Nat) (ack : Word) : State :=
  let e := s.entry h
  let r := releaseSlots h (fun sl => seqLe sl.endSeq ack) 0 e.unacked
  (s.emitAll r.2).setEntry h { e with unacked := r.1 }

/-- Step 4 of the ACK branch (R101): the payload is delivered and remote_seq advances past it. -/
def State.rxDeliver (s : State) (h : Nat) (g : Segment) : State :=
  if g.plen = 0 then s
  else
    let s := s.emit { kind := .rxData, handle := BitVec.ofNat 16 h, w1 := g.paddr, w2 := BitVec.ofNat 32 g.plen }
    s.setEntry h { s.entry h with remoteSeq := seqAdd (s.entry h).remoteSeq g.plen }

/-- Step 5 of the ACK branch (R101): the FIN is counted, the close is reported, FIN+ACK requested, the entry cleared. -/
def State.rxFin (s : State) (h : Nat) (g : Segment) : State :=
  let e := { s.entry h with remoteSeq := seqAdd (s.entry h).remoteSeq 1 }
  let s := s.setEntry h e
  let s := s.emit (Event.ofEntry .closed h)
  let s := s.emit (g.reply .replyFinAck (BitVec.ofNat 16 h) e.localSeq e.remoteSeq)
  s.clearEntry h

/-- The ACK that step 4 scheduled (R103): the last event of the command. -/
def State.rxSendAck (s : State) (h : Nat) (g : Segment) : State :=
  let e := s.entry h
  let s := s.emit (g.reply .replyAck (BitVec.ofNat 16 h) e.localSeq e.remoteSeq)
  s.setEntry h { e with remoteSeqSent := e.remoteSeq }

/-- The ACK branch (R101 to R103). -/
def State.rxAck (s : State) (g : Segment) : State × TcpInfo :=
  match s.lookup g.tuple with
  | none => (s, g.answer .dropNoSocket none)
  | some h =>
    if g.seq ≠ (s.entry h).remoteSeq then (s, g.answer .dropOutOfOrder (some h))
    else
      let t := (s.rxRelease h g.ack).rxDeliver h g
      if g.fin then (t.rxFin h g, g.answer .finClosed (some h))
      else if g.plen = 0 then (t, g.answer .ackProcessed (some h))
      else (t.rxSendAck h g, g.answer .ackProcessed (some h))

/-- The dispatch by flags, in the source's order: RST, SYN without ACK, ACK (R98). -/
def State.rxDispatch (s : State) (g : Segment) : State × TcpInfo :=
  if g.rst then s.rxRst g
  else if g.syn && !g.ackFlag then s.rxSyn g
  else if g.ackFlag then s.rxAck g
  else (s, g.answer .dropNoFlags none)

/-- tcp_rx(s, slen, rip, prelude) with its access window (R97). -/
def State.tcpRx (s : State) (seg : Word) (slen : Nat) (rip : Word) (prelude : Half) :
    Except CmdError (State × TcpInfo) :=
  if slen < 20 then .ok (s, { verdict := .dropMalformed })
  else if !inWindow s.params seg.toNat slen then .error .memRange
  else
    let g := parseSegment s.mem seg slen rip
    if cksum s.mem seg.toNat slen prelude ≠ 0xFFFF#16 then .ok (s, g.dropped .dropChecksum)
    else if g.doff.toNat < 5 ∨ slen < 4 * g.doff.toNat then .ok (s, g.dropped .dropMalformed)
    else .ok (s.rxDispatch g)

/-- The body of TCP_RX (R105). -/
def tcpRxBody (s : State) : Body :=
  match s.tcpRx s.arg0 s.arg1.toNat s.arg2 (argU16 s.arg3) with
  | .error e => .error e
  | .ok (t, i) =>
    .ok (t, { r0 := i.verdict.byte.setWidth 32, r1 := handleWord i.handle, r2 := i.ports, r3 := i.seq, r4 := i.ack,
              r5 := i.doffFlags, r6 := BitVec.ofNat 32 i.plen, r7 := i.paddr })

/-- TCP_RX (R105). -/
def execTcpRx (s : State) : Outcome := launch .tcpRx tcpRxBody s

end Sys2Proof.Machine
end

