-- ==== Sys2Proof/Machine/RxFrame.lean ====
section
/-!
DEFINITION. RX_FRAME (41_ipv4_rx.md R84): the Ethernet, IPv4 and TCP or ICMP stages in one command.
-/

namespace Sys2Proof.Machine

/-- The verdict byte of a stage, or 0xFF where it did not run (R56, R57). -/
def stageByte : Option Byte → Byte
  | some b => b
  | none => 0xFF#8

/-- RES0 of RX_FRAME: the three stage verdicts (R84). -/
def stagesWord (eth : EthVerdict) (ip : Option Ipv4Verdict) (tcp : Option TcpVerdict) : Word :=
  0#8 ++ stageByte (tcp.map TcpVerdict.byte) ++ stageByte (ip.map Ipv4Verdict.byte) ++ eth.byte

/-- EV_ICMP (R60, R84): payload address, payload length, source IP. -/
def Event.ofIcmp (i : Ipv4Info) : Event :=
  { kind := .icmp, w1 := i.payload, w2 := BitVec.ofNat 32 i.upperLen, w3 := i.header.src }

/-- The body of RX_FRAME (R84): each stage's window is checked when the stage starts (R131). -/
def rxFrameBody (s : State) : Body :=
  match ethCheck s s.arg0 s.arg1 with
  | .error e => .error e
  | .ok f =>
    if f.verdict ≠ .ipv4 then .ok (s, { r0 := stagesWord f.verdict none none, r1 := handleWord none })
    else
      match ipv4Check s f.payload f.payloadLen with
      | .error e => .error e
      | .ok i =>
        if i.verdict = .deliverIcmp then
          .ok (s.emit (Event.ofIcmp i),
               { r0 := stagesWord f.verdict (some i.verdict) none, r1 := handleWord none, r2 := i.header.src,
                 r3 := i.lengthClassProto, r5 := i.payload, r6 := BitVec.ofNat 32 i.upperLen })
        else if i.verdict = .deliverTcp then
          match s.tcpRx i.payload i.upperLen i.header.src i.prelude with
          | .error e => .error e
          | .ok (t, c) =>
            .ok (t, { r0 := stagesWord f.verdict (some i.verdict) (some c.verdict), r1 := handleWord c.handle,
                      r2 := i.header.src, r3 := i.lengthClassProto, r4 := c.ports, r5 := c.paddr,
                      r6 := BitVec.ofNat 32 c.plen })
        else
          .ok (s, { r0 := stagesWord f.verdict (some i.verdict) none, r1 := handleWord none, r2 := i.header.src,
                    r3 := i.lengthClassProto })

/-- RX_FRAME (R84). -/
def execRxFrame (s : State) : Outcome := launch .rxFrame rxFrameBody s

end Sys2Proof.Machine
end

