-- ==== Sys2Proof/Machine/Dispatch.lean ====
section
/-!
DEFINITION. The dispatch: one arm per command (30_encoding.md R51), each one call of that command's meaning.
-/

namespace Sys2Proof.Machine

def exec (i : Instr) (s : State) : Host.Outcome State Fault Refusal :=
  match i with
  | .nop => Sys2Proof.Machine.execNop s
  | .cksum => Sys2Proof.Machine.execCksum s
  | .pseudo => Sys2Proof.Machine.execPseudo s
  | .destClass => Sys2Proof.Machine.execDestClass s
  | .ethClassify => Sys2Proof.Machine.execEthClassify s
  | .ipv4Rx => Sys2Proof.Machine.execIpv4Rx s
  | .rxFrame => Sys2Proof.Machine.execRxFrame s
  | .tcpHash => Sys2Proof.Machine.execTcpHash s
  | .tcpLookup => Sys2Proof.Machine.execTcpLookup s
  | .tcpAlloc => Sys2Proof.Machine.execTcpAlloc s
  | .tcpClear => Sys2Proof.Machine.execTcpClear s
  | .tcpRx => Sys2Proof.Machine.execTcpRx s
  | .tcpSend => Sys2Proof.Machine.execTcpSend s
  | .ageTick => Sys2Proof.Machine.execAgeTick s

end Sys2Proof.Machine
end

