-- ==== Sys2Proof/Machine/Step.lean ====
section
/-!
DEFINITION. One step: the host's next access, and the command it launches, if it launches one (45_host_control.md R119).
A command is one atomic step (R3, R119, R156).
-/

namespace Sys2Proof.Machine

/-- One step of the block. -/
def step (s : State) : Host.Outcome State Fault Refusal :=
  match takeNext s with
  | .done o => o
  | .command i t => exec i t

/-- s with the command word w as the host's next write to CMD, which is where a step finds its next command. The bits
above nbits are 0. This stands for the host that issues the command: log entry 1. -/
def State.withFetchWord (s : State) (nbits w : Nat) : State := s.withCommandWrite (BitVec.ofNat 32 (w % 2 ^ nbits))

end Sys2Proof.Machine
end

