-- ==== Sys2Proof/Safety.lean ====
section
/-!
DEFINITION. The terms the claims use: the spec's own formulas written over numbers and lists, apart from the model's
definitions, and the invariant that every step keeps (10_state.md R39, R40, 42_socket_table.md R95, 44_retransmit.md R118).
-/

namespace Sys2Proof.Machine

/-! ### Formulas of the spec -/

/-- The one value of [1, 0xFFFF] congruent to the total modulo 0xFFFF, and 0 for the total 0 (40_checksum.md R69 item 4):
fold of 00_scope.md R13. -/
def onesSum (total : Nat) : Nat := if total = 0 then 0 else (total - 1) % 0xFFFF + 1

/-- The total of the big-endian words of a region: bytes at even offsets count 256 times, bytes at odd offsets once (R44,
R65). -/
def regionTotal (m : Memory) (addr len : Nat) : Nat :=
  ((List.range len).map fun i => (m.byte (addr + i)).toNat * (if i % 2 = 0 then 256 else 1)).sum

/-- The total of a segment's words with its checksum field, bytes 16 and 17, taken as 0 (R68, R96). -/
def unsealedTotal (m : Memory) (addr len : Nat) : Nat :=
  ((List.range len).map fun i =>
    if i = 16 ∨ i = 17 then 0 else (m.byte (addr + i)).toNat * (if i % 2 = 0 then 256 else 1)).sum

/-- The number a segment's checksum field is given (R68, R109 step 4, R112): the complement of the folded total of the
prelude of HOST_IP, the remote IP, protocol 6 and the length, and of the segment with the field 0. -/
def checksumField (m : Memory) (hostIp remoteIp : Word) (buf len : Nat) : Nat :=
  65535 - onesSum (hostIp.toNat / 65536 + hostIp.toNat % 65536 + remoteIp.toNat / 65536 + remoteIp.toNat % 65536 + 6 +
    len % 65536 + unsealedTotal m buf len)

/-- The n bytes from a on lie in buffer memory and do not pass 2^32; an empty region always does (20_memory.md R41). -/
abbrev Fits (p : Params) (a n : Nat) : Prop := n = 0 ∨ (a + n ≤ p.memSize ∧ a + n ≤ 2 ^ 32)

/-- The queue has room for n more records (10_state.md R28). -/
abbrev State.HasRoom (s : State) (n : Nat) : Prop := s.evq.length + n ≤ s.params.evqDepth

/-- The state a command leaves that ends with OK and changed nothing but CODE and RES (R22). -/
def State.answers (s : State) (r : Results) : State := { s with code := .ok, res := r }

/-- The state a command leaves that ends with an error: only STATUS has changed (R130). -/
def State.failed (s : State) (e : CmdError) : State := { s with code := .error e, err := true }

/-- The BUF_RELEASE records of the occupied slots that pick selects, in ascending slot order (R60, R89, R102). -/
def releaseRecords (h : Nat) (pick : Slot → Bool) (slots : List Slot) : List Event :=
  (slots.zipIdx.filter fun x => x.1.occupied && pick x.1).map fun x =>
    { kind := .bufRelease, slot := BitVec.ofNat 8 x.2, handle := BitVec.ofNat 16 h, w1 := x.1.buf,
      w2 := BitVec.ofNat 32 x.1.len.toNat, w3 := x.1.endSeq }

/-- The slot's counter reaches TCP_RETRANSMIT_TIMEOUT on the next tick (R112). -/
abbrev DueSlot (p : Params) (sl : Slot) : Prop := sl.occupied = true ∧ p.retransmitTimeout ≤ sl.age.toNat + 1

/-- The segments that a tick resends, by ascending handle and slot, each with its connection's remote IP (R112). -/
def dueSegments (p : Params) (table : List Entry) : List (Word × Slot) :=
  table.flatMap fun e =>
    if e.valid then (e.unacked.filter fun sl => decide (DueSlot p sl)).map fun sl => (e.remoteIp, sl) else []

/-- The RETX records of a tick, by ascending handle and slot (R60, R112). -/
def retxRecords (p : Params) (table : List Entry) : List Event :=
  table.zipIdx.flatMap fun x =>
    if x.1.valid then
      (x.1.unacked.zipIdx.filter fun y => decide (DueSlot p y.1)).map fun y =>
        { kind := .retx, slot := BitVec.ofNat 8 y.2, handle := BitVec.ofNat 16 x.2, w1 := y.1.buf,
          w2 := BitVec.ofNat 32 y.1.len.toNat, w3 := y.1.endSeq, w4 := x.1.remoteIp }
    else []

/-- A slot after a tick (R112): an occupied slot's counter is advanced, and set to 0 where it reaches the timeout. -/
def agedSlot (p : Params) (sl : Slot) : Slot :=
  if sl.occupied then
    (if p.retransmitTimeout ≤ sl.age.toNat + 1 then { sl with age := 0#16 }
     else { sl with age := BitVec.ofNat 16 (sl.age.toNat + 1) })
  else sl

/-- An entry after a tick (R112): only a valid entry's slots are visited. -/
def agedEntry (p : Params) (e : Entry) : Entry :=
  if e.valid then { e with unacked := e.unacked.map (agedSlot p) } else e

/-- The number of slots of valid entries that a predicate selects (R112: aged, resent). -/
def slotCount (table : List Entry) (pick : Slot → Bool) : Nat :=
  (table.map fun e => if e.valid then e.unacked.countP pick else 0).sum

/-- The segment's operands pass every check before the flag dispatch of tcp_rx (R97): room for the worst case, at least
20 bytes, all in buffer memory, the validation sum 0xFFFF, and a data offset inside the segment. g is the segment. -/
abbrev GoodSegment (s : State) (g : Segment) : Prop :=
  s.HasRoom (s.params.maxUnacked + 3) ∧ 20 ≤ s.arg1.toNat ∧ Fits s.params s.arg0.toNat s.arg1.toNat ∧
  onesSum (s.arg3.toNat % 65536 + regionTotal s.mem s.arg0.toNat s.arg1.toNat) = 0xFFFF ∧
  g = parseSegment s.mem s.arg0 s.arg1.toNat s.arg2 ∧ 5 ≤ g.doff.toNat ∧ 4 * g.doff.toNat ≤ s.arg1.toNat

/-- RES0..RES7 of TCP_RX for a segment that reached the flag dispatch (R105). -/
def segmentResults (g : Segment) (verdict : Nat) (handle : Word) : Results :=
  { r0 := BitVec.ofNat 32 verdict, r1 := handle,
    r2 := BitVec.ofNat 32 (g.tuple.remotePort.toNat * 65536 + g.tuple.localPort.toNat), r3 := g.seq, r4 := g.ack,
    r5 := BitVec.ofNat 32 (g.doff.toNat * 256 + g.flags.toNat), r6 := BitVec.ofNat 32 g.plen, r7 := g.paddr }

/-- A reply request to a segment's sender (R60). -/
def replyRecord (g : Segment) (kind : EventKind) (handle : Half) (seq ack mss : Word) : Event :=
  { kind := kind, handle := handle, w1 := g.tuple.remoteIp,
    w2 := BitVec.ofNat 32 (g.tuple.remotePort.toNat * 65536 + g.tuple.localPort.toNat), w3 := seq, w4 := ack, w5 := mss }

/-! ### The invariant -/

/-- The table has N entries, each with TCP_MAX_UNACKED slots (R32 to R34). -/
structure State.TableShape (s : State) : Prop where
  entries : s.table.length = s.params.handles
  slots : ∀ e ∈ s.table, e.unacked.length = s.params.maxUnacked

/-- What holds of a slot between commands (R38, R118, R109): an empty slot has every field 0; an occupied one has a
segment of 20 to 65515 bytes inside buffer memory, and an age below the timeout. -/
def SlotOk (p : Params) (sl : Slot) : Prop :=
  if sl.occupied then
    20 ≤ sl.len.toNat ∧ sl.len.toNat ≤ 65515 ∧ sl.buf.toNat + sl.len.toNat ≤ p.memSize ∧
      sl.age.toNat < p.retransmitTimeout
  else sl = Slot.empty

/-- What holds of an entry between commands (R36, R39 item 5, R40). -/
structure EntryOk (p : Params) (e : Entry) : Prop where
  slots : ∀ sl ∈ e.unacked, SlotOk p sl
  idle : e.idle = 0#16
  invalid : e.valid = false → e = Entry.empty p.maxUnacked

/-- The tuple an entry holds (R33). -/
def Entry.tuple (e : Entry) : Tuple := { remoteIp := e.remoteIp, localPort := e.localPort, remotePort := e.remotePort }

/-- No two valid entries hold the same tuple (R39 item 2, R95), and a valid entry lies on its tuple's line (R86, R88). -/
structure State.TuplesOk (s : State) : Prop where
  unique : ∀ h h', h < s.params.handles → h' < s.params.handles → (s.entry h).valid = true →
    (s.entry h').valid = true → (s.entry h).tuple = (s.entry h').tuple → h = h'
  onLine : ∀ h, h < s.params.handles → (s.entry h).valid = true →
    h % s.params.tableLines = hashLine s.params (s.entry h).tuple

/-- The invariant of the block: it holds after reset and every step keeps it. -/
structure State.Inv (s : State) : Prop where
  params : s.params.Wf
  shape : s.TableShape
  entries : ∀ e ∈ s.table, EntryOk s.params e
  tuples : s.TuplesOk
  memory : Memory.wf s.mem
  memoryRange : ∀ c ∈ s.mem, c.1 < s.params.memSize
  ports : Cells.Wf s.portOpen
  portsRange : ∀ c ∈ s.portOpen, c.1 < 2048
  queue : s.evq.length ≤ s.params.evqDepth

end Sys2Proof.Machine
end

