-- ==== Sys2Proof/Certificates/Slice0/Obligations.lean ====
section
/-!
DEFINITION. The statements for the provers: what the commands, the register window and the whole block do, rule by rule.
-/

open Sys2Proof
open Sys2Proof.Machine

/-! ### Encoding -/

/-- A command word decodes to a command exactly where it is that command's encoding (R50, R51, R52): no bit of the word is
dropped, and no other word runs. -/
def Obligations.DecodeEncodeAgree : Prop :=
  ∀ (w : Word) (i : Instr), decode w = .ok i ↔ w = encode i

/-- The command words of R51, written out, decode to their commands; words that R52 makes illegal do not decode. -/
def Obligations.OpcodeMapDecodes : Prop :=
  decode 0x00000000#32 = .ok .nop ∧ decode 0x00000001#32 = .ok .cksum ∧ decode 0x00000002#32 = .ok .pseudo ∧
  decode 0x00000003#32 = .ok .destClass ∧ decode 0x00000008#32 = .ok .ethClassify ∧
  decode 0x00000009#32 = .ok .ipv4Rx ∧ decode 0x0000000A#32 = .ok .rxFrame ∧ decode 0x00000010#32 = .ok .tcpHash ∧
  decode 0x00000011#32 = .ok .tcpLookup ∧ decode 0x00000012#32 = .ok .tcpAlloc ∧
  decode 0x00000013#32 = .ok .tcpClear ∧ decode 0x00000018#32 = .ok .tcpRx ∧ decode 0x00000020#32 = .ok .tcpSend ∧
  decode 0x00000021#32 = .ok .ageTick ∧ decode 0x00000022#32 = .error .unlistedOpcode ∧
  decode 0x00000004#32 = .error .unlistedOpcode ∧ decode 0x00000100#32 = .error .reservedBits

/-- R52: a command word whose bits 31:8 are not all 0, or whose opcode R51 does not list, ends with ERR_ILLEGAL_CMD, and
the command changes nothing but STATUS. That the host's write itself is kept in CMD although the command ends with an
error is the model's reading of R123: log entry 12. -/
def Obligations.IllegalWordOnlySetsStatus : Prop :=
  ∀ (s : State) (v : Word) (rest : List HostAccess), s.inputs = .write 32 0x008#32 v :: rest →
    (v.toNat / 256 ≠ 0 ∨ v.toNat % 256 ∉ [0x00, 0x01, 0x02, 0x03, 0x08, 0x09, 0x0A, 0x10, 0x11, 0x12, 0x13, 0x18, 0x20, 0x21]) →
    step s = .next { s with inputs := rest, cmd := v, code := .error .illegalCmd, err := true }

/-- A write of a legal command word to CMD runs its command (R119): the step takes the access, keeps the word in CMD
(R123), and is exec of the decoded command. -/
def Obligations.StepRunsDecodedCommand : Prop :=
  ∀ (s : State) (v : Word) (rest : List HostAccess) (i : Instr), s.inputs = .write 32 0x008#32 v :: rest →
    decode v = .ok i → step s = exec i { s with inputs := rest, cmd := v }

/-! ### Launch, errors, and what every command leaves alone -/

/-- The launch checks and their order (R119, R131 for the first three errors; config column of R51, worst cases of R61).
Each error changes only STATUS. -/
def Obligations.LaunchChecksInOrder : Prop :=
  ∀ (i : Instr) (s : State),
    let config := i ∈ [Instr.destClass, .ipv4Rx, .rxFrame, .tcpSend, .ageTick]
    let handle := i ∈ [Instr.tcpClear, .tcpSend]
    let worst :=
      if i = .tcpClear then s.params.maxUnacked
      else if i = .tcpRx ∨ i = .rxFrame then s.params.maxUnacked + 3
      else if i = .tcpSend then 1
      else if i = .ageTick then s.params.tableWays * s.params.tableLines * s.params.maxUnacked
      else 0
    if config ∧ s.cfgLock = false then exec i s = .next (s.failed .notConfigured)
    else if handle ∧ s.params.tableWays * s.params.tableLines ≤ s.arg0.toNat then exec i s = .next (s.failed .badHandle)
    else if s.params.evqDepth - s.evq.length < worst then exec i s = .next (s.failed .evqFull)
    else ∃ t, exec i s = .next t ∧ (t.code = .ok ∨ t = s.failed .memRange)

/-- R130: a command answers a next state; where its code is an error, CODE and ERR were written and nothing else changed.
A command that ends with OK does not touch ERR, so only an error sets it and no command clears it (R22, R122). The error
of a word that is no command has the same effect; that the host's write is kept in CMD there is the model's reading of
R123: log entry 12. -/
def Obligations.ErrorsChangeOnlyStatus : Prop :=
  (∀ (i : Instr) (s : State), ∃ t, exec i s = .next t ∧
    ((t.code = .ok ∧ t.err = s.err) ∨ ∃ e, t = { s with code := .error e, err := true })) ∧
  (∀ (s : State) (v : Word) (rest : List HostAccess), s.inputs = .write 32 0x008#32 v :: rest →
    (∀ i, decode v ≠ .ok i) →
    step s = .next { s with inputs := rest, cmd := v, code := .error .illegalCmd, err := true })

/-- The registers no command writes, whatever it does (R21, R24, R25, R26, R30, R123): the parameters, CFG_LOCK, CMD,
EVQ_POP, ARG0..ARG3, HOST_IP, BCAST_IP, GATEWAY_IP, PORT_OPEN, and the host's side of the interface. -/
def Obligations.CommandsLeaveHostRegisters : Prop :=
  ∀ (i : Instr) (s t : State), exec i s = .next t →
    t.params = s.params ∧ t.cfgLock = s.cfgLock ∧ t.cmd = s.cmd ∧ t.evqPop = s.evqPop ∧ t.arg0 = s.arg0 ∧
    t.arg1 = s.arg1 ∧ t.arg2 = s.arg2 ∧ t.arg3 = s.arg3 ∧ t.hostIp = s.hostIp ∧ t.bcastIp = s.bcastIp ∧
    t.gatewayIp = s.gatewayIp ∧ t.portOpen = s.portOpen ∧ t.inputs = s.inputs ∧ t.readData = s.readData

/-- The frame of the commands that only compute a result (R22): NOP, CKSUM, PSEUDO, DEST_CLASS, ETH_CLASSIFY, IPV4_RX,
TCP_HASH and TCP_LOOKUP change STATUS and RES, and nothing else: no byte of memory, no entry, no event. -/
def Obligations.PureCommandsFrame : Prop :=
  ∀ (i : Instr) (s t : State),
    i ∈ [Instr.nop, .cksum, .pseudo, .destClass, .ethClassify, .ipv4Rx, .tcpHash, .tcpLookup] →
    exec i s = .next t → t = { s with code := t.code, err := t.err, res := t.res }

/-- The frame of TCP_ALLOC, TCP_CLEAR, TCP_RX and RX_FRAME: no byte of memory changes, and no entry of the table but the
one whose handle the command reports (RES0 of TCP_ALLOC and TCP_CLEAR, RES1 of TCP_RX and RX_FRAME). TCP_ALLOC emits
nothing, and TCP_ALLOC and TCP_CLEAR take nothing from the ISN input (R46, R88, R89, R97, R99 to R103). -/
def Obligations.TableCommandsFrame : Prop :=
  ∀ (i : Instr) (s t : State), i ∈ [Instr.tcpAlloc, .tcpClear, .tcpRx, .rxFrame] → exec i s = .next t →
    t.mem = s.mem ∧ t.table.length = s.table.length ∧
    (∀ h, (if i = .tcpAlloc ∨ i = .tcpClear then t.res.r0 else t.res.r1) ≠ BitVec.ofNat 32 h →
      t.entry h = s.entry h) ∧
    (i = .tcpAlloc → t.evq = s.evq) ∧
    (i = .tcpAlloc ∨ i = .tcpClear → t.isnFeed = s.isnFeed ∧ t.isnDrawn = s.isnDrawn)

/-- The frame of TCP_SEND (R46, R109): bytes other than 13, 16 and 17 of the segment at ARG1 read as before; no entry but
that of ARG0 changes, and of it only local_seq, remote_seq_sent and the slots; the ISN input is not read. -/
def Obligations.TcpSendFrame : Prop :=
  ∀ (s t : State), exec .tcpSend s = .next t →
    (∀ a, a ≠ s.arg1.toNat + 13 → a ≠ s.arg1.toNat + 16 → a ≠ s.arg1.toNat + 17 → t.mem.byte a = s.mem.byte a) ∧
    (∀ h, h ≠ s.arg0.toNat → t.entry h = s.entry h) ∧
    t.entry s.arg0.toNat =
      { s.entry s.arg0.toNat with
        localSeq := (t.entry s.arg0.toNat).localSeq, remoteSeqSent := (t.entry s.arg0.toNat).remoteSeqSent,
        unacked := (t.entry s.arg0.toNat).unacked } ∧
    t.isnFeed = s.isnFeed ∧ t.isnDrawn = s.isnDrawn

/-- The frame of AGE_TICK (R40, R46, R112): a byte that is not in the checksum field of a due segment reads as before; of
the table only the ages of occupied slots of valid entries change; the ISN input is not read. -/
def Obligations.AgeTickFrame : Prop :=
  ∀ (s t : State), exec .ageTick s = .next t →
    (∀ a, (∀ e ∈ s.table, e.valid = true → ∀ sl ∈ e.unacked, DueSlot s.params sl →
        a ≠ sl.buf.toNat + 16 ∧ a ≠ sl.buf.toNat + 17) → t.mem.byte a = s.mem.byte a) ∧
    (∀ h, t.entry h = { s.entry h with unacked := (t.entry h).unacked }) ∧
    (∀ h, (s.entry h).valid = false → t.entry h = s.entry h) ∧
    (∀ h, (t.entry h).unacked.map (fun sl => { sl with age := 0#16 }) =
      (s.entry h).unacked.map (fun sl => { sl with age := 0#16 })) ∧
    (∀ h (k : Nat) (sl : Slot), (s.entry h).unacked[k]? = some sl → sl.occupied = false →
      (t.entry h).unacked[k]? = some sl) ∧
    t.isnFeed = s.isnFeed ∧ t.isnDrawn = s.isnDrawn

/-- R27, R61: a command only appends records to the queue, and at most its opcode's worst case. -/
def Obligations.EventsWithinWorstCase : Prop :=
  ∀ (i : Instr) (s t : State), s.TableShape → exec i s = .next t →
    ∃ es : List Event, t.evq = s.evq ++ es ∧
      es.length ≤
        (if i = .tcpClear then s.params.maxUnacked
         else if i = .tcpRx ∨ i = .rxFrame then s.params.maxUnacked + 3
         else if i = .tcpSend then 1
         else if i = .ageTick then s.params.tableWays * s.params.tableLines * s.params.maxUnacked
         else 0)

/-- R31: one value is taken from the ISN input for each accepted SYN, and none otherwise. A SYN was accepted where the
command ended with OK and the TCP verdict is 2: RES0 of TCP_RX, bits 23:16 of RES0 of RX_FRAME. -/
def Obligations.OneIsnPerAcceptedSyn : Prop :=
  ∀ (i : Instr) (s t : State), exec i s = .next t →
    if t.code = .ok ∧ ((i = .tcpRx ∧ t.res.r0 = 2#32) ∨ (i = .rxFrame ∧ t.res.r0.toNat / 65536 = 2)) then
      t.isnFeed = s.isnFeed.tail ∧ t.isnDrawn = s.isnDrawn + 1
    else t.isnFeed = s.isnFeed ∧ t.isnDrawn = s.isnDrawn

/-! ### NOP and the checksum kernel -/

/-- R120: NOP writes 0 to RES0..RES7 and OK to CODE; STATUS.ERR and everything else stay. -/
def Obligations.NopWritesZeroResults : Prop :=
  ∀ s : State, exec .nop s = .next { s with code := .ok, res := {} }

/-- CKSUM (R65, R69 item 4): RES0 is the folded total of the initial value and the region's big-endian words, an odd last
byte in the high half; outside buffer memory the command ends with ERR_MEM_RANGE (R41). -/
def Obligations.CksumIsFoldedTotal : Prop :=
  ∀ s : State, exec .cksum s = .next
    (if Fits s.params s.arg0.toNat s.arg1.toNat then
       s.answers { r0 := BitVec.ofNat 32 (onesSum (s.arg2.toNat % 65536 + regionTotal s.mem s.arg0.toNat s.arg1.toNat)) }
     else s.failed .memRange)

/-- PSEUDO (R66): RES0 is the folded total of the six 16-bit words of the pseudo-header. -/
def Obligations.PseudoIsFoldedTotal : Prop :=
  ∀ s : State, exec .pseudo s = .next (s.answers
    { r0 := BitVec.ofNat 32 (onesSum (s.arg0.toNat / 65536 + s.arg0.toNat % 65536 + s.arg1.toNat / 65536 +
        s.arg1.toNat % 65536 + s.arg2.toNat % 256 + s.arg3.toNat % 65536)) })

/-- R69: the laws of oc_add (items 1 to 3), folding once at the end (item 4), the order of the words (item 5), and the
prelude as the checksum of the 12-byte image of the pseudo-header, wherever it stands in memory (item 6). -/
def Obligations.OnesComplementLaws : Prop :=
  (∀ s w : Half, ocAdd s w = ocAdd w s) ∧ (∀ a b c : Half, ocAdd (ocAdd a b) c = ocAdd a (ocAdd b c)) ∧
  (∀ s : Half, ocAdd s 0#16 = s) ∧ (∀ s w : Half, ocAdd s w = 0#16 ↔ s = 0#16 ∧ w = 0#16) ∧
  (∀ s : Half, s ≠ 0#16 → ocAdd s 0xFFFF#16 = s) ∧ ocAdd 0#16 0xFFFF#16 = 0xFFFF#16 ∧
  (∀ (m : Memory) (a n : Nat) (init : Half), (cksum m a n init).toNat = onesSum (init.toNat + regionTotal m a n)) ∧
  (∀ (ws ws' : List (Byte × Byte)) (init : Half), ws.Perm ws' →
    cksumBytes (ws.flatMap fun w => [w.1, w.2]) init = cksumBytes (ws'.flatMap fun w => [w.1, w.2]) init) ∧
  (∀ (m : Memory) (a : Nat) (src dst : Word) (proto : Byte) (len : Half),
    m.be32 a = src → m.be32 (a + 4) = dst → m.byte (a + 8) = 0#8 → m.byte (a + 9) = proto → m.be16 (a + 10) = len →
    cksum m a 12 0#16 = pseudoSum src dst proto len)

/-- R70, R71: the concatenation law for a first region of even length, and that it fails for one of odd length; an
odd-length region sums as the same bytes followed by one zero byte. -/
def Obligations.ChecksumConcatenationAndPadding : Prop :=
  (∀ (a b : List Byte) (init : Half), a.length % 2 = 0 →
    cksumBytes (a ++ b) init = cksumBytes b (cksumBytes a init) ∧
    (cksumBytes (a ++ b) 0#16).toNat = onesSum ((cksumBytes a 0#16).toNat + (cksumBytes b 0#16).toNat)) ∧
  (∃ a b : List Byte, a.length % 2 = 1 ∧ cksumBytes (a ++ b) 0#16 ≠ cksumBytes b (cksumBytes a 0#16) ∧
    (cksumBytes (a ++ b) 0#16).toNat ≠ onesSum ((cksumBytes a 0#16).toNat + (cksumBytes b 0#16).toNat)) ∧
  (∀ (bs : List Byte) (init : Half), bs.length % 2 = 1 → cksumBytes (bs ++ [0#8]) init = cksumBytes bs init)

/-- R72: where the validation sum is 0xFFFF, changing any single byte changes it; changes of two bytes can cancel. -/
def Obligations.SingleByteChangeDetected : Prop :=
  (∀ (bs : List Byte) (init : Half) (k : Nat) (b b' : Byte), bs[k]? = some b → b' ≠ b →
    cksumBytes bs init = 0xFFFF#16 → cksumBytes (bs.set k b') init ≠ 0xFFFF#16) ∧
  (∃ (bs : List Byte) (j k : Nat) (b b' : Byte), j < k ∧ k < bs.length ∧ bs[j]? ≠ some b ∧ bs[k]? ≠ some b' ∧
    cksumBytes bs 0#16 = 0xFFFF#16 ∧ cksumBytes ((bs.set j b).set k b') 0#16 = 0xFFFF#16)

/-! ### Ethernet and IPv4 -/

/-- DEST_CLASS (R76, R77): the first class that matches, where the configuration is locked. -/
def Obligations.DestClassFirstMatch : Prop :=
  ∀ s : State, exec .destClass s = .next
    (if s.cfgLock = false then s.failed .notConfigured
     else if s.arg0 = s.hostIp then s.answers { r0 := 0#32 }
     else if s.arg0 = s.bcastIp ∨ s.arg0.toNat = 0xFFFFFFFF then s.answers { r0 := 1#32 }
     else if s.arg0.toNat / 2 ^ 28 = 14 then s.answers { r0 := 2#32 }
     else s.answers { r0 := 3#32 })

/-- ETH_CLASSIFY (R78, R79): a runt reads nothing; otherwise the EtherType decides, and the payload begins 14 bytes into
the frame, modulo 2^32. -/
def Obligations.EthClassifyByEtherType : Prop :=
  ∀ s : State,
    let f := s.arg0.toNat
    let et := (s.mem.byte (f + 12)).toNat * 256 + (s.mem.byte (f + 13)).toNat
    exec .ethClassify s = .next
      (if s.arg1.toNat < 14 then s.answers { r0 := 2#32 }
       else if Fits s.params f 14 then
         s.answers { r0 := if et = 0x0800 then 0#32 else 1#32, r1 := BitVec.ofNat 32 et,
                     r2 := BitVec.ofNat 32 (f + 14), r3 := BitVec.ofNat 32 (s.arg1.toNat - 14) }
       else s.failed .memRange)

/-- IPV4_RX (R80, R81, R82): the configuration and the windows, every field of the header in its result register, and
the verdict of the first failing step. -/
def Obligations.Ipv4RxFieldsAndVerdict : Prop :=
  ∀ s : State,
    let p := s.arg0.toNat
    let b := fun k => (s.mem.byte (p + k)).toNat
    let hlen := 4 * (b 0 % 16)
    let tlen := b 2 * 256 + b 3
    let ff := b 6 * 256 + b 7
    let src := ((b 12 * 256 + b 13) * 256 + b 14) * 256 + b 15
    let dst := ((b 16 * 256 + b 17) * 256 + b 18) * 256 + b 19
    let cls := if dst = s.hostIp.toNat then 0 else if dst = s.bcastIp.toNat ∨ dst = 0xFFFFFFFF then 1
      else if dst / 2 ^ 28 = 14 then 2 else 3
    let verdict :=
      if onesSum (regionTotal s.mem p hlen) ≠ 0xFFFF then 0x10
      else if b 0 ≠ 0x45 then 0x11
      else if tlen < 20 ∨ s.arg1.toNat < tlen then 0x12
      else if ff / 0x8000 = 1 ∨ ff / 0x2000 % 2 = 1 ∨ ff % 0x2000 ≠ 0 then 0x13
      else if cls = 3 then 0x14
      else if b 9 = 1 then (if cls = 2 then 0x15 else 0x00)
      else if b 9 = 6 then (if cls = 0 then 0x01 else 0x16)
      else if b 9 = 17 then 0x02
      else 0x17
    let prelude := if verdict = 0x01 then
        onesSum (src / 65536 + src % 65536 + dst / 65536 + dst % 65536 + 6 + (tlen - 20)) else 0
    exec .ipv4Rx s = .next
      (if s.cfgLock = false then s.failed .notConfigured
       else if Fits s.params p 1 ∧ Fits s.params p (max 20 hlen) then
         s.answers
           { r0 := BitVec.ofNat 32 verdict, r1 := BitVec.ofNat 32 src, r2 := BitVec.ofNat 32 dst,
             r3 := BitVec.ofNat 32 (tlen * 65536 + cls * 256 + b 9),
             r4 := BitVec.ofNat 32 (ff * 65536 + prelude),
             r5 := BitVec.ofNat 32 (p + 20),
             r6 := BitVec.ofNat 32 ((b 4 * 256 + b 5) * 65536 + (tlen - 20)),
             r7 := BitVec.ofNat 32 (b 8 * 65536 + b 1 * 256 + b 0) }
       else s.failed .memRange)

/-- R83: what every packet that IPV4_RX does not drop satisfies: version+IHL, length, fragment fields and destination. -/
def Obligations.Ipv4FilterProperties : Prop :=
  ∀ s t : State, exec .ipv4Rx s = .next t → t.code = .ok →
    let p := s.arg0.toNat
    let ff := (s.mem.be16 (p + 6)).toNat
    let dst := s.mem.be32 (p + 16)
    t.res.r0.toNat ∈ [0x00, 0x01, 0x02] →
      s.mem.byte p = 0x45#8 ∧ (s.mem.be16 (p + 2)).toNat ≤ s.arg1.toNat ∧ ff % 0x2000 = 0 ∧ ff / 0x2000 % 2 = 0 ∧
      (dst = s.hostIp ∨ dst = s.bcastIp ∨ dst = 0xFFFFFFFF#32 ∨ dst.toNat / 2 ^ 28 = 14)

/-- RX_FRAME on a frame that is not IPv4 (R84): only the Ethernet stage runs. -/
def Obligations.RxFrameStopsAtEthernet : Prop :=
  ∀ s : State, s.cfgLock = true → s.HasRoom (s.params.maxUnacked + 3) →
    (s.arg1.toNat < 14 →
      exec .rxFrame s = .next (s.answers { r0 := 0x00FFFF02#32, r1 := 0xFFFFFFFF#32 })) ∧
    (14 ≤ s.arg1.toNat → Fits s.params s.arg0.toNat 14 → s.mem.be16 (s.arg0.toNat + 12) ≠ 0x0800#16 →
      exec .rxFrame s = .next (s.answers { r0 := 0x00FFFF01#32, r1 := 0xFFFFFFFF#32 })) ∧
    (14 ≤ s.arg1.toNat → ¬ Fits s.params s.arg0.toNat 14 → exec .rxFrame s = .next (s.failed .memRange))

/-- RX_FRAME against its stages (R84): on an IPv4 frame it runs what IPV4_RX runs on the packet 14 bytes into the frame.
An error of that stage is its error. An ICMP packet to deliver emits EV_ICMP; a TCP packet to deliver runs what TCP_RX
runs on the segment with the prelude; any other verdict ends the command without an event. -/
def Obligations.RxFrameRunsItsStages : Prop :=
  ∀ s : State, s.cfgLock = true → s.HasRoom (s.params.maxUnacked + 3) → 14 ≤ s.arg1.toNat →
    Fits s.params s.arg0.toNat 14 → s.mem.be16 (s.arg0.toNat + 12) = 0x0800#16 →
    ∃ ip, exec .ipv4Rx { s with arg0 := s.arg0 + 14#32, arg1 := s.arg1 - 14#32 } = .next ip ∧
    let upper := ip.res.r6.toNat % 65536
    if ip.code ≠ .ok then exec .rxFrame s = .next (s.failed .memRange)
    else if ip.res.r0 = 0x00#32 then
      exec .rxFrame s = .next
        { s with
          code := .ok
          evq := s.evq ++ [{ kind := .icmp, w1 := ip.res.r5, w2 := BitVec.ofNat 32 upper, w3 := ip.res.r1 }]
          res := { r0 := 0x00FF0000#32, r1 := 0xFFFFFFFF#32, r2 := ip.res.r1, r3 := ip.res.r3, r5 := ip.res.r5,
                   r6 := BitVec.ofNat 32 upper } }
    else if ip.res.r0 = 0x01#32 then
      ∃ tcp, exec .tcpRx { s with arg0 := ip.res.r5, arg1 := BitVec.ofNat 32 upper, arg2 := ip.res.r1,
                                  arg3 := ip.res.r4 } = .next tcp ∧
        if tcp.code ≠ .ok then exec .rxFrame s = .next (s.failed .memRange)
        else
          exec .rxFrame s = .next
            { s with
              code := .ok
              evq := tcp.evq
              table := tcp.table
              isnFeed := tcp.isnFeed
              isnDrawn := tcp.isnDrawn
              res := { r0 := BitVec.ofNat 32 (tcp.res.r0.toNat * 65536 + 0x0100), r1 := tcp.res.r1, r2 := ip.res.r1,
                       r3 := ip.res.r3, r4 := tcp.res.r2, r5 := tcp.res.r7, r6 := tcp.res.r6 } }
    else
      exec .rxFrame s = .next (s.answers
        { r0 := BitVec.ofNat 32 (0x00FF0000 + ip.res.r0.toNat * 256), r1 := 0xFFFFFFFF#32, r2 := ip.res.r1,
          r3 := ip.res.r3 })

/-! ### Socket table -/

/-- TCP_HASH (R86, R90): under the default hash RES0 is the XOR of the four 16-bit quantities, the remote port rotated by
8, modulo TCP_TABLE_LINES; under any hash it is below TCP_TABLE_LINES. -/
def Obligations.TcpHashYieldsLine : Prop :=
  ∀ s : State, 1 ≤ s.params.tableLines → s.params.tableLines ≤ 65535 →
    let rp := s.arg2.toNat % 65536
    let mix := (s.arg0.toNat / 65536) ^^^ (s.arg0.toNat % 65536) ^^^ (s.arg1.toNat % 65536) ^^^
      (rp % 256 * 256 + rp / 256)
    ∃ line : Nat, line < s.params.tableLines ∧ (s.params.hash = .default → line = mix % s.params.tableLines) ∧
      exec .tcpHash s = .next (s.answers { r0 := BitVec.ofNat 32 line })

/-- TCP_LOOKUP (R87, R91): on a table that keeps its invariant RES0 names the one valid entry that holds the tuple, or is
0xFFFFFFFF where there is none; RES1 is the line. -/
def Obligations.TcpLookupFindsTheEntry : Prop :=
  ∀ s : State, s.params.Wf → s.TableShape → s.TuplesOk →
    let holds := fun (h : Nat) => (s.entry h).valid = true ∧ (s.entry h).remoteIp = s.arg0 ∧
      (s.entry h).localPort.toNat = s.arg1.toNat % 65536 ∧ (s.entry h).remotePort.toNat = s.arg2.toNat % 65536
    ∃ r : Word,
      exec .tcpLookup s = .next (s.answers { r0 := r, r1 := BitVec.ofNat 32 (hashLine s.params s.argTuple) }) ∧
      (∀ h, h < s.params.handles → holds h → r = BitVec.ofNat 32 h) ∧
      ((∀ h, h < s.params.handles → ¬ holds h) → r = 0xFFFFFFFF#32)

/-- TCP_ALLOC (R88, R92): a duplicate and a full line change nothing; otherwise the first way of the tuple's line whose
entry is not valid takes the tuple, with every other field 0 and every slot empty. -/
def Obligations.TcpAllocTakesFirstFreeWay : Prop :=
  ∀ s : State, s.params.Wf → s.TableShape →
    let line := hashLine s.params s.argTuple
    let at_ := fun (w : Nat) => s.entry (w * s.params.tableLines + line)
    let holds := fun (w : Nat) => (at_ w).valid = true ∧ (at_ w).tuple = s.argTuple
    ((∃ w, w < s.params.tableWays ∧ holds w) →
      exec .tcpAlloc s = .next (s.answers { r0 := 0xFFFFFFFF#32, r1 := 2#32 })) ∧
    ((∀ w, w < s.params.tableWays → (at_ w).valid = true ∧ ¬ holds w) →
      exec .tcpAlloc s = .next (s.answers { r0 := 0xFFFFFFFF#32, r1 := 1#32 })) ∧
    (∀ w, w < s.params.tableWays → (at_ w).valid = false → (∀ v, v < w → (at_ v).valid = true) →
      (∀ v, v < s.params.tableWays → ¬ holds v) →
      exec .tcpAlloc s = .next
        { s.answers { r0 := BitVec.ofNat 32 (w * s.params.tableLines + line) } with
          table := s.table.set (w * s.params.tableLines + line)
            { Entry.empty s.params.maxUnacked with
              valid := true, remoteIp := s.arg0, localPort := BitVec.ofNat 16 s.arg1.toNat,
              remotePort := BitVec.ofNat 16 s.arg2.toNat } })

/-- TCP_CLEAR (R89, R93): a valid entry releases its occupied slots in ascending order and becomes all 0; an entry that is
not valid changes nothing. -/
def Obligations.TcpClearReleasesAndZeroes : Prop :=
  ∀ s : State, s.arg0.toNat < s.params.tableWays * s.params.tableLines → s.HasRoom s.params.maxUnacked →
    let h := s.arg0.toNat
    exec .tcpClear s = .next
      (if (s.entry h).valid = true then
         { s.answers { r0 := s.arg0, r1 := 0#32 } with
           evq := s.evq ++ releaseRecords h (fun _ => true) (s.entry h).unacked
           table := s.table.set h (Entry.empty s.params.maxUnacked) }
       else s.answers { r0 := s.arg0, r1 := 1#32 })

/-! ### TCP receive -/

/-- R96: the fields of a segment, read big-endian at their offsets, and the payload's length and address (R97). -/
def Obligations.SegmentLayout : Prop :=
  ∀ (m : Memory) (s rip : Word) (slen : Nat),
    let b := fun k => (m.byte (s.toNat + k)).toNat
    let g := parseSegment m s slen rip
    g.tuple.remoteIp = rip ∧ g.tuple.remotePort.toNat = b 0 * 256 + b 1 ∧ g.tuple.localPort.toNat = b 2 * 256 + b 3 ∧
    g.seq.toNat = ((b 4 * 256 + b 5) * 256 + b 6) * 256 + b 7 ∧
    g.ack.toNat = ((b 8 * 256 + b 9) * 256 + b 10) * 256 + b 11 ∧
    g.doff.toNat = b 12 / 16 ∧ g.flags.toNat = b 13 ∧
    (g.fin = true ↔ b 13 % 2 = 1) ∧ (g.syn = true ↔ b 13 / 2 % 2 = 1) ∧ (g.rst = true ↔ b 13 / 4 % 2 = 1) ∧
    (g.ackFlag = true ↔ b 13 / 16 % 2 = 1) ∧
    g.plen = slen - 4 * (b 12 / 16) ∧ g.paddr.toNat = (s.toNat + 4 * (b 12 / 16)) % 2 ^ 32

/-- TCP_RX before the flag dispatch (R97, R105): a short segment is dropped without reading, one outside buffer memory is
an error, one with a wrong sum or a bad data offset is dropped with its header reported. -/
def Obligations.TcpRxChecksBeforeDispatch : Prop :=
  ∀ s : State, s.HasRoom (s.params.maxUnacked + 3) →
    let g := parseSegment s.mem s.arg0 s.arg1.toNat s.arg2
    let headerOnly := fun (v : Nat) =>
      s.answers { segmentResults g v 0xFFFFFFFF#32 with r6 := 0#32, r7 := 0#32 }
    let sum := onesSum (s.arg3.toNat % 65536 + regionTotal s.mem s.arg0.toNat s.arg1.toNat)
    (s.arg1.toNat < 20 → exec .tcpRx s = .next (s.answers { r0 := 0x11#32, r1 := 0xFFFFFFFF#32 })) ∧
    (20 ≤ s.arg1.toNat → ¬ Fits s.params s.arg0.toNat s.arg1.toNat → exec .tcpRx s = .next (s.failed .memRange)) ∧
    (20 ≤ s.arg1.toNat → Fits s.params s.arg0.toNat s.arg1.toNat → sum ≠ 0xFFFF →
      exec .tcpRx s = .next (headerOnly 0x10)) ∧
    (20 ≤ s.arg1.toNat → Fits s.params s.arg0.toNat s.arg1.toNat → sum = 0xFFFF →
      (g.doff.toNat < 5 ∨ s.arg1.toNat < 4 * g.doff.toNat) → exec .tcpRx s = .next (headerOnly 0x11))

/-- R98, R101: the segments a good header leads nowhere with. No flag of the three, an ACK without a matching socket, and
an ACK whose seq is not the expected one change nothing but CODE and RES: no event, no entry. -/
def Obligations.TcpRxSilentDrops : Prop :=
  ∀ (s : State) (g : Segment), GoodSegment s g →
    let silent := fun (v : Nat) (h : Word) => exec .tcpRx s = .next (s.answers (segmentResults g v h))
    (g.rst = false → g.syn = false → g.ackFlag = false → silent 0x14 0xFFFFFFFF#32) ∧
    (g.rst = false → g.ackFlag = true → s.lookup g.tuple = none → silent 0x12 0xFFFFFFFF#32) ∧
    (∀ h, g.rst = false → g.ackFlag = true → s.lookup g.tuple = some h → g.seq ≠ (s.entry h).remoteSeq →
      silent 0x13 (BitVec.ofNat 32 h))

/-- R99: an RST on an existing connection emits EV_CLOSED, releases the occupied slots and zeroes the entry, whatever the
other flags and the sequence number; an RST without a matching entry changes nothing but CODE and RES. -/
def Obligations.TcpRxRstClearsTheEntry : Prop :=
  ∀ (s : State) (g : Segment), GoodSegment s g → g.rst = true →
    (∀ h, s.lookup g.tuple = some h →
      exec .tcpRx s = .next
        { s.answers (segmentResults g 0x00 (BitVec.ofNat 32 h)) with
          evq := s.evq ++ { kind := .closed, handle := BitVec.ofNat 16 h } ::
            releaseRecords h (fun _ => true) (s.entry h).unacked
          table := s.table.set h (Entry.empty s.params.maxUnacked) }) ∧
    (s.lookup g.tuple = none → exec .tcpRx s = .next (s.answers (segmentResults g 0x01 0xFFFFFFFF#32)))

/-- R100, the refused SYNs: a closed port and a full line are answered with RST+ACK (seq 0, ack just past the segment); a
SYN for a tuple that has a valid entry is dropped without a reply. Nothing else changes, and no ISN is drawn. -/
def Obligations.TcpRxSynRefused : Prop :=
  ∀ (s : State) (g : Segment), GoodSegment s g → g.rst = false → g.syn = true → g.ackFlag = false →
    let refused := fun (v : Nat) => exec .tcpRx s = .next
      { s.answers (segmentResults g v 0xFFFFFFFF#32) with
        evq := s.evq ++ [replyRecord g .replyRstAck 0xFFFF#16 0#32
          (BitVec.ofNat 32 (g.seq.toNat + 1 + g.plen)) 0#32] }
    (s.portIsOpen g.tuple.localPort = false → refused 0x03) ∧
    (s.portIsOpen g.tuple.localPort = true → s.lookup g.tuple = none →
      s.freeHandle (hashLine s.params g.tuple) = none → refused 0x04) ∧
    (∀ h, s.portIsOpen g.tuple.localPort = true → s.lookup g.tuple = some h →
      exec .tcpRx s = .next (s.answers (segmentResults g 0x05 (BitVec.ofNat 32 h))))

/-- R100, the accepted SYN: the first free way of the line takes the tuple; the sequence fields, the SYN+ACK with the ISN
and the MSS, EV_ACCEPTED after it, and one draw from the ISN input (R31). The ISN is the value the environment has placed at
the input, which leaves the feed, or else the free value of this draw (log entry 5): the statement holds for every value
of either. -/
def Obligations.TcpRxSynAccepted : Prop :=
  ∀ (s : State) (g : Segment) (h : Nat), GoodSegment s g → g.rst = false → g.syn = true → g.ackFlag = false →
    s.portIsOpen g.tuple.localPort = true → s.lookup g.tuple = none →
    s.freeHandle (hashLine s.params g.tuple) = some h →
    let next := BitVec.ofNat 32 (g.seq.toNat + 1)
    ∃ (isn : Word) (feed : List Word),
    (∀ v vs, s.isnFeed = v :: vs → isn = v ∧ feed = vs) ∧
    (s.isnFeed = [] → isn = Config.isnInput s.isnDrawn ∧ feed = []) ∧
    exec .tcpRx s = .next
      { s.answers (segmentResults g 0x02 (BitVec.ofNat 32 h)) with
        evq := s.evq ++
          [replyRecord g .replySynAck (BitVec.ofNat 16 h) isn next
             (BitVec.ofNat 32 ((s.params.payloadMtu - 20) % 65536)),
           { kind := .accepted, handle := BitVec.ofNat 16 h }]
        table := s.table.set h
          { valid := true, remoteIp := g.tuple.remoteIp, localPort := g.tuple.localPort,
            remotePort := g.tuple.remotePort, remoteSeq := next, remoteSeqSent := next,
            localSeq := BitVec.ofNat 32 (isn.toNat + 1), localInitialSeq := isn, remoteInitialSeq := g.seq,
            idle := 0#16, unacked := List.replicate s.params.maxUnacked Slot.empty }
        isnFeed := feed
        isnDrawn := s.isnDrawn + 1 }

/-- R101 to R103, an in-order segment of the ACK branch without FIN: the covered slots are released, the payload is
delivered and remote_seq advances past it, and an ACK is the last event where there was a payload. -/
def Obligations.TcpRxAckProcessed : Prop :=
  ∀ (s : State) (g : Segment) (h : Nat), GoodSegment s g → g.rst = false → g.ackFlag = true → g.fin = false →
    s.lookup g.tuple = some h → g.seq = (s.entry h).remoteSeq →
    let e := s.entry h
    let covered := fun (sl : Slot) => decide ((g.ack.toNat + 2 ^ 32 - sl.endSeq.toNat) % 2 ^ 32 < 2 ^ 31)
    let next := BitVec.ofNat 32 (e.remoteSeq.toNat + g.plen)
    exec .tcpRx s = .next
      { s.answers (segmentResults g 0x06 (BitVec.ofNat 32 h)) with
        evq := s.evq ++ releaseRecords h covered e.unacked ++
          (if g.plen = 0 then []
           else [{ kind := .rxData, handle := BitVec.ofNat 16 h, w1 := g.paddr, w2 := BitVec.ofNat 32 g.plen },
                 replyRecord g .replyAck (BitVec.ofNat 16 h) e.localSeq next 0#32])
        table := s.table.set h
          { e with
            remoteSeq := next
            remoteSeqSent := if g.plen = 0 then e.remoteSeqSent else next
            unacked := e.unacked.map fun sl => if sl.occupied && covered sl then Slot.empty else sl } }

/-- R101 step 5, an in-order segment with FIN: releases, payload, EV_CLOSED, FIN+ACK that counts the FIN, the remaining
slots released, and the entry all 0. -/
def Obligations.TcpRxFinCloses : Prop :=
  ∀ (s : State) (g : Segment) (h : Nat), GoodSegment s g → g.rst = false → g.ackFlag = true → g.fin = true →
    s.lookup g.tuple = some h → g.seq = (s.entry h).remoteSeq →
    let e := s.entry h
    let covered := fun (sl : Slot) => decide ((g.ack.toNat + 2 ^ 32 - sl.endSeq.toNat) % 2 ^ 32 < 2 ^ 31)
    exec .tcpRx s = .next
      { s.answers (segmentResults g 0x07 (BitVec.ofNat 32 h)) with
        evq := s.evq ++ releaseRecords h covered e.unacked ++
          (if g.plen = 0 then []
           else [{ kind := .rxData, handle := BitVec.ofNat 16 h, w1 := g.paddr, w2 := BitVec.ofNat 32 g.plen }]) ++
          [{ kind := .closed, handle := BitVec.ofNat 16 h },
           replyRecord g .replyFinAck (BitVec.ofNat 16 h) e.localSeq
             (BitVec.ofNat 32 (e.remoteSeq.toNat + g.plen + 1)) 0#32] ++
          releaseRecords h (fun sl => !covered sl) e.unacked
        table := s.table.set h (Entry.empty s.params.maxUnacked) }

/-- R106 item 1: after an accepted SYN the tuple's entry is found, and the same SYN again is a duplicate of it. -/
def Obligations.RepeatedSynIsDuplicate : Prop :=
  ∀ s t : State, s.Inv → exec .tcpRx s = .next t → t.code = .ok → t.res.r0 = 2#32 →
    t.HasRoom (t.params.maxUnacked + 3) →
    ∃ u, exec .tcpRx t = .next u ∧ u = t.answers { t.res with r0 := 0x05#32 }

/-- R106 item 4: after an RST that cleared an entry, a later segment of the same connection that is not a SYN without ACK
has no response: the queue and the table stay. u is any later state with the same table, whatever the host wrote. -/
def Obligations.NoResponseAfterRst : Prop :=
  ∀ s t u v : State, s.Inv → exec .tcpRx s = .next t → t.code = .ok → t.res.r0 = 0#32 →
    u.table = t.table → u.params = t.params → u.arg2 = s.arg2 → exec .tcpRx u = .next v → v.code = .ok →
    v.res.r2 = t.res.r2 → v.res.r0.toNat ∉ [0x02, 0x03, 0x04, 0x05] → v.evq = u.evq ∧ v.table = u.table

/-! ### Send and retransmission -/

/-- TCP_SEND where it sends nothing (R109, R111): an entry that is not valid, a bad data offset or an over-long segment,
and a full ring report their code and change nothing else; the windows are checked before and after the data offset. -/
def Obligations.TcpSendRefusals : Prop :=
  ∀ s : State, s.cfgLock = true → s.arg0.toNat < s.params.tableWays * s.params.tableLines → s.HasRoom 1 →
    let e := s.entry s.arg0.toNat
    let b := s.arg1.toNat
    let doff := (s.mem.byte (b + 12)).toNat / 16
    let len := 4 * doff + s.arg2.toNat
    let refused := fun (code : Nat) => s.answers { r0 := BitVec.ofNat 32 code, r1 := 0xFFFFFFFF#32 }
    (e.valid = false → exec .tcpSend s = .next (refused 3)) ∧
    (e.valid = true → ¬ Fits s.params b 20 → exec .tcpSend s = .next (s.failed .memRange)) ∧
    (e.valid = true → Fits s.params b 20 → (doff < 5 ∨ 65515 < len) → exec .tcpSend s = .next (refused 2)) ∧
    (e.valid = true → Fits s.params b 20 → 5 ≤ doff → len ≤ 65515 → ¬ Fits s.params b len →
      exec .tcpSend s = .next (s.failed .memRange)) ∧
    (e.valid = true → Fits s.params b 20 → 5 ≤ doff → len ≤ 65515 → Fits s.params b len →
      (∀ sl ∈ e.unacked, sl.occupied = true) → exec .tcpSend s = .next (refused 1))

/-- TCP_SEND where it sends (R109): the lowest free slot records the segment, local_seq advances, PSH is set,
remote_seq_sent takes the segment's ack field, one EV_TX names the slot, and RES3 is the checksum field in memory, the
number of R68. -/
def Obligations.TcpSendRecordsSegment : Prop :=
  ∀ (s : State) (k : Nat), s.cfgLock = true → s.arg0.toNat < s.params.tableWays * s.params.tableLines →
    s.HasRoom 1 → Memory.wf s.mem →
    let h := s.arg0.toNat
    let e := s.entry h
    let b := s.arg1.toNat
    let doff := (s.mem.byte (b + 12)).toNat / 16
    let len := 4 * doff + s.arg2.toNat
    let localSeq := BitVec.ofNat 32 (e.localSeq.toNat + s.arg2.toNat)
    let slot : Slot := { occupied := true, buf := s.arg1, len := BitVec.ofNat 16 len, endSeq := localSeq, age := 0#16 }
    e.valid = true → 5 ≤ doff → len ≤ 65515 → Fits s.params b len →
    (∃ sl, e.unacked[k]? = some sl ∧ sl.occupied = false) →
    (∀ (j : Nat) (sl : Slot), j < k → e.unacked[j]? = some sl → sl.occupied = true) →
    ∃ m : Memory, Memory.wf m ∧ m.byte (b + 13) = (s.mem.byte (b + 13) ||| 0x08#8) ∧
      (∀ a, a ≠ b + 13 → a ≠ b + 16 → a ≠ b + 17 → m.byte a = s.mem.byte a) ∧
      (m.be16 (b + 16)).toNat = checksumField m s.hostIp e.remoteIp b len ∧
      exec .tcpSend s = .next
        { s.answers { r0 := 0#32, r1 := BitVec.ofNat 32 k, r2 := localSeq, r3 := BitVec.ofNat 32 (m.be16 (b + 16)).toNat,
                      r4 := BitVec.ofNat 32 len } with
          mem := m
          evq := s.evq ++ [{ kind := .tx, slot := BitVec.ofNat 8 k, handle := BitVec.ofNat 16 h, w1 := s.arg1,
                             w2 := BitVec.ofNat 32 len, w3 := localSeq, w4 := e.remoteIp }]
          table := s.table.set h
            { e with localSeq := localSeq, unacked := e.unacked.set k slot, remoteSeqSent := s.mem.be32 (b + 8) } }

/-- R67, R68, R109 step 4: after a TCP_SEND that sent, the segment in buffer memory validates with the prelude of
HOST_IP, the entry's remote IP, protocol 6 and the segment length. -/
def Obligations.SentSegmentValidates : Prop :=
  ∀ s t : State, Memory.wf s.mem → exec .tcpSend s = .next t → t.code = .ok → t.res.r0 = 0#32 →
    let len := t.res.r4.toNat
    cksum t.mem s.arg1.toNat len
      (pseudoSum s.hostIp (s.entry s.arg0.toNat).remoteIp 6#8 (BitVec.ofNat 16 len)) = 0xFFFF#16

/-- AGE_TICK (R112, R113): with room, and every due segment in buffer memory, the ages, the RETX records, the two counts,
and memory: the checksum fields of the due segments written one after the other, by ascending handle and slot, each in
the memory the one before it left; otherwise ERR_MEM_RANGE. The last clauses say what memory that is: the form it keeps,
the bytes it leaves, and what one write of a checksum field does (R68). -/
def Obligations.AgeTickAgesAndResends : Prop :=
  ∀ s : State, s.cfgLock = true → s.HasRoom (s.params.tableWays * s.params.tableLines * s.params.maxUnacked) →
    let inRange := ∀ e ∈ s.table, e.valid = true → ∀ sl ∈ e.unacked, DueSlot s.params sl →
      Fits s.params sl.buf.toNat sl.len.toNat
    let write := fun (m : Memory) (x : Word × Slot) => sealSegment m s.hostIp x.1 x.2.buf.toNat x.2.len.toNat
    let m := (dueSegments s.params s.table).foldl write s.mem
    (inRange → exec .ageTick s = .next
      { s.answers { r0 := BitVec.ofNat 32 (slotCount s.table fun sl => sl.occupied),
                    r1 := BitVec.ofNat 32 (slotCount s.table fun sl => decide (DueSlot s.params sl)) } with
        mem := m
        evq := s.evq ++ retxRecords s.params s.table
        table := s.table.map (agedEntry s.params) }) ∧
    (¬ inRange → exec .ageTick s = .next (s.failed .memRange)) ∧
    (Memory.wf s.mem → Memory.wf m) ∧
    (∀ a, (∀ e ∈ s.table, e.valid = true → ∀ sl ∈ e.unacked, DueSlot s.params sl →
        a ≠ sl.buf.toNat + 16 ∧ a ≠ sl.buf.toNat + 17) → m.byte a = s.mem.byte a) ∧
    (∀ (m : Memory) (x : Word × Slot), Memory.wf m →
      Memory.wf (write m x) ∧
      ((write m x).be16 (x.2.buf.toNat + 16)).toNat = checksumField m s.hostIp x.1 x.2.buf.toNat x.2.len.toNat ∧
      ∀ a, a ≠ x.2.buf.toNat + 16 → a ≠ x.2.buf.toNat + 17 → (write m x).byte a = m.byte a)

/-- R112, R67: a segment that a tick resends validates afterwards, where no other due segment's checksum field lies in it
(R148 names the overlap as the host's hazard). -/
def Obligations.ResentSegmentValidates : Prop :=
  ∀ (s t : State) (h k : Nat) (e : Entry) (sl : Slot), Memory.wf s.mem → exec .ageTick s = .next t → t.code = .ok →
    s.table[h]? = some e → e.valid = true → e.unacked[k]? = some sl → DueSlot s.params sl → 18 ≤ sl.len.toNat →
    (∀ (h' k' : Nat) (e' : Entry) (sl' : Slot), s.table[h']? = some e' → e'.valid = true → e'.unacked[k']? = some sl' →
      DueSlot s.params sl' → (h', k') ≠ (h, k) →
      sl'.buf.toNat + 17 < sl.buf.toNat ∨ sl.buf.toNat + sl.len.toNat ≤ sl'.buf.toNat + 16) →
    cksum t.mem sl.buf.toNat sl.len.toNat (pseudoSum s.hostIp e.remoteIp 6#8 sl.len) = 0xFFFF#16

/-- R113: on a state that keeps the invariant AGE_TICK's window check does not fail: the tick completes. -/
def Obligations.AgeTickNeverOutOfRange : Prop :=
  ∀ s : State, s.Inv → s.cfgLock = true → s.HasRoom (s.params.tableWays * s.params.tableLines * s.params.maxUnacked) →
    ∃ t, exec .ageTick s = .next t ∧ t.code = .ok

/-! ### The register window -/

/-- A host read of a register (R19, R20, R121 to R125): the value of R20, no side effect. -/
def Obligations.RegisterReads : Prop :=
  ∀ (s : State) (off v : Word) (rest : List HostAccess), s.inputs = .read 32 off :: rest →
    let bit := fun (b : Bool) => if b then 1 else 0
    let code := match s.code with
      | .ok => 0
      | .error .illegalCmd => 1
      | .error .memRange => 2
      | .error .badHandle => 3
      | .error .notConfigured => 4
      | .error .evqFull => 5
    let status := code + 256 * bit s.err + 512 * bit (0 < s.evq.length) + 1024 * bit (s.evq.length = s.params.evqDepth)
    (off.toNat, v) ∈
      [(0x000, BitVec.ofNat 32 (bit s.cfgLock)), (0x004, BitVec.ofNat 32 status), (0x008, s.cmd), (0x00C, 0x534E0007#32),
       (0x010, s.arg0), (0x014, s.arg1), (0x018, s.arg2), (0x01C, s.arg3),
       (0x020, s.res.r0), (0x024, s.res.r1), (0x028, s.res.r2), (0x02C, s.res.r3),
       (0x030, s.res.r4), (0x034, s.res.r5), (0x038, s.res.r6), (0x03C, s.res.r7),
       (0x040, s.hostIp), (0x044, s.bcastIp), (0x048, s.gatewayIp),
       (0x050, BitVec.ofNat 32 (s.params.tableWays % 65536 * 65536 + s.params.tableLines % 65536)),
       (0x054, BitVec.ofNat 32 (s.params.retransmitTimeout % 65536 * 65536 + s.params.maxUnacked % 256)),
       (0x058, BitVec.ofNat 32 s.params.payloadMtu), (0x05C, BitVec.ofNat 32 s.params.memSize),
       (0x060, BitVec.ofNat 32 s.params.evqDepth), (0x064, BitVec.ofNat 32 s.evq.length), (0x068, s.evqPop)] →
    step s = .next { s with inputs := rest, readData := v }

/-- R125, R59, R60: EVQ_HEAD0..5 read the words of the oldest record, its kind by the number of R60, or 0 where the queue
is empty; a write to EVQ_POP removes it, and keeps the value written. -/
def Obligations.EventQueueAccess : Prop :=
  ∀ (s : State) (rest : List HostAccess),
    let kind := fun (k : EventKind) => match k with
      | .icmp => 0x01
      | .accepted => 0x02
      | .rxData => 0x03
      | .closed => 0x04
      | .bufRelease => 0x05
      | .tx => 0x06
      | .retx => 0x07
      | .replyRstAck => 0x10
      | .replySynAck => 0x11
      | .replyAck => 0x12
      | .replyFinAck => 0x13
    (∀ (j : Nat) (e : Event) (es : List Event), j < 6 → s.inputs = .read 32 (BitVec.ofNat 32 (0x070 + 4 * j)) :: rest →
      s.evq = e :: es →
      step s = .next { s with
        inputs := rest
        readData := [BitVec.ofNat 32 (e.handle.toNat * 65536 + e.slot.toNat * 256 + kind e.kind),
          e.w1, e.w2, e.w3, e.w4, e.w5].getD j 0#32 }) ∧
    (∀ j : Nat, j < 6 → s.inputs = .read 32 (BitVec.ofNat 32 (0x070 + 4 * j)) :: rest → s.evq = [] →
      step s = .next { s with inputs := rest, readData := 0#32 }) ∧
    (∀ (v : Word) (e : Event) (es : List Event), s.inputs = .write 32 0x068#32 v :: rest → s.evq = e :: es →
      step s = .next { s with inputs := rest, evq := es, evqPop := v }) ∧
    (∀ v : Word, s.inputs = .write 32 0x068#32 v :: rest → s.evq = [] →
      step s = .next { s with inputs := rest, evqPop := v })

/-- R37, R127: the TABLE window. Every word of every entry, past the last entry 0, and a read has no side effect. -/
def Obligations.TableWindowReads : Prop :=
  ∀ (s : State) (h n : Nat) (off : Word) (rest : List HostAccess), s.params.Wf →
    let ew := 9 + 4 * s.params.maxUnacked
    let e := s.entry h
    let bit := fun (b : Bool) => if b then 1 else 0
    let slot := fun (k : Nat) => e.unacked.getD k Slot.empty
    s.inputs = .read 32 off :: rest → n < ew → off.toNat = 0x10000 + 4 * (ew * h + n) →
    step s = .next { s with
      inputs := rest
      readData :=
        if s.params.tableWays * s.params.tableLines ≤ h then 0#32
        else if n = 0 then BitVec.ofNat 32 (bit e.valid)
        else if n = 1 then e.remoteIp
        else if n = 2 then BitVec.ofNat 32 (e.remotePort.toNat * 65536 + e.localPort.toNat)
        else if n = 3 then e.remoteSeq
        else if n = 4 then e.remoteSeqSent
        else if n = 5 then e.localSeq
        else if n = 6 then e.localInitialSeq
        else if n = 7 then e.remoteInitialSeq
        else if n = 8 then BitVec.ofNat 32 e.idle.toNat
        else if (n - 9) % 4 = 0 then
          BitVec.ofNat 32 ((slot ((n - 9) / 4)).age.toNat * 65536 + bit (slot ((n - 9) / 4)).occupied)
        else if (n - 9) % 4 = 1 then (slot ((n - 9) / 4)).buf
        else if (n - 9) % 4 = 2 then BitVec.ofNat 32 (slot ((n - 9) / 4)).len.toNat
        else (slot ((n - 9) / 4)).endSeq }

/-- R20, R123, R127, R128: what has no effect. An aligned write to any offset but those of CTRL, STATUS, CMD,
ARG0..ARG3, HOST_IP, BCAST_IP, GATEWAY_IP, EVQ_POP and PORT_OPEN is ignored: the read-only registers, the TABLE window and
every unlisted offset. An aligned read of an unlisted offset answers 0. -/
def Obligations.ReadOnlyAndUnlistedOffsets : Prop :=
  ∀ (s : State) (off : Word) (rest : List HostAccess), off.toNat % 4 = 0 →
    (∀ v : Word, s.inputs = .write 32 off v :: rest →
      off.toNat ∉ [0x000, 0x004, 0x008, 0x010, 0x014, 0x018, 0x01C, 0x040, 0x044, 0x048, 0x068] →
      ¬ (0x1000 ≤ off.toNat ∧ off.toNat ≤ 0x2FFC) → step s = .next { s with inputs := rest }) ∧
    (s.inputs = .read 32 off :: rest →
      (off.toNat = 0x04C ∨ off.toNat = 0x06C ∨ (0x088 ≤ off.toNat ∧ off.toNat < 0x1000) ∨
        (0x2FFC < off.toNat ∧ off.toNat < 0x10000)) →
      step s = .next { s with inputs := rest, readData := 0#32 })

/-- R121, R122, R124 and the operand registers of R123: the host's writes that act. CTRL sets the lock and never clears
it; STATUS clears ERR by bit 8 alone; the configuration takes a write only while it is not locked. -/
def Obligations.RegisterWrites : Prop :=
  ∀ (s : State) (v : Word) (rest : List HostAccess),
    let wrote := fun (off : Word) (t : State) =>
      s.inputs = .write 32 off v :: rest → step s = .next { t with inputs := rest }
    wrote 0x000#32 (if v.toNat % 2 = 1 then { s with cfgLock := true } else s) ∧
    wrote 0x004#32 (if v.toNat / 256 % 2 = 1 then { s with err := false } else s) ∧
    wrote 0x010#32 { s with arg0 := v } ∧ wrote 0x014#32 { s with arg1 := v } ∧
    wrote 0x018#32 { s with arg2 := v } ∧ wrote 0x01C#32 { s with arg3 := v } ∧
    wrote 0x040#32 (if s.cfgLock then s else { s with hostIp := v }) ∧
    wrote 0x044#32 (if s.cfgLock then s else { s with bcastIp := v }) ∧
    wrote 0x048#32 (if s.cfgLock then s else { s with gatewayIp := v })

/-- R30, R126: a write to PORT_OPEN[i] replaces the 32 bits of ports 32 i to 32 i + 31 and leaves every other port and
all other state; a read of PORT_OPEN[i] answers those 32 bits. -/
def Obligations.PortBitmapAccess : Prop :=
  ∀ (s : State) (i : Nat) (off : Word) (rest : List HostAccess), Cells.Wf s.portOpen → i < 2048 →
    off.toNat = 0x1000 + 4 * i →
    (∀ v : Word, s.inputs = .write 32 off v :: rest →
      ∃ ports : PortWords, step s = .next { s with inputs := rest, portOpen := ports } ∧
        ∀ p : Half, State.portIsOpen { s with portOpen := ports } p =
          if p.toNat / 32 = i then v.getLsbD (p.toNat % 32) else s.portIsOpen p) ∧
    (s.inputs = .read 32 off :: rest →
      ∃ v : Word, step s = .next { s with inputs := rest, readData := v } ∧
        ∀ p : Half, p.toNat / 32 = i → v.getLsbD (p.toNat % 32) = s.portIsOpen p)

/-- R19, R128: a register access that is not an aligned 32-bit access is refused. -/
def Obligations.UnalignedAccessRefused : Prop :=
  ∀ (s : State) (bits : Nat) (off v : Word) (rest : List HostAccess), bits ≠ 32 ∨ off.toNat % 4 ≠ 0 →
    (s.inputs = .read bits off :: rest → step s = .refused .notAlignedWordAccess) ∧
    (s.inputs = .write bits off v :: rest → step s = .refused .notAlignedWordAccess)

/-- R42, R48: the host's accesses to buffer memory. Within MEM_SIZE a write changes its byte and no other, and a read
answers the byte; a byte that does not exist faults (log entry 7). -/
def Obligations.HostMemoryAccess : Prop :=
  ∀ (s : State) (a : Word) (b : Byte) (rest : List HostAccess), Memory.wf s.mem →
    (s.inputs = .memWrite a b :: rest → a.toNat < s.params.memSize →
      ∃ m : Memory, step s = .next { s with inputs := rest, mem := m } ∧ m.byte a.toNat = b ∧
        ∀ x, x ≠ a.toNat → m.byte x = s.mem.byte x) ∧
    (s.inputs = .memRead a :: rest → a.toNat < s.params.memSize →
      step s = .next { s with inputs := rest, readData := BitVec.ofNat 32 (s.mem.byte a.toNat).toNat }) ∧
    (s.inputs = .memWrite a b :: rest ∨ s.inputs = .memRead a :: rest → s.params.memSize ≤ a.toNat →
      step s = .fault .hostMemoryRange)

/-! ### Reset and the whole block -/

/-- R143, R144: reset puts every piece of block state at its reset value, emits nothing, and keeps the parameters; buffer
memory is not reset (log entry 8). -/
def Obligations.ResetRestoresBlockState : Prop :=
  ∀ (s : State) (rest : List HostAccess), s.inputs = .reset :: rest →
    step s = .next
      { params := s.params, cfgLock := false, code := .ok, err := false, cmd := 0#32, evqPop := 0#32, arg0 := 0#32,
        arg1 := 0#32, arg2 := 0#32, arg3 := 0#32, res := {}, hostIp := 0#32, bcastIp := 0#32, gatewayIp := 0#32,
        evq := [], portOpen := [],
        table := List.replicate (s.params.tableWays * s.params.tableLines) (Entry.empty s.params.maxUnacked),
        mem := s.mem, isnFeed := s.isnFeed, isnDrawn := s.isnDrawn, inputs := rest, readData := s.readData }

/-- R8, R26: no step changes the parameters. -/
def Obligations.ParametersNeverChange : Prop :=
  ∀ s t : State, step s = .next t → t.params = s.params

/-- R24, R124: once the lock is set, every step but a reset keeps it and the three configuration registers. -/
def Obligations.LockedConfigurationStays : Prop :=
  ∀ s t : State, s.cfgLock = true → step s = .next t → s.inputs.head? ≠ some .reset →
    t.cfgLock = true ∧ t.hostIp = s.hostIp ∧ t.bcastIp = s.bcastIp ∧ t.gatewayIp = s.gatewayIp

/-- R35, R128, R42: the table and buffer memory change only by a command, which only a write to CMD launches; beside it the
host's own write to memory and, for the table, reset. That a reset leaves buffer memory is the model's choice: log
entry 8. -/
def Obligations.OnlyCommandsWriteTheTable : Prop :=
  ∀ s t : State, step s = .next t →
    (∀ v rest, s.inputs ≠ .write 32 0x008#32 v :: rest) →
    (t.table = s.table ∨ s.inputs.head? = some .reset) ∧
    (t.mem = s.mem ∨ ∃ a b, s.inputs.head? = some (.memWrite a b))

/-- R25: no command reads GATEWAY_IP: with another value in it every command does the same. -/
def Obligations.GatewayIpIsNotRead : Prop :=
  ∀ (i : Instr) (s t : State) (g : Word), exec i s = .next t →
    exec i { s with gatewayIp := g } = .next { t with gatewayIp := g }

/-- The invariant of the block (R36, R39, R40, R95, R118): every step keeps it. -/
def Obligations.StepKeepsInvariant : Prop :=
  ∀ s t : State, s.Inv → step s = .next t → t.Inv

/-- The invariant holds after reset, for every admissible choice of parameters, and for those of State.reset. -/
def Obligations.ResetMeetsInvariant : Prop :=
  (∀ p : Params, p.Wf → (State.resetWith p).Inv) ∧ State.reset.Inv
end

