-- ==== Sys2Proof/Laws/State.lean ====
section
/-!
SUPPORT. What each field of State is after each update of it, so that no later proof unfolds a record update.
-/

namespace Sys2Proof.Machine

/-! ### emit: emit (R15, R27) -/

@[simp] theorem State.emit_params (s : State) (e : Event) : (s.emit e).params = s.params := rfl
@[simp] theorem State.emit_cfgLock (s : State) (e : Event) : (s.emit e).cfgLock = s.cfgLock := rfl
@[simp] theorem State.emit_code (s : State) (e : Event) : (s.emit e).code = s.code := rfl
@[simp] theorem State.emit_err (s : State) (e : Event) : (s.emit e).err = s.err := rfl
@[simp] theorem State.emit_cmd (s : State) (e : Event) : (s.emit e).cmd = s.cmd := rfl
@[simp] theorem State.emit_evqPop (s : State) (e : Event) : (s.emit e).evqPop = s.evqPop := rfl
@[simp] theorem State.emit_arg0 (s : State) (e : Event) : (s.emit e).arg0 = s.arg0 := rfl
@[simp] theorem State.emit_arg1 (s : State) (e : Event) : (s.emit e).arg1 = s.arg1 := rfl
@[simp] theorem State.emit_arg2 (s : State) (e : Event) : (s.emit e).arg2 = s.arg2 := rfl
@[simp] theorem State.emit_arg3 (s : State) (e : Event) : (s.emit e).arg3 = s.arg3 := rfl
@[simp] theorem State.emit_res (s : State) (e : Event) : (s.emit e).res = s.res := rfl
@[simp] theorem State.emit_hostIp (s : State) (e : Event) : (s.emit e).hostIp = s.hostIp := rfl
@[simp] theorem State.emit_bcastIp (s : State) (e : Event) : (s.emit e).bcastIp = s.bcastIp := rfl
@[simp] theorem State.emit_gatewayIp (s : State) (e : Event) : (s.emit e).gatewayIp = s.gatewayIp := rfl
@[simp] theorem State.emit_evq (s : State) (e : Event) : (s.emit e).evq = s.evq ++ [e] := rfl
@[simp] theorem State.emit_portOpen (s : State) (e : Event) : (s.emit e).portOpen = s.portOpen := rfl
@[simp] theorem State.emit_table (s : State) (e : Event) : (s.emit e).table = s.table := rfl
@[simp] theorem State.emit_mem (s : State) (e : Event) : (s.emit e).mem = s.mem := rfl
@[simp] theorem State.emit_isnFeed (s : State) (e : Event) : (s.emit e).isnFeed = s.isnFeed := rfl
@[simp] theorem State.emit_isnDrawn (s : State) (e : Event) : (s.emit e).isnDrawn = s.isnDrawn := rfl
@[simp] theorem State.emit_inputs (s : State) (e : Event) : (s.emit e).inputs = s.inputs := rfl
@[simp] theorem State.emit_readData (s : State) (e : Event) : (s.emit e).readData = s.readData := rfl

/-! ### emitAll: several records appended -/

@[simp] theorem State.emitAll_params (s : State) (es : List Event) : (s.emitAll es).params = s.params := rfl
@[simp] theorem State.emitAll_cfgLock (s : State) (es : List Event) : (s.emitAll es).cfgLock = s.cfgLock := rfl
@[simp] theorem State.emitAll_code (s : State) (es : List Event) : (s.emitAll es).code = s.code := rfl
@[simp] theorem State.emitAll_err (s : State) (es : List Event) : (s.emitAll es).err = s.err := rfl
@[simp] theorem State.emitAll_cmd (s : State) (es : List Event) : (s.emitAll es).cmd = s.cmd := rfl
@[simp] theorem State.emitAll_evqPop (s : State) (es : List Event) : (s.emitAll es).evqPop = s.evqPop := rfl
@[simp] theorem State.emitAll_arg0 (s : State) (es : List Event) : (s.emitAll es).arg0 = s.arg0 := rfl
@[simp] theorem State.emitAll_arg1 (s : State) (es : List Event) : (s.emitAll es).arg1 = s.arg1 := rfl
@[simp] theorem State.emitAll_arg2 (s : State) (es : List Event) : (s.emitAll es).arg2 = s.arg2 := rfl
@[simp] theorem State.emitAll_arg3 (s : State) (es : List Event) : (s.emitAll es).arg3 = s.arg3 := rfl
@[simp] theorem State.emitAll_res (s : State) (es : List Event) : (s.emitAll es).res = s.res := rfl
@[simp] theorem State.emitAll_hostIp (s : State) (es : List Event) : (s.emitAll es).hostIp = s.hostIp := rfl
@[simp] theorem State.emitAll_bcastIp (s : State) (es : List Event) : (s.emitAll es).bcastIp = s.bcastIp := rfl
@[simp] theorem State.emitAll_gatewayIp (s : State) (es : List Event) : (s.emitAll es).gatewayIp = s.gatewayIp := rfl
@[simp] theorem State.emitAll_evq (s : State) (es : List Event) : (s.emitAll es).evq = s.evq ++ es := rfl
@[simp] theorem State.emitAll_portOpen (s : State) (es : List Event) : (s.emitAll es).portOpen = s.portOpen := rfl
@[simp] theorem State.emitAll_table (s : State) (es : List Event) : (s.emitAll es).table = s.table := rfl
@[simp] theorem State.emitAll_mem (s : State) (es : List Event) : (s.emitAll es).mem = s.mem := rfl
@[simp] theorem State.emitAll_isnFeed (s : State) (es : List Event) : (s.emitAll es).isnFeed = s.isnFeed := rfl
@[simp] theorem State.emitAll_isnDrawn (s : State) (es : List Event) : (s.emitAll es).isnDrawn = s.isnDrawn := rfl
@[simp] theorem State.emitAll_inputs (s : State) (es : List Event) : (s.emitAll es).inputs = s.inputs := rfl
@[simp] theorem State.emitAll_readData (s : State) (es : List Event) : (s.emitAll es).readData = s.readData := rfl

/-! ### setEntry: T[h] replaced -/

@[simp] theorem State.setEntry_params (s : State) (h : Nat) (e : Entry) : (s.setEntry h e).params = s.params := rfl
@[simp] theorem State.setEntry_cfgLock (s : State) (h : Nat) (e : Entry) : (s.setEntry h e).cfgLock = s.cfgLock := rfl
@[simp] theorem State.setEntry_code (s : State) (h : Nat) (e : Entry) : (s.setEntry h e).code = s.code := rfl
@[simp] theorem State.setEntry_err (s : State) (h : Nat) (e : Entry) : (s.setEntry h e).err = s.err := rfl
@[simp] theorem State.setEntry_cmd (s : State) (h : Nat) (e : Entry) : (s.setEntry h e).cmd = s.cmd := rfl
@[simp] theorem State.setEntry_evqPop (s : State) (h : Nat) (e : Entry) : (s.setEntry h e).evqPop = s.evqPop := rfl
@[simp] theorem State.setEntry_arg0 (s : State) (h : Nat) (e : Entry) : (s.setEntry h e).arg0 = s.arg0 := rfl
@[simp] theorem State.setEntry_arg1 (s : State) (h : Nat) (e : Entry) : (s.setEntry h e).arg1 = s.arg1 := rfl
@[simp] theorem State.setEntry_arg2 (s : State) (h : Nat) (e : Entry) : (s.setEntry h e).arg2 = s.arg2 := rfl
@[simp] theorem State.setEntry_arg3 (s : State) (h : Nat) (e : Entry) : (s.setEntry h e).arg3 = s.arg3 := rfl
@[simp] theorem State.setEntry_res (s : State) (h : Nat) (e : Entry) : (s.setEntry h e).res = s.res := rfl
@[simp] theorem State.setEntry_hostIp (s : State) (h : Nat) (e : Entry) : (s.setEntry h e).hostIp = s.hostIp := rfl
@[simp] theorem State.setEntry_bcastIp (s : State) (h : Nat) (e : Entry) : (s.setEntry h e).bcastIp = s.bcastIp := rfl
@[simp] theorem State.setEntry_gatewayIp (s : State) (h : Nat) (e : Entry) : (s.setEntry h e).gatewayIp = s.gatewayIp := rfl
@[simp] theorem State.setEntry_evq (s : State) (h : Nat) (e : Entry) : (s.setEntry h e).evq = s.evq := rfl
@[simp] theorem State.setEntry_portOpen (s : State) (h : Nat) (e : Entry) : (s.setEntry h e).portOpen = s.portOpen := rfl
@[simp] theorem State.setEntry_table (s : State) (h : Nat) (e : Entry) : (s.setEntry h e).table = s.table.set h e := rfl
@[simp] theorem State.setEntry_mem (s : State) (h : Nat) (e : Entry) : (s.setEntry h e).mem = s.mem := rfl
@[simp] theorem State.setEntry_isnFeed (s : State) (h : Nat) (e : Entry) : (s.setEntry h e).isnFeed = s.isnFeed := rfl
@[simp] theorem State.setEntry_isnDrawn (s : State) (h : Nat) (e : Entry) : (s.setEntry h e).isnDrawn = s.isnDrawn := rfl
@[simp] theorem State.setEntry_inputs (s : State) (h : Nat) (e : Entry) : (s.setEntry h e).inputs = s.inputs := rfl
@[simp] theorem State.setEntry_readData (s : State) (h : Nat) (e : Entry) : (s.setEntry h e).readData = s.readData := rfl

/-! ### drawIsn: draw_isn (R15, R31) -/

@[simp] theorem State.drawIsn_params (s : State) : (s.drawIsn).params = s.params := rfl
@[simp] theorem State.drawIsn_cfgLock (s : State) : (s.drawIsn).cfgLock = s.cfgLock := rfl
@[simp] theorem State.drawIsn_code (s : State) : (s.drawIsn).code = s.code := rfl
@[simp] theorem State.drawIsn_err (s : State) : (s.drawIsn).err = s.err := rfl
@[simp] theorem State.drawIsn_cmd (s : State) : (s.drawIsn).cmd = s.cmd := rfl
@[simp] theorem State.drawIsn_evqPop (s : State) : (s.drawIsn).evqPop = s.evqPop := rfl
@[simp] theorem State.drawIsn_arg0 (s : State) : (s.drawIsn).arg0 = s.arg0 := rfl
@[simp] theorem State.drawIsn_arg1 (s : State) : (s.drawIsn).arg1 = s.arg1 := rfl
@[simp] theorem State.drawIsn_arg2 (s : State) : (s.drawIsn).arg2 = s.arg2 := rfl
@[simp] theorem State.drawIsn_arg3 (s : State) : (s.drawIsn).arg3 = s.arg3 := rfl
@[simp] theorem State.drawIsn_res (s : State) : (s.drawIsn).res = s.res := rfl
@[simp] theorem State.drawIsn_hostIp (s : State) : (s.drawIsn).hostIp = s.hostIp := rfl
@[simp] theorem State.drawIsn_bcastIp (s : State) : (s.drawIsn).bcastIp = s.bcastIp := rfl
@[simp] theorem State.drawIsn_gatewayIp (s : State) : (s.drawIsn).gatewayIp = s.gatewayIp := rfl
@[simp] theorem State.drawIsn_evq (s : State) : (s.drawIsn).evq = s.evq := rfl
@[simp] theorem State.drawIsn_portOpen (s : State) : (s.drawIsn).portOpen = s.portOpen := rfl
@[simp] theorem State.drawIsn_table (s : State) : (s.drawIsn).table = s.table := rfl
@[simp] theorem State.drawIsn_mem (s : State) : (s.drawIsn).mem = s.mem := rfl
@[simp] theorem State.drawIsn_isnFeed (s : State) : (s.drawIsn).isnFeed = s.isnFeed.tail := rfl
@[simp] theorem State.drawIsn_isnDrawn (s : State) : (s.drawIsn).isnDrawn = s.isnDrawn + 1 := rfl
@[simp] theorem State.drawIsn_inputs (s : State) : (s.drawIsn).inputs = s.inputs := rfl
@[simp] theorem State.drawIsn_readData (s : State) : (s.drawIsn).readData = s.readData := rfl

/-! ### raise: raise (R15, R130) -/

@[simp] theorem State.raise_params (e : CmdError) (s : State) : (s.raise e).params = s.params := rfl
@[simp] theorem State.raise_cfgLock (e : CmdError) (s : State) : (s.raise e).cfgLock = s.cfgLock := rfl
@[simp] theorem State.raise_code (e : CmdError) (s : State) : (s.raise e).code = .error e := rfl
@[simp] theorem State.raise_err (e : CmdError) (s : State) : (s.raise e).err = true := rfl
@[simp] theorem State.raise_cmd (e : CmdError) (s : State) : (s.raise e).cmd = s.cmd := rfl
@[simp] theorem State.raise_evqPop (e : CmdError) (s : State) : (s.raise e).evqPop = s.evqPop := rfl
@[simp] theorem State.raise_arg0 (e : CmdError) (s : State) : (s.raise e).arg0 = s.arg0 := rfl
@[simp] theorem State.raise_arg1 (e : CmdError) (s : State) : (s.raise e).arg1 = s.arg1 := rfl
@[simp] theorem State.raise_arg2 (e : CmdError) (s : State) : (s.raise e).arg2 = s.arg2 := rfl
@[simp] theorem State.raise_arg3 (e : CmdError) (s : State) : (s.raise e).arg3 = s.arg3 := rfl
@[simp] theorem State.raise_res (e : CmdError) (s : State) : (s.raise e).res = s.res := rfl
@[simp] theorem State.raise_hostIp (e : CmdError) (s : State) : (s.raise e).hostIp = s.hostIp := rfl
@[simp] theorem State.raise_bcastIp (e : CmdError) (s : State) : (s.raise e).bcastIp = s.bcastIp := rfl
@[simp] theorem State.raise_gatewayIp (e : CmdError) (s : State) : (s.raise e).gatewayIp = s.gatewayIp := rfl
@[simp] theorem State.raise_evq (e : CmdError) (s : State) : (s.raise e).evq = s.evq := rfl
@[simp] theorem State.raise_portOpen (e : CmdError) (s : State) : (s.raise e).portOpen = s.portOpen := rfl
@[simp] theorem State.raise_table (e : CmdError) (s : State) : (s.raise e).table = s.table := rfl
@[simp] theorem State.raise_mem (e : CmdError) (s : State) : (s.raise e).mem = s.mem := rfl
@[simp] theorem State.raise_isnFeed (e : CmdError) (s : State) : (s.raise e).isnFeed = s.isnFeed := rfl
@[simp] theorem State.raise_isnDrawn (e : CmdError) (s : State) : (s.raise e).isnDrawn = s.isnDrawn := rfl
@[simp] theorem State.raise_inputs (e : CmdError) (s : State) : (s.raise e).inputs = s.inputs := rfl
@[simp] theorem State.raise_readData (e : CmdError) (s : State) : (s.raise e).readData = s.readData := rfl

/-! ### finish: finish (R15, R22) -/

@[simp] theorem State.finish_params (r : Results) (s : State) : (s.finish r).params = s.params := rfl
@[simp] theorem State.finish_cfgLock (r : Results) (s : State) : (s.finish r).cfgLock = s.cfgLock := rfl
@[simp] theorem State.finish_code (r : Results) (s : State) : (s.finish r).code = .ok := rfl
@[simp] theorem State.finish_err (r : Results) (s : State) : (s.finish r).err = s.err := rfl
@[simp] theorem State.finish_cmd (r : Results) (s : State) : (s.finish r).cmd = s.cmd := rfl
@[simp] theorem State.finish_evqPop (r : Results) (s : State) : (s.finish r).evqPop = s.evqPop := rfl
@[simp] theorem State.finish_arg0 (r : Results) (s : State) : (s.finish r).arg0 = s.arg0 := rfl
@[simp] theorem State.finish_arg1 (r : Results) (s : State) : (s.finish r).arg1 = s.arg1 := rfl
@[simp] theorem State.finish_arg2 (r : Results) (s : State) : (s.finish r).arg2 = s.arg2 := rfl
@[simp] theorem State.finish_arg3 (r : Results) (s : State) : (s.finish r).arg3 = s.arg3 := rfl
@[simp] theorem State.finish_res (r : Results) (s : State) : (s.finish r).res = r := rfl
@[simp] theorem State.finish_hostIp (r : Results) (s : State) : (s.finish r).hostIp = s.hostIp := rfl
@[simp] theorem State.finish_bcastIp (r : Results) (s : State) : (s.finish r).bcastIp = s.bcastIp := rfl
@[simp] theorem State.finish_gatewayIp (r : Results) (s : State) : (s.finish r).gatewayIp = s.gatewayIp := rfl
@[simp] theorem State.finish_evq (r : Results) (s : State) : (s.finish r).evq = s.evq := rfl
@[simp] theorem State.finish_portOpen (r : Results) (s : State) : (s.finish r).portOpen = s.portOpen := rfl
@[simp] theorem State.finish_table (r : Results) (s : State) : (s.finish r).table = s.table := rfl
@[simp] theorem State.finish_mem (r : Results) (s : State) : (s.finish r).mem = s.mem := rfl
@[simp] theorem State.finish_isnFeed (r : Results) (s : State) : (s.finish r).isnFeed = s.isnFeed := rfl
@[simp] theorem State.finish_isnDrawn (r : Results) (s : State) : (s.finish r).isnDrawn = s.isnDrawn := rfl
@[simp] theorem State.finish_inputs (r : Results) (s : State) : (s.finish r).inputs = s.inputs := rfl
@[simp] theorem State.finish_readData (r : Results) (s : State) : (s.finish r).readData = s.readData := rfl

/-! ### clearErr: the host clears ERR (R122) -/

@[simp] theorem State.clearErr_params (s : State) : (s.clearErr).params = s.params := rfl
@[simp] theorem State.clearErr_cfgLock (s : State) : (s.clearErr).cfgLock = s.cfgLock := rfl
@[simp] theorem State.clearErr_code (s : State) : (s.clearErr).code = s.code := rfl
@[simp] theorem State.clearErr_err (s : State) : (s.clearErr).err = false := rfl
@[simp] theorem State.clearErr_cmd (s : State) : (s.clearErr).cmd = s.cmd := rfl
@[simp] theorem State.clearErr_evqPop (s : State) : (s.clearErr).evqPop = s.evqPop := rfl
@[simp] theorem State.clearErr_arg0 (s : State) : (s.clearErr).arg0 = s.arg0 := rfl
@[simp] theorem State.clearErr_arg1 (s : State) : (s.clearErr).arg1 = s.arg1 := rfl
@[simp] theorem State.clearErr_arg2 (s : State) : (s.clearErr).arg2 = s.arg2 := rfl
@[simp] theorem State.clearErr_arg3 (s : State) : (s.clearErr).arg3 = s.arg3 := rfl
@[simp] theorem State.clearErr_res (s : State) : (s.clearErr).res = s.res := rfl
@[simp] theorem State.clearErr_hostIp (s : State) : (s.clearErr).hostIp = s.hostIp := rfl
@[simp] theorem State.clearErr_bcastIp (s : State) : (s.clearErr).bcastIp = s.bcastIp := rfl
@[simp] theorem State.clearErr_gatewayIp (s : State) : (s.clearErr).gatewayIp = s.gatewayIp := rfl
@[simp] theorem State.clearErr_evq (s : State) : (s.clearErr).evq = s.evq := rfl
@[simp] theorem State.clearErr_portOpen (s : State) : (s.clearErr).portOpen = s.portOpen := rfl
@[simp] theorem State.clearErr_table (s : State) : (s.clearErr).table = s.table := rfl
@[simp] theorem State.clearErr_mem (s : State) : (s.clearErr).mem = s.mem := rfl
@[simp] theorem State.clearErr_isnFeed (s : State) : (s.clearErr).isnFeed = s.isnFeed := rfl
@[simp] theorem State.clearErr_isnDrawn (s : State) : (s.clearErr).isnDrawn = s.isnDrawn := rfl
@[simp] theorem State.clearErr_inputs (s : State) : (s.clearErr).inputs = s.inputs := rfl
@[simp] theorem State.clearErr_readData (s : State) : (s.clearErr).readData = s.readData := rfl

/-! ### hostReset: reset (R143, R144) -/

@[simp] theorem State.hostReset_params (s : State) : (s.hostReset).params = s.params := rfl
@[simp] theorem State.hostReset_cfgLock (s : State) : (s.hostReset).cfgLock = false := rfl
@[simp] theorem State.hostReset_code (s : State) : (s.hostReset).code = .ok := rfl
@[simp] theorem State.hostReset_err (s : State) : (s.hostReset).err = false := rfl
@[simp] theorem State.hostReset_cmd (s : State) : (s.hostReset).cmd = 0#32 := rfl
@[simp] theorem State.hostReset_evqPop (s : State) : (s.hostReset).evqPop = 0#32 := rfl
@[simp] theorem State.hostReset_arg0 (s : State) : (s.hostReset).arg0 = 0#32 := rfl
@[simp] theorem State.hostReset_arg1 (s : State) : (s.hostReset).arg1 = 0#32 := rfl
@[simp] theorem State.hostReset_arg2 (s : State) : (s.hostReset).arg2 = 0#32 := rfl
@[simp] theorem State.hostReset_arg3 (s : State) : (s.hostReset).arg3 = 0#32 := rfl
@[simp] theorem State.hostReset_res (s : State) : (s.hostReset).res = {} := rfl
@[simp] theorem State.hostReset_hostIp (s : State) : (s.hostReset).hostIp = 0#32 := rfl
@[simp] theorem State.hostReset_bcastIp (s : State) : (s.hostReset).bcastIp = 0#32 := rfl
@[simp] theorem State.hostReset_gatewayIp (s : State) : (s.hostReset).gatewayIp = 0#32 := rfl
@[simp] theorem State.hostReset_evq (s : State) : (s.hostReset).evq = [] := rfl
@[simp] theorem State.hostReset_portOpen (s : State) : (s.hostReset).portOpen = [] := rfl
@[simp] theorem State.hostReset_table (s : State) : (s.hostReset).table = List.replicate s.params.handles (Entry.empty s.params.maxUnacked) := rfl
@[simp] theorem State.hostReset_mem (s : State) : (s.hostReset).mem = s.mem := rfl
@[simp] theorem State.hostReset_isnFeed (s : State) : (s.hostReset).isnFeed = s.isnFeed := rfl
@[simp] theorem State.hostReset_isnDrawn (s : State) : (s.hostReset).isnDrawn = s.isnDrawn := rfl
@[simp] theorem State.hostReset_inputs (s : State) : (s.hostReset).inputs = s.inputs := rfl
@[simp] theorem State.hostReset_readData (s : State) : (s.hostReset).readData = s.readData := rfl

/-! ### Reading an entry after an update -/

@[simp] theorem State.entry_emit (s : State) (e : Event) (h : Nat) : (s.emit e).entry h = s.entry h := rfl
@[simp] theorem State.entry_emitAll (s : State) (es : List Event) (h : Nat) : (s.emitAll es).entry h = s.entry h := rfl
@[simp] theorem State.entry_drawIsn (s : State) (h : Nat) : s.drawIsn.entry h = s.entry h := rfl
@[simp] theorem State.entry_raise (e : CmdError) (s : State) (h : Nat) : (s.raise e).entry h = s.entry h := rfl
@[simp] theorem State.entry_finish (r : Results) (s : State) (h : Nat) : (s.finish r).entry h = s.entry h := rfl

/-- The entry just written, where the handle lies in the table. -/
theorem State.entry_setEntry_self {s : State} {h : Nat} (e : Entry) (hh : h < s.table.length) :
    (s.setEntry h e).entry h = e := by
  simp [State.entry, List.getD_eq_getElem?_getD, hh]

/-- Every other entry is as before. -/
theorem State.entry_setEntry_ne {s : State} {h h' : Nat} (e : Entry) (hne : h ≠ h') :
    (s.setEntry h e).entry h' = s.entry h' := by
  simp [State.entry, List.getD_eq_getElem?_getD, hne]

/-- A table with one entry replaced, in any state: every other entry is as before. -/
theorem State.entry_of_set {s t : State} {h k : Nat} {e : Entry} (ht : t.table = s.table.set h e)
    (hp : t.params = s.params) (hne : h ≠ k) : t.entry k = s.entry k := by
  simp [State.entry, ht, hp, List.getD_eq_getElem?_getD, hne]

/-- A table with one entry replaced, in any state: the entry replaced. -/
theorem State.entry_of_set_self {s t : State} {h : Nat} {e : Entry} (ht : t.table = s.table.set h e)
    (hh : h < s.table.length) : t.entry h = e := by
  simp [State.entry, ht, List.getD_eq_getElem?_getD, hh]

/-- Past the table's end an entry reads as the empty one, which is not valid. -/
theorem State.lt_of_valid {s : State} {h : Nat} (hv : (s.entry h).valid = true) : h < s.table.length := by
  by_contra hn
  simp [State.entry, List.getD_eq_getElem?_getD, List.getElem?_eq_none (Nat.le_of_not_lt hn), Entry.empty] at hv

/-- An entry inside the table is one of its elements. -/
theorem State.entry_mem {s : State} {h : Nat} (hh : h < s.table.length) : s.entry h ∈ s.table := by
  simp [State.entry, List.getD_eq_getElem?_getD, hh]

end Sys2Proof.Machine
end

