-- ==== Sys2Proof/Laws/Launch.lean ====
section
/-!
SUPPORT. The launch of a command, said once: each command is launch applied to its body, and what that can come to
(45_host_control.md R119, 60_exceptions.md R130, 10_state.md R22).
-/

namespace Sys2Proof.Machine

/-- The body of each command. -/
def bodyOf : Instr → State → Body
  | .nop => nopBody
  | .cksum => cksumBody
  | .pseudo => pseudoBody
  | .destClass => destClassBody
  | .ethClassify => ethClassifyBody
  | .ipv4Rx => ipv4RxBody
  | .rxFrame => rxFrameBody
  | .tcpHash => tcpHashBody
  | .tcpLookup => tcpLookupBody
  | .tcpAlloc => tcpAllocBody
  | .tcpClear => tcpClearBody
  | .tcpRx => tcpRxBody
  | .tcpSend => tcpSendBody
  | .ageTick => ageTickBody

/-- Every command is the launch of its body (R119). -/
theorem exec_eq_launch (i : Instr) (s : State) : exec i s = launch i (bodyOf i) s := by
  cases i <;> rfl

/-- A command that passes its launch checks ends as its body says. -/
theorem exec_of_launchError_none {i : Instr} {s : State} (h : launchError i s = none) :
    exec i s = .next (s.conclude (bodyOf i s)) := by
  rw [exec_eq_launch, launch, h]

/-- A command that a launch check turns away changes only STATUS (R130). -/
theorem exec_of_launchError_some {i : Instr} {s : State} {e : CmdError} (h : launchError i s = some e) :
    exec i s = .next (s.raise e) := by
  rw [exec_eq_launch, launch, h]

/-- The inversion of a command: STATUS alone is written, or the body's state and results are committed (R130, R22). -/
theorem exec_cases {i : Instr} {s t : State} (h : exec i s = .next t) :
    (∃ e, t = s.raise e) ∨ ∃ u r, launchError i s = none ∧ bodyOf i s = .ok (u, r) ∧ t = u.finish r := by
  rw [exec_eq_launch, launch] at h
  split at h
  next e _ => exact .inl ⟨e, by injection h with h; exact h.symm⟩
  next hn =>
    injection h with h
    cases hb : bodyOf i s with
    | error e => exact .inl ⟨e, by rw [hb] at h; exact h.symm⟩
    | ok x =>
      obtain ⟨u, r⟩ := x
      exact .inr ⟨u, r, hn, rfl, by rw [hb] at h; exact h.symm⟩

/-- The inversion of a command that ended with OK. -/
theorem exec_ok {i : Instr} {s t : State} (h : exec i s = .next t) (hok : t.code = .ok) :
    ∃ u r, launchError i s = none ∧ bodyOf i s = .ok (u, r) ∧ t = u.finish r := by
  rcases exec_cases h with ⟨e, rfl⟩ | h
  · simp at hok
  · exact h

/-- No command faults or is refused. -/
theorem exec_next (i : Instr) (s : State) : ∃ t, exec i s = .next t := by
  cases h : launchError i s with
  | none => exact ⟨_, exec_of_launchError_none h⟩
  | some e => exact ⟨_, exec_of_launchError_some h⟩

/-- The launch checks in their order, as a chain of propositions (R119). -/
theorem launchError_eq (i : Instr) (s : State) : launchError i s =
    if needsConfig i = true ∧ s.cfgLock = false then some .notConfigured
    else if takesHandle i = true ∧ s.params.handles ≤ s.arg0.toNat then some .badHandle
    else if s.params.evqDepth - s.evq.length < worstEvents s.params i then some .evqFull
    else none := by
  simp only [launchError, Bool.and_eq_true, Bool.not_eq_true', decide_eq_true_eq]
  rfl

/-- The launch checks that pass (R119). -/
theorem launchError_eq_none {i : Instr} {s : State} : launchError i s = none ↔
    (needsConfig i = true → s.cfgLock = true) ∧ (takesHandle i = true → s.arg0.toNat < s.params.handles) ∧
      worstEvents s.params i ≤ s.evqFree := by
  unfold launchError
  rcases Nat.lt_or_ge s.arg0.toNat s.params.handles with hh | hh <;>
    cases needsConfig i <;> cases takesHandle i <;> cases s.cfgLock <;> simp [hh, Nat.not_le.2, Nat.not_lt.2]

/-- Room in the queue, in the claims' words (R28). -/
theorem State.HasRoom.le_evqFree {s : State} {n : Nat} (h : s.HasRoom n) : n ≤ s.evqFree := by
  have : s.evq.length + n ≤ s.params.evqDepth := h
  unfold State.evqFree
  omega

/-- A step by the host's next access (R119). -/
theorem step_cases {s t : State} (h : step s = .next t) :
    (∃ i u, takeNext s = .command i u ∧ exec i u = .next t) ∨ takeNext s = .done (.next t) := by
  unfold step at h
  split at h
  next o ho => exact .inr (by rw [ho, h])
  next i u hc => exact .inl ⟨i, u, hc, h⟩

end Sys2Proof.Machine
end

