-- ==== Sys2Proof/Laws/Cells.lean ====
section
/-!
SUPPORT. Sparse data: a read after a write, and that every operation keeps the canonical form. Buffer memory and the port
words are both of this kind.
-/

namespace Sys2Proof.Machine

/-- A read after a write to the same address gives the value written. -/
theorem Cells.read_write_self {n : Nat} (m : List (Nat × BitVec n)) (a : Nat) (v : BitVec n)
    (hs : m.Pairwise fun x y => x.1 < y.1) : Cells.read (Cells.write m a v) a = v := by
  induction m with
  | nil => by_cases hv : v = Cells.unlisted n <;> simp [Cells.write, Cells.read, hv]
  | cons c m ih =>
    obtain ⟨k, u⟩ := c
    rw [List.pairwise_cons] at hs
    have hnone : ∀ l : List (Nat × BitVec n), (∀ c ∈ l, a < c.1) → Cells.read l a = Cells.unlisted n := by
      intro l hl
      induction l with
      | nil => rfl
      | cons d l ihl =>
        have hd := hl d (by simp)
        rw [Cells.read, if_neg (by omega)]
        exact ihl fun c hc => hl c (by simp [hc])
    simp only [Cells.write]
    split
    next hlt =>
      split
      next hv =>
        rw [hv]
        refine hnone _ fun c hc => ?_
        rcases List.mem_cons.1 hc with rfl | hc
        · exact hlt
        · exact Nat.lt_trans hlt (hs.1 c hc)
      next => simp [Cells.read]
    next hlt =>
      split
      next heq =>
        split
        next hv =>
          rw [hv]
          exact hnone _ fun c hc => heq ▸ hs.1 c hc
        next => simp [Cells.read]
      next hne => rw [Cells.read, if_neg hne]; exact ih hs.2

/-- A write leaves every other address alone. -/
theorem Cells.read_write_ne {n : Nat} (m : List (Nat × BitVec n)) {a b : Nat} (v : BitVec n) (h : b ≠ a) :
    Cells.read (Cells.write m a v) b = Cells.read m b := by
  induction m with
  | nil => by_cases hv : v = Cells.unlisted n <;> simp [Cells.write, Cells.read, hv, h]
  | cons c m ih =>
    obtain ⟨k, u⟩ := c
    simp only [Cells.write]
    split
    · split <;> simp [Cells.read, h]
    · split
      next heq => subst heq; split <;> simp [Cells.read, h]
      next => simp only [Cells.read, ih]

/-- What a write can put into the list. -/
theorem Cells.mem_write {n : Nat} {m : List (Nat × BitVec n)} {a : Nat} {v : BitVec n} {c : Nat × BitVec n}
    (hc : c ∈ Cells.write m a v) : (c = (a, v) ∧ v ≠ Cells.unlisted n) ∨ c ∈ m := by
  induction m with
  | nil =>
    simp only [Cells.write] at hc
    split at hc
    · simp at hc
    next hv => exact .inl ⟨by simpa using hc, hv⟩
  | cons d m ih =>
    obtain ⟨k, u⟩ := d
    simp only [Cells.write] at hc
    split at hc
    · split at hc
      · exact .inr hc
      next hv =>
        rcases List.mem_cons.1 hc with h | h
        · exact .inl ⟨h, hv⟩
        · exact .inr h
    · split at hc
      · split at hc
        · exact .inr (List.mem_cons_of_mem _ hc)
        next hv =>
          rcases List.mem_cons.1 hc with h | h
          · exact .inl ⟨h, hv⟩
          · exact .inr (List.mem_cons_of_mem _ h)
      · rcases List.mem_cons.1 hc with h | h
        · exact .inr (by simp [h])
        · rcases ih h with h | h
          · exact .inl h
          · exact .inr (List.mem_cons_of_mem _ h)

/-- A write keeps the canonical form. -/
theorem Cells.wf_write {n : Nat} {m : List (Nat × BitVec n)} (a : Nat) (v : BitVec n) (h : Cells.Wf m) :
    Cells.Wf (Cells.write m a v) := by
  refine ⟨?_, fun c hc => ?_⟩
  · obtain ⟨hs, -⟩ := h
    induction m with
    | nil => by_cases hv : v = Cells.unlisted n <;> simp [Cells.write, hv]
    | cons d m ih =>
      obtain ⟨k, u⟩ := d
      have hs' := hs
      rw [List.pairwise_cons] at hs
      simp only [Cells.write]
      split
      next hlt =>
        split
        · exact hs'
        · refine List.pairwise_cons.2 ⟨fun c hc => ?_, hs'⟩
          rcases List.mem_cons.1 hc with rfl | hc
          · exact hlt
          · exact Nat.lt_trans hlt (hs.1 c hc)
      next hlt =>
        split
        next heq =>
          split
          · exact hs.2
          · exact List.pairwise_cons.2 ⟨fun c hc => heq ▸ hs.1 c hc, hs.2⟩
        next hne =>
          refine List.pairwise_cons.2 ⟨fun c hc => ?_, ih hs.2⟩
          rcases Cells.mem_write hc with ⟨rfl, -⟩ | hc
          · show k < a
            omega
          · exact hs.1 c hc
  · rcases Cells.mem_write hc with ⟨rfl, hv⟩ | hc
    · exact hv
    · exact h.2 c hc

/-! ### Buffer memory -/

theorem Memory.byte_setByte_self {m : Memory} (h : Memory.wf m) (a : Nat) (v : Byte) :
    (m.setByte a v).byte a = v := Cells.read_write_self m a v h.1

theorem Memory.byte_setByte_ne (m : Memory) {a b : Nat} (v : Byte) (h : b ≠ a) :
    (m.setByte a v).byte b = m.byte b := Cells.read_write_ne m v h

/-- Memory has the canonical form after reset: nothing is listed. -/
theorem Memory.wf_reset : Memory.wf State.reset.mem := by decide

/-- The write of a byte keeps the canonical form. -/
theorem Memory.wf_setByte {m : Memory} (a : Nat) (v : Byte) (h : Memory.wf m) : Memory.wf (m.setByte a v) :=
  Cells.wf_write a v h

/-- The write of a 16-bit number keeps the canonical form. -/
theorem Memory.wf_setBe16 {m : Memory} (a : Nat) (v : Half) (h : Memory.wf m) : Memory.wf (m.setBe16 a v) :=
  Memory.wf_setByte _ _ (Memory.wf_setByte _ _ h)

/-- Every byte but the two written is as before. -/
theorem Memory.byte_setBe16_ne (m : Memory) {a b : Nat} (v : Half) (h : b ≠ a) (h' : b ≠ a + 1) :
    (m.setBe16 a v).byte b = m.byte b := by
  rw [Memory.setBe16, Memory.byte_setByte_ne _ _ h', Memory.byte_setByte_ne _ _ h]

/-- The 16-bit number just written. -/
theorem Memory.be16_setBe16_self {m : Memory} (h : Memory.wf m) (a : Nat) (v : Half) :
    (m.setBe16 a v).be16 a = v := by
  rw [Memory.be16, Memory.setBe16, Memory.byte_setByte_self (Memory.wf_setByte _ _ h),
    Memory.byte_setByte_ne _ _ (by omega), Memory.byte_setByte_self h]
  exact BitVec.eq_of_getLsbD_eq fun i hi => by
    simp only [BitVec.getLsbD_append, BitVec.getLsbD_extractLsb']
    split
    · next h8 => simp [h8]
    · next h8 =>
      have h1 : i - 8 < 8 := by omega
      have h2 : 8 + (i - 8) = i := by omega
      simp [h1, h2]

/-- A segment's new checksum field keeps the canonical form. -/
theorem wf_sealSegment {m : Memory} (hostIp remoteIp : Word) (buf len : Nat) (h : Memory.wf m) :
    Memory.wf (sealSegment m hostIp remoteIp buf len) :=
  Memory.wf_setBe16 _ _ (Memory.wf_setBe16 _ _ h)

/-- Every byte but the checksum field is as before (R46). -/
theorem byte_sealSegment_ne (m : Memory) (hostIp remoteIp : Word) (buf len : Nat) {a : Nat} (h : a ≠ buf + 16)
    (h' : a ≠ buf + 17) : (sealSegment m hostIp remoteIp buf len).byte a = m.byte a := by
  rw [sealSegment, Memory.byte_setBe16_ne _ _ h h', Memory.byte_setBe16_ne _ _ h h']

/-- What a write of a checksum field can list. -/
theorem mem_sealSegment {m : Memory} {hostIp remoteIp : Word} {buf len : Nat} {c : Host.Cell}
    (hc : c ∈ sealSegment m hostIp remoteIp buf len) : c.1 = buf + 16 ∨ c.1 = buf + 17 ∨ c ∈ m := by
  have key : ∀ {m : Memory} {a : Nat} {v : Half}, c ∈ m.setBe16 a v → c.1 = a ∨ c.1 = a + 1 ∨ c ∈ m := by
    intro m a v hc
    rcases Cells.mem_write (n := 8) hc with ⟨rfl, -⟩ | hc
    · exact .inr (.inl rfl)
    · rcases Cells.mem_write (n := 8) hc with ⟨rfl, -⟩ | hc
      · exact .inl rfl
      · exact .inr (.inr hc)
  rcases key hc with h | h | h
  · exact .inl h
  · exact .inr (.inl h)
  · exact key h

/-- The window check of R41 in the claims' words. -/
theorem inWindow_iff (p : Params) (a n : Nat) : inWindow p a n = true ↔ Fits p a n := by
  simp only [inWindow, Fits, Bool.or_eq_true, beq_iff_eq, Bool.and_eq_true, decide_eq_true_eq]
  omega

end Sys2Proof.Machine
end

