-- ==== Sys2Proof/Laws/Checksum.lean ====
section
/-!
SUPPORT. The checksum kernel in numbers: per-step folding gives the folded total (40_checksum.md R69 item 4).
-/

namespace Sys2Proof.Machine

/-- onesSum in its two cases, for omega. -/
theorem onesSum_spec (t : Nat) :
    (t = 0 ∧ onesSum t = 0) ∨ (0 < t ∧ onesSum t = (t - 1) % 0xFFFF + 1) := by
  unfold onesSum
  split <;> omega

/-- A folded total fits 16 bits (R13). -/
theorem onesSum_lt (t : Nat) : onesSum t < 65536 := by
  have := onesSum_spec t
  omega

/-- A 16-bit number is its own folded total. -/
theorem onesSum_of_lt {t : Nat} (h : t < 65536) : onesSum t = t := by
  have := onesSum_spec t
  omega

/-- Folding early or late gives the same value (R69 item 4). -/
theorem onesSum_add (a b : Nat) : onesSum (onesSum a + b) = onesSum (a + b) := by
  have h1 := onesSum_spec a
  have h2 := onesSum_spec (onesSum a + b)
  have h3 := onesSum_spec (a + b)
  rcases h1 with ⟨h1, h1'⟩ | ⟨h1, h1'⟩
  · rw [h1', h1]
  · rcases h2 with ⟨h2, h2'⟩ | ⟨h2, h2'⟩
    · omega
    · rcases h3 with ⟨h3, h3'⟩ | ⟨h3, h3'⟩
      · omega
      · rw [h2', h3', h1']
        congr 1
        have : a + b - 1 = (a - 1) + b := by omega
        rw [this]
        have : (a - 1) % 0xFFFF + 1 + b - 1 = (a - 1) % 0xFFFF + b := by omega
        rw [this, Nat.mod_add_mod]

/-- oc_add in numbers (R13). -/
theorem ocAdd_toNat (s w : Half) : (ocAdd s w).toNat = onesSum (s.toNat + w.toNat) := by
  have hs := s.isLt
  have hw := w.isLt
  have h := onesSum_spec (s.toNat + w.toNat)
  simp only [ocAdd]
  split
  · have hand : (s.toNat + w.toNat) &&& 0xFFFF = (s.toNat + w.toNat) % 65536 :=
      Nat.and_two_pow_sub_one_eq_mod _ 16
    rw [hand, BitVec.toNat_ofNat]
    omega
  · rw [BitVec.toNat_ofNat]
    omega

/-- The total of a list of bytes as big-endian words: the first byte counts 256 times if hi, else once. -/
def bytesTotal : Bool → List Byte → Nat
  | _, [] => 0
  | hi, b :: bs => b.toNat * (if hi then 256 else 1) + bytesTotal (!hi) bs

theorem wordBytes_toNat (b c : Byte) : (b ++ c).toNat = b.toNat * 256 + c.toNat := by
  have hc := c.isLt
  rw [BitVec.toNat_append, Nat.shiftLeft_eq, show 2 ^ 8 = 256 from rfl, Nat.mul_comm]
  exact (Nat.two_pow_add_eq_or_of_lt (i := 8) hc b.toNat).symm

/-- be16 in numbers (R12, R44). -/
theorem Memory.be16_toNat (m : Memory) (a : Nat) :
    (m.be16 a).toNat = (m.byte a).toNat * 256 + (m.byte (a + 1)).toNat := wordBytes_toNat _ _

/-- Two 16-bit numbers side by side. -/
theorem wordHalves_toNat (b c : Half) : (b ++ c).toNat = b.toNat * 65536 + c.toNat := by
  have hc := c.isLt
  rw [BitVec.toNat_append, Nat.shiftLeft_eq, show 2 ^ 16 = 65536 from rfl, Nat.mul_comm]
  exact (Nat.two_pow_add_eq_or_of_lt (i := 16) hc b.toNat).symm

/-- be32 in numbers (R12, R44). -/
theorem Memory.be32_toNat (m : Memory) (a : Nat) :
    (m.be32 a).toNat = (((m.byte a).toNat * 256 + (m.byte (a + 1)).toNat) * 256 + (m.byte (a + 2)).toNat) * 256 +
      (m.byte (a + 3)).toNat := by
  rw [Memory.be32, wordHalves_toNat, Memory.be16_toNat, Memory.be16_toNat,
    show a + 2 + 1 = a + 3 from rfl]
  omega

/-- The kernel's sum is the folded total of its bytes (R69 item 4). -/
theorem cksumBytes_toNat (bs : List Byte) (s : Half) :
    (cksumBytes bs s).toNat = onesSum (s.toNat + bytesTotal true bs) := by
  fun_induction cksumBytes bs s with
  | case1 s => exact (onesSum_of_lt s.isLt).symm
  | case2 s b =>
    rw [ocAdd_toNat, wordBytes_toNat]
    simp [bytesTotal]
  | case3 s b c rest ih =>
    rw [ih, ocAdd_toNat, wordBytes_toNat, onesSum_add]
    simp only [bytesTotal, Bool.not_true, Bool.not_false, if_true, Bool.false_eq_true, if_false]
    congr 1
    omega

/-- The total of a region, read byte by byte, is that of its list of bytes. -/
theorem regionTotal_eq (m : Memory) (a n : Nat) : regionTotal m a n = bytesTotal true (m.bytes a n) := by
  have key : ∀ (n k : Nat) (hi : Bool), hi = decide (k % 2 = 0) →
      bytesTotal hi ((List.range' k n).map fun i => m.byte (a + i)) =
        ((List.range' k n).map fun i => (m.byte (a + i)).toNat * (if i % 2 = 0 then 256 else 1)).sum := by
    intro n
    induction n with
    | zero => intro k hi _; rfl
    | succ n ih =>
      intro k hi hk
      simp only [List.range'_succ, List.map_cons, bytesTotal, List.sum_cons]
      rw [ih (k + 1) (!hi) (by subst hk; rcases Nat.mod_two_eq_zero_or_one k with h | h <;> simp [h] <;> omega)]
      subst hk
      by_cases h : k % 2 = 0 <;> simp [h]
  rw [regionTotal, Memory.bytes, List.range_eq_range', key n 0 true rfl]

/-- cksum in numbers (R65, R69 item 4). -/
theorem cksum_toNat (m : Memory) (a n : Nat) (init : Half) :
    (cksum m a n init).toNat = onesSum (init.toNat + regionTotal m a n) := by
  rw [cksum, cksumBytes_toNat, regionTotal_eq]

/-- The prelude in numbers (R66). -/
theorem pseudoSum_toNat (src dst : Word) (proto : Byte) (len : Half) :
    (pseudoSum src dst proto len).toNat =
      onesSum (src.toNat / 65536 + src.toNat % 65536 + dst.toNat / 65536 + dst.toNat % 65536 + proto.toNat +
        len.toNat) := by
  have hhi : ∀ w : Word, (w.extractLsb' 16 16).toNat = w.toNat / 65536 := by
    intro w
    have := w.isLt
    rw [BitVec.extractLsb'_toNat, Nat.shiftRight_eq_div_pow]
    omega
  have hlo : ∀ w : Word, (w.extractLsb' 0 16).toNat = w.toNat % 65536 := by
    intro w
    rw [BitVec.extractLsb'_toNat, Nat.shiftRight_zero]
  have hp : (0#8 ++ proto : Half).toNat = proto.toNat := by
    rw [wordBytes_toNat]; simp
  simp only [pseudoSum, ocAdd_toNat, onesSum_add, hhi, hlo]
  rw [hp, BitVec.toNat_ofNat, Nat.zero_mod, Nat.zero_add]

/-- Two regions with the same bytes have the same sum. -/
theorem cksum_congr {m m' : Memory} {a n : Nat} (init : Half) (h : ∀ i < n, m.byte (a + i) = m'.byte (a + i)) :
    cksum m a n init = cksum m' a n init := by
  simp only [cksum, Memory.bytes]
  congr 1
  exact List.map_congr_left fun i hi => h i (List.mem_range.1 hi)

end Sys2Proof.Machine
end

