-- ==== Sys2Proof/Laws/Table.lean ====
section
/-!
SUPPORT. The socket table's shared operations, each with what it can do, once: lookup, the free way, alloc, release and
clear (42_socket_table.md R85 to R89).
-/

namespace Sys2Proof.Machine

/-- The hash yields a line of the table (R86). -/
theorem hashLine_lt {p : Params} (h : 0 < p.tableLines) (t : Tuple) : hashLine p t < p.tableLines := by
  unfold hashLine
  split <;> exact Nat.mod_lt _ h

/-- The handles of a line lie in the table (R85). -/
theorem probe_lt {p : Params} {w line : Nat} (hw : w < p.tableWays) (hl : line < p.tableLines) :
    w * p.tableLines + line < p.handles := by
  have h : (w + 1) * p.tableLines ≤ p.tableWays * p.tableLines := Nat.mul_le_mul_right _ hw
  rw [Nat.add_mul] at h
  unfold Params.handles
  omega

/-- An entry holds a tuple where it is valid and its tuple is that one (R87). -/
theorem Entry.holds_iff (e : Entry) (t : Tuple) : e.holds t = true ↔ e.valid = true ∧ e.tuple = t := by
  obtain ⟨ip, lp, rp⟩ := t
  simp [Entry.holds, Entry.tuple, and_assoc]

/-- The first probe that meets a test, by way number (R85). -/
theorem find_probes_some {p : Params} {line : Nat} {test : Nat → Bool} {h : Nat}
    (hf : (probes p line).find? test = some h) :
    ∃ w, w < p.tableWays ∧ h = w * p.tableLines + line ∧ test h = true ∧
      ∀ v, v < w → test (v * p.tableLines + line) = false := by
  rw [probes, List.find?_map] at hf
  obtain ⟨w, hw, rfl⟩ := Option.map_eq_some_iff.1 hf
  rw [List.find?_range_eq_some] at hw
  obtain ⟨ht, hmem, hmin⟩ := hw
  exact ⟨w, List.mem_range.1 hmem, rfl, ht, fun v hv => by simpa using hmin v hv⟩

/-- The converse of find_probes_some. -/
theorem find_probes_eq_some {p : Params} {line : Nat} {test : Nat → Bool} {w : Nat} (hw : w < p.tableWays)
    (ht : test (w * p.tableLines + line) = true) (hmin : ∀ v, v < w → test (v * p.tableLines + line) = false) :
    (probes p line).find? test = some (w * p.tableLines + line) := by
  rw [probes, List.find?_map, Option.map_eq_some_iff]
  refine ⟨w, ?_, rfl⟩
  rw [List.find?_range_eq_some]
  exact ⟨ht, List.mem_range.2 hw, fun v hv => by simpa using hmin v hv⟩

/-- No probe meets the test. -/
theorem find_probes_eq_none {p : Params} {line : Nat} {test : Nat → Bool} :
    (probes p line).find? test = none ↔ ∀ w, w < p.tableWays → test (w * p.tableLines + line) = false := by
  simp [probes, List.find?_eq_none]

/-- What lookup finds (R87). -/
theorem State.lookup_some {s : State} {t : Tuple} {h : Nat} (hl : s.lookup t = some h) :
    (s.entry h).valid = true ∧ (s.entry h).tuple = t ∧ h < s.table.length ∧
      ∃ w, w < s.params.tableWays ∧ h = w * s.params.tableLines + hashLine s.params t := by
  obtain ⟨w, hw, rfl, ht, -⟩ := find_probes_some hl
  obtain ⟨hv, htup⟩ := (Entry.holds_iff _ _).1 ht
  exact ⟨hv, htup, State.lt_of_valid hv, w, hw, rfl⟩

/-- What lookup's null says (R87). -/
theorem State.lookup_none {s : State} {t : Tuple} : s.lookup t = none ↔
    ∀ w, w < s.params.tableWays → (s.entry (w * s.params.tableLines + hashLine s.params t)).holds t = false :=
  find_probes_eq_none

/-- The free way of a line (R88). -/
theorem State.freeHandle_some {s : State} {line h : Nat} (hf : s.freeHandle line = some h) :
    (s.entry h).valid = false ∧ ∃ w, w < s.params.tableWays ∧ h = w * s.params.tableLines + line := by
  obtain ⟨w, hw, rfl, ht, -⟩ := find_probes_some hf
  exact ⟨by simpa using ht, w, hw, rfl⟩

/-- lookup reads only the table and the parameters. -/
theorem State.lookup_congr {s t : State} (ht : t.table = s.table) (hp : t.params = s.params) (x : Tuple) :
    t.lookup x = s.lookup x := by
  simp only [State.lookup, State.entry, ht, hp]

/-- The release in list words (R89, R102): the slots selected become empty, the records come in ascending order. -/
theorem releaseSlots_eq (h : Nat) (pick : Slot → Bool) (k : Nat) (slots : List Slot) :
    releaseSlots h pick k slots =
      (slots.map fun sl => if sl.occupied && pick sl then Slot.empty else sl,
       ((slots.zipIdx k).filter fun x => x.1.occupied && pick x.1).map fun x => Event.bufRelease h x.2 x.1) := by
  induction slots generalizing k with
  | nil => rfl
  | cons sl rest ih =>
    simp only [releaseSlots, ih, List.map_cons, List.zipIdx_cons, List.filter_cons]
    by_cases hp : (sl.occupied && pick sl) = true
    · rw [if_pos hp, if_pos hp, if_pos hp]; rfl
    · rw [if_neg hp, if_neg hp, if_neg hp]

/-- The release records in the claims' words. -/
theorem releaseSlots_snd (h : Nat) (pick : Slot → Bool) (slots : List Slot) :
    (releaseSlots h pick 0 slots).2 = releaseRecords h pick slots := by
  rw [releaseSlots_eq, releaseRecords]
  refine List.map_congr_left fun x _ => ?_
  simp only [Event.bufRelease, BitVec.ofNat_toNat]

/-- At most one record per slot. -/
theorem releaseRecords_length_le (h : Nat) (pick : Slot → Bool) (slots : List Slot) :
    (releaseRecords h pick slots).length ≤ slots.length := by
  rw [releaseRecords, List.length_map]
  exact (List.length_filter_le _ _).trans (by simp)

/-- clear(h) in one record (R89). -/
theorem State.clearEntry_eq (s : State) (h : Nat) :
    s.clearEntry h = { s with
      evq := s.evq ++ releaseRecords h (fun _ => true) (s.entry h).unacked
      table := s.table.set h (Entry.empty s.params.maxUnacked) } := by
  rw [State.clearEntry, releaseSlots_snd]
  rfl

/-- What alloc can do (R88): refuse a duplicate, refuse a full line, or write a fresh entry into a free way. -/
theorem State.alloc_cases (s : State) (t : Tuple) :
    (∃ h, s.lookup t = some h ∧ s.alloc t = (s, none, .duplicate)) ∨
    (s.lookup t = none ∧ s.freeHandle (hashLine s.params t) = none ∧ s.alloc t = (s, none, .lineFull)) ∨
    (∃ h, s.lookup t = none ∧ s.freeHandle (hashLine s.params t) = some h ∧
      s.alloc t = (s.setEntry h (Entry.fresh s.params.maxUnacked t), some h, .allocated)) := by
  unfold State.alloc
  cases hl : s.lookup t with
  | some h => exact .inl ⟨h, rfl, rfl⟩
  | none =>
    cases hf : s.freeHandle (hashLine s.params t) with
    | none => exact .inr (.inl ⟨rfl, rfl, rfl⟩)
    | some h => exact .inr (.inr ⟨h, rfl, rfl, rfl⟩)

end Sys2Proof.Machine
end

