-- ==== Sys2Proof/Laws/TcpRx.lean ====
section
/-!
SUPPORT. TCP receive, branch by branch in one record each, and what the dispatcher as a whole can do
(43_tcp_dispatch.md R97 to R103).
-/

namespace Sys2Proof.Machine

/-- The words of a release test: seq_le by distance (R14). -/
theorem seqLe_eq (a b : Word) : seqLe a b = decide ((b.toNat + 2 ^ 32 - a.toNat) % 2 ^ 32 < 2 ^ 31) := by
  rw [seqLe, BitVec.toNat_sub]
  congr 1
  rw [show 2 ^ 32 - a.toNat + b.toNat = b.toNat + 2 ^ 32 - a.toNat by have := a.isLt; omega]

@[simp] theorem Segment.answer_verdict (g : Segment) (v : TcpVerdict) (h : Option Nat) : (g.answer v h).verdict = v := rfl
@[simp] theorem Segment.answer_handle (g : Segment) (v : TcpVerdict) (h : Option Nat) : (g.answer v h).handle = h := rfl
@[simp] theorem Segment.answer_ports (g : Segment) (v : TcpVerdict) (h : Option Nat) : (g.answer v h).ports = g.ports := rfl
@[simp] theorem Segment.dropped_verdict (g : Segment) (v : TcpVerdict) : (g.dropped v).verdict = v := rfl
@[simp] theorem Segment.dropped_handle (g : Segment) (v : TcpVerdict) : (g.dropped v).handle = none := rfl
@[simp] theorem Segment.dropped_ports (g : Segment) (v : TcpVerdict) : (g.dropped v).ports = g.ports := rfl

/-- The slots left after a release that pick selects (R102). -/
def keepSlots (pick : Slot → Bool) (slots : List Slot) : List Slot :=
  slots.map fun sl => if sl.occupied && pick sl then Slot.empty else sl

/-- The slots left after a release. -/
theorem releaseSlots_fst (h : Nat) (pick : Slot → Bool) (slots : List Slot) :
    (releaseSlots h pick 0 slots).1 = keepSlots pick slots := by
  rw [releaseSlots_eq, keepSlots]

/-- A release of all that is left after a first release: the slots the first one passed over. -/
theorem releaseRecords_keepSlots (h : Nat) (pick : Slot → Bool) (slots : List Slot) :
    releaseRecords h (fun _ => true) (keepSlots pick slots) = releaseRecords h (fun sl => !pick sl) slots := by
  simp only [releaseRecords, keepSlots, List.zipIdx_map, List.filter_map, List.map_map]
  have hf : ∀ x : Slot × Nat,
      ((fun x : Slot × Nat => x.1.occupied && true) ∘
        (Prod.map (fun sl => if sl.occupied && pick sl then Slot.empty else sl) id)) x =
      (x.1.occupied && !pick x.1) := by
    rintro ⟨sl, k⟩
    cases ho : sl.occupied <;> cases hp : pick sl <;> simp [ho, hp, Slot.empty]
  rw [List.filter_congr fun x _ => hf x]
  refine List.map_congr_left fun x hx => ?_
  have hx2 := (List.mem_filter.1 hx).2
  simp only [Bool.and_eq_true, Bool.not_eq_true'] at hx2
  simp [hx2.2]

/-- The RST branch on an existing connection (R99). -/
theorem State.rxRst_some {s : State} {g : Segment} {h : Nat} (hl : s.lookup g.tuple = some h) :
    s.rxRst g =
      ({ s with
         evq := s.evq ++ { kind := .closed, handle := BitVec.ofNat 16 h } ::
           releaseRecords h (fun _ => true) (s.entry h).unacked
         table := s.table.set h (Entry.empty s.params.maxUnacked) }, g.answer .rstCleared (some h)) := by
  simp only [State.rxRst, hl, State.clearEntry_eq, State.emit, Event.ofEntry, List.append_assoc, List.singleton_append]
  rfl

/-- The entry an accepted SYN writes (R100). -/
def acceptedEntry (s : State) (g : Segment) : Entry :=
  { valid := true, remoteIp := g.tuple.remoteIp, localPort := g.tuple.localPort, remotePort := g.tuple.remotePort,
    remoteSeq := seqAdd g.seq 1, remoteSeqSent := seqAdd g.seq 1, localSeq := seqAdd s.isn 1,
    localInitialSeq := s.isn, remoteInitialSeq := g.seq, idle := 0#16,
    unacked := List.replicate s.params.maxUnacked Slot.empty }

/-- The accepted SYN (R100). -/
theorem State.rxSyn_accepted {s : State} {g : Segment} {h : Nat} (hp : s.portIsOpen g.tuple.localPort = true)
    (hl : s.lookup g.tuple = none) (hf : s.freeHandle (hashLine s.params g.tuple) = some h) :
    s.rxSyn g =
      ({ s with
         evq := s.evq ++ [g.reply .replySynAck (BitVec.ofNat 16 h) s.isn (seqAdd g.seq 1) (mss s.params),
           { kind := .accepted, handle := BitVec.ofNat 16 h }]
         table := s.table.set h (acceptedEntry s g)
         isnFeed := s.isnFeed.tail
         isnDrawn := s.isnDrawn + 1 }, g.answer .synAccepted (some h)) := by
  have ha : s.alloc g.tuple = (s.setEntry h (Entry.fresh s.params.maxUnacked g.tuple), some h, .allocated) := by
    simp only [State.alloc, hl, hf]
    rfl
  simp only [State.rxSyn, hp, hl, ha, Bool.not_true, Bool.false_eq_true, if_false]
  refine Prod.ext ?_ rfl
  rcases Nat.lt_or_ge h s.table.length with hlt | hge
  · simp only [State.emit, State.drawIsn, State.setEntry, State.entry, Event.ofEntry, State.isn, List.set_set,
      List.append_assoc, List.singleton_append]
    rw [List.getD_eq_getElem?_getD, List.getElem?_set_self (by simpa using hlt)]
    rfl
  · simp only [State.emit, State.drawIsn, State.setEntry, State.entry, Event.ofEntry, State.isn,
      List.append_assoc, List.singleton_append, List.set_eq_of_length_le hge]

/-- The slots of an acknowledgement, in the claims' words (R102). -/
def covered (ack : Word) (sl : Slot) : Bool := seqLe sl.endSeq ack

/-- Steps 3 and 4 of the ACK branch (R101): releases, then the payload. -/
theorem State.rxDeliver_rxRelease {s : State} {h : Nat} (g : Segment) (hh : h < s.table.length) :
    (s.rxRelease h g.ack).rxDeliver h g =
      { s with
        evq := s.evq ++ (releaseRecords h (covered g.ack) (s.entry h).unacked ++
          if g.plen = 0 then []
          else [{ kind := .rxData, handle := BitVec.ofNat 16 h, w1 := g.paddr, w2 := BitVec.ofNat 32 g.plen }])
        table := s.table.set h
          { s.entry h with
            remoteSeq := seqAdd (s.entry h).remoteSeq g.plen
            unacked := keepSlots (covered g.ack) (s.entry h).unacked } } := by
  have hz : seqAdd (s.entry h).remoteSeq 0 = (s.entry h).remoteSeq := by simp [seqAdd]
  simp only [State.rxDeliver, State.rxRelease, releaseSlots_fst, releaseSlots_snd]
  by_cases hp : g.plen = 0
  · simp only [hp, if_true, hz, List.append_nil]
    rfl
  · simp only [hp, if_false]
    simp only [State.emit, State.emitAll, State.setEntry, State.entry, List.set_set, List.append_assoc]
    rw [List.getD_eq_getElem?_getD (l := s.table.set h _), List.getElem?_set_self hh]
    rfl

/-- The ACK branch on a segment that is not in order (R101). -/
theorem State.rxAck_outOfOrder {s : State} {g : Segment} {h : Nat} (hl : s.lookup g.tuple = some h)
    (hs : g.seq ≠ (s.entry h).remoteSeq) : s.rxAck g = (s, g.answer .dropOutOfOrder (some h)) := by
  simp only [State.rxAck, hl]
  rw [if_pos hs]

/-- The ACK branch on a segment in order, without FIN (R101 to R103). -/
theorem State.rxAck_inOrder {s : State} {g : Segment} {h : Nat} (hl : s.lookup g.tuple = some h)
    (hs : g.seq = (s.entry h).remoteSeq) (hfin : g.fin = false) :
    s.rxAck g =
      ({ s with
         evq := s.evq ++ (releaseRecords h (covered g.ack) (s.entry h).unacked ++
           if g.plen = 0 then []
           else [{ kind := .rxData, handle := BitVec.ofNat 16 h, w1 := g.paddr, w2 := BitVec.ofNat 32 g.plen },
             g.reply .replyAck (BitVec.ofNat 16 h) (s.entry h).localSeq (seqAdd (s.entry h).remoteSeq g.plen)])
         table := s.table.set h
           { s.entry h with
             remoteSeq := seqAdd (s.entry h).remoteSeq g.plen
             remoteSeqSent :=
               if g.plen = 0 then (s.entry h).remoteSeqSent else seqAdd (s.entry h).remoteSeq g.plen
             unacked := keepSlots (covered g.ack) (s.entry h).unacked } }, g.answer .ackProcessed (some h)) := by
  have hh := (State.lookup_some hl).2.2.1
  simp only [State.rxAck, hl]
  rw [if_neg (not_not.2 hs), State.rxDeliver_rxRelease g hh]
  simp only [hfin, Bool.false_eq_true, if_false]
  by_cases hp : g.plen = 0
  · simp only [hp, if_true]
  · simp only [hp, if_false]
    refine Prod.ext ?_ rfl
    simp only [State.rxSendAck, State.emit, State.setEntry, State.entry, List.set_set, List.append_assoc]
    rw [List.getD_eq_getElem?_getD (l := s.table.set h _), List.getElem?_set_self hh]
    rfl

/-- The ACK branch on a segment in order, with FIN (R101 step 5). -/
theorem State.rxAck_fin {s : State} {g : Segment} {h : Nat} (hl : s.lookup g.tuple = some h)
    (hs : g.seq = (s.entry h).remoteSeq) (hfin : g.fin = true) :
    s.rxAck g =
      ({ s with
         evq := s.evq ++ (releaseRecords h (covered g.ack) (s.entry h).unacked ++
           ((if g.plen = 0 then []
             else [{ kind := .rxData, handle := BitVec.ofNat 16 h, w1 := g.paddr, w2 := BitVec.ofNat 32 g.plen }]) ++
           ([{ kind := .closed, handle := BitVec.ofNat 16 h },
             g.reply .replyFinAck (BitVec.ofNat 16 h) (s.entry h).localSeq
               (seqAdd (seqAdd (s.entry h).remoteSeq g.plen) 1)] ++
           releaseRecords h (fun sl => !covered g.ack sl) (s.entry h).unacked)))
         table := s.table.set h (Entry.empty s.params.maxUnacked) }, g.answer .finClosed (some h)) := by
  have hh := (State.lookup_some hl).2.2.1
  simp only [State.rxAck, hl]
  rw [if_neg (not_not.2 hs), State.rxDeliver_rxRelease g hh, if_pos hfin]
  refine Prod.ext ?_ rfl
  simp only [State.rxFin, State.clearEntry_eq, State.emit, State.setEntry, State.entry, Event.ofEntry, List.set_set,
    List.append_assoc]
  rw [List.getD_eq_getElem?_getD (l := s.table.set h _), List.getElem?_set_self hh,
    List.getD_eq_getElem?_getD (l := s.table.set h _), List.getElem?_set_self hh]
  simp only [Option.getD_some, releaseRecords_keepSlots]
  rfl

/-- Everything the flag dispatch can do (R98 to R103): nothing; one RST+ACK; change the entry of a connection it found,
with at most TCP_MAX_UNACKED + 3 records; or accept a SYN. -/
theorem State.rxDispatch_cases (s : State) (g : Segment) :
    (∃ v h, v ≠ .synAccepted ∧ s.rxDispatch g = (s, g.answer v h)) ∨
    (∃ v, (v = .synPortClosed ∨ v = .synTableFull) ∧ s.rxDispatch g = (s.emit g.rstAck, g.answer v none)) ∨
    (∃ v h es e, (v = .rstCleared ∨ v = .ackProcessed ∨ v = .finClosed) ∧ s.lookup g.tuple = some h ∧
      es.length ≤ (s.entry h).unacked.length + 3 ∧
      (e = Entry.empty s.params.maxUnacked ∨
        ∃ a b, e = { s.entry h with
          remoteSeq := a, remoteSeqSent := b, unacked := keepSlots (covered g.ack) (s.entry h).unacked }) ∧
      s.rxDispatch g =
        ({ s with evq := s.evq ++ es, table := s.table.set h e }, g.answer v (some h))) ∨
    (∃ h, g.rst = false ∧ g.syn = true ∧ g.ackFlag = false ∧ s.lookup g.tuple = none ∧
      s.freeHandle (hashLine s.params g.tuple) = some h ∧
      s.rxDispatch g =
        ({ s with
           evq := s.evq ++ [g.reply .replySynAck (BitVec.ofNat 16 h) s.isn (seqAdd g.seq 1) (mss s.params),
             { kind := .accepted, handle := BitVec.ofNat 16 h }]
           table := s.table.set h (acceptedEntry s g)
           isnFeed := s.isnFeed.tail
           isnDrawn := s.isnDrawn + 1 }, g.answer .synAccepted (some h))) := by
  have hrel := releaseRecords_length_le
  have hsplit : ∀ (h : Nat) (p : Slot → Bool) (slots : List Slot),
      (releaseRecords h p slots).length + (releaseRecords h (fun sl => !p sl) slots).length ≤ slots.length := by
    intro h p slots
    simp only [releaseRecords, List.length_map]
    have h1 := List.length_eq_countP_add_countP (fun x : Slot × Nat => x.1.occupied && p x.1) (l := slots.zipIdx)
    have h2 : (slots.zipIdx.filter fun x => x.1.occupied && !p x.1).length ≤
        slots.zipIdx.countP fun x => decide ¬((x.1.occupied && p x.1) = true) := by
      rw [← List.countP_eq_length_filter]
      refine List.countP_mono_left fun x _ hx => ?_
      simp only [Bool.and_eq_true, Bool.not_eq_true'] at hx
      simp [hx.2]
    rw [← List.countP_eq_length_filter]
    simp only [List.length_zipIdx] at h1
    omega
  unfold State.rxDispatch
  split
  next =>
    cases hl : s.lookup g.tuple with
    | none => exact .inl ⟨.rstNoSocket, none, by decide, by simp [State.rxRst, hl]⟩
    | some h =>
      refine .inr (.inr (.inl ⟨.rstCleared, h, _, _, .inl rfl, rfl, ?_, .inl rfl, State.rxRst_some hl⟩))
      have := hrel h (fun _ => true) (s.entry h).unacked
      simp only [List.length_cons]
      omega
  next hrst =>
    split
    next hsyn =>
      simp only [Bool.and_eq_true, Bool.not_eq_true'] at hsyn
      by_cases hp : s.portIsOpen g.tuple.localPort = true
      · cases hl : s.lookup g.tuple with
        | some h => exact .inl ⟨.synDuplicate, some h, by decide, by simp [State.rxSyn, hp, hl]⟩
        | none =>
          cases hf : s.freeHandle (hashLine s.params g.tuple) with
          | none =>
            exact .inr (.inl ⟨.synTableFull, .inr rfl, by simp [State.rxSyn, hp, hl, State.alloc, hf]⟩)
          | some h =>
            exact .inr (.inr (.inr ⟨h, by simpa using hrst, hsyn.1, hsyn.2, rfl, rfl,
              State.rxSyn_accepted hp hl hf⟩))
      · exact .inr (.inl ⟨.synPortClosed, .inl rfl, by simp [State.rxSyn, hp]⟩)
    next =>
      split
      next =>
        cases hl : s.lookup g.tuple with
        | none => exact .inl ⟨.dropNoSocket, none, by decide, by simp [State.rxAck, hl]⟩
        | some h =>
          by_cases hs : g.seq = (s.entry h).remoteSeq
          · by_cases hfin : g.fin = true
            · refine .inr (.inr (.inl ⟨.finClosed, h, _, _, .inr (.inr rfl), rfl, ?_, .inl rfl,
                State.rxAck_fin hl hs hfin⟩))
              have := hsplit h (covered g.ack) (s.entry h).unacked
              simp only [List.length_append, List.length_cons, List.length_nil]
              split <;> simp only [List.length_cons, List.length_nil] <;> omega
            · refine .inr (.inr (.inl ⟨.ackProcessed, h, _, _, .inr (.inl rfl), rfl, ?_, .inr ⟨_, _, rfl⟩,
                State.rxAck_inOrder hl hs (by simpa using hfin)⟩))
              have := hrel h (covered g.ack) (s.entry h).unacked
              simp only [List.length_append]
              split <;> simp only [List.length_cons, List.length_nil] <;> omega
          · exact .inl ⟨.dropOutOfOrder, some h, by decide, State.rxAck_outOfOrder hl hs⟩
      next => exact .inl ⟨.dropNoFlags, none, by decide, rfl⟩

/-- Everything tcp_rx can do (R97): an access error, a drop before the dispatch, or the dispatch of a good segment. -/
theorem State.tcpRx_cases (s : State) (seg : Word) (slen : Nat) (rip : Word) (prelude : Half) :
    (20 ≤ slen ∧ ¬ Fits s.params seg.toNat slen ∧ s.tcpRx seg slen rip prelude = .error .memRange) ∨
    (∃ i, i.handle = none ∧ i.verdict ≠ .synAccepted ∧ s.tcpRx seg slen rip prelude = .ok (s, i)) ∨
    (20 ≤ slen ∧ Fits s.params seg.toNat slen ∧ cksum s.mem seg.toNat slen prelude = 0xFFFF#16 ∧
      5 ≤ (parseSegment s.mem seg slen rip).doff.toNat ∧ 4 * (parseSegment s.mem seg slen rip).doff.toNat ≤ slen ∧
      s.tcpRx seg slen rip prelude = .ok (s.rxDispatch (parseSegment s.mem seg slen rip))) := by
  unfold State.tcpRx
  split
  next => exact .inr (.inl ⟨_, rfl, by simp, rfl⟩)
  next h20 =>
    split
    next hw => exact .inl ⟨by omega, by rw [← inWindow_iff]; simpa using hw, rfl⟩
    next hw =>
      have hw' : Fits s.params seg.toNat slen := by rw [← inWindow_iff]; simpa using hw
      simp only
      split
      next => exact .inr (.inl ⟨_, rfl, by simp [Segment.dropped], rfl⟩)
      next hc =>
        split
        next => exact .inr (.inl ⟨_, rfl, by simp [Segment.dropped], rfl⟩)
        next hd => exact .inr (.inr ⟨by omega, hw', by simpa using hc, by omega, by omega, rfl⟩)

end Sys2Proof.Machine
end

