-- ==== Sys2Proof/Laws/Bodies.lean ====
section
/-!
SUPPORT. The receive stages by what they can answer (41_ipv4_rx.md R78, R80, R84), and what the bodies of all commands
have in common: the one error a body raises, and the state it may change.
-/

namespace Sys2Proof.Machine

/-- What the Ethernet classifier answers (R78). -/
theorem ethCheck_cases (s : State) (f flen : Word) :
    (flen.toNat < 14 ∧
      ethCheck s f flen = .ok { verdict := .runt, etherType := 0#16, payload := 0#32, payloadLen := 0#32 }) ∨
    (14 ≤ flen.toNat ∧ ¬ Fits s.params f.toNat 14 ∧ ethCheck s f flen = .error .memRange) ∨
    (14 ≤ flen.toNat ∧ Fits s.params f.toNat 14 ∧
      ethCheck s f flen = .ok
        { verdict := if s.mem.be16 (f.toNat + 12) = 0x0800#16 then .ipv4 else .notIpv4,
          etherType := s.mem.be16 (f.toNat + 12), payload := f + 14#32, payloadLen := flen - 14#32 }) := by
  unfold ethCheck
  split
  next h => exact .inl ⟨h, rfl⟩
  next h =>
    split
    next hw => exact .inr (.inr ⟨by omega, (inWindow_iff _ _ _).1 hw, rfl⟩)
    next hw => exact .inr (.inl ⟨by omega, fun hf => hw ((inWindow_iff _ _ _).2 hf), rfl⟩)

/-- What the IPv4 checks answer for a packet in buffer memory (R80). -/
def ipv4Answer (s : State) (p eplen : Word) : Ipv4Info :=
  let h := ipv4Header s.mem p.toNat
  let cls := destClassOf s.hostIp s.bcastIp h.dst
  let v := ipv4Verdict (cksum s.mem p.toNat (ipv4HeaderLen (s.mem.byte p.toNat)) 0#16) h eplen.toNat cls
  { verdict := v, header := h, cls := cls,
    prelude := if v = .deliverTcp then pseudoSum h.src h.dst 6#8 (h.totalLen - 20#16) else 0#16,
    payload := p + 20#32, upperLen := h.totalLen.toNat - 20 }

/-- The IPv4 checks are an access error exactly where one of the two windows leaves buffer memory (R80). -/
theorem ipv4Check_eq (s : State) (p eplen : Word) :
    ipv4Check s p eplen =
      if Fits s.params p.toNat 1 ∧ Fits s.params p.toNat (max 20 (ipv4HeaderLen (s.mem.byte p.toNat))) then
        .ok (ipv4Answer s p eplen)
      else .error .memRange := by
  unfold ipv4Check
  simp only [← inWindow_iff, Bool.not_eq_true']
  by_cases h1 : inWindow s.params p.toNat 1 = true
  · by_cases h2 : inWindow s.params p.toNat (max 20 (ipv4HeaderLen (s.mem.byte p.toNat))) = true
    · rw [if_neg (by simp [h1]), if_neg (by simp [h2])]
      exact (if_pos ⟨h1, h2⟩).symm
    · rw [if_neg (by simp [h1]), if_pos (by simpa using h2), if_neg (fun h => h2 h.2)]
  · rw [if_pos (by simpa using h1), if_neg (fun h => h1 h.1)]

/-- Everything RX_FRAME can do (R84): end at the Ethernet stage, end at the IPv4 stage, emit EV_ICMP, or run tcp_rx. -/
theorem rxFrameBody_cases (s : State) :
    rxFrameBody s = .error .memRange ∨
    (∃ r : Results, rxFrameBody s = .ok (s, r) ∧ r.r1 = 0xFFFFFFFF#32 ∧ r.r0.extractLsb' 16 16 = 0x00FF#16) ∨
    (∃ i r, i.verdict = .deliverIcmp ∧ rxFrameBody s = .ok (s.emit (Event.ofIcmp i), r) ∧
      r.r1 = 0xFFFFFFFF#32 ∧ r.r0.extractLsb' 16 16 = 0x00FF#16) ∨
    ∃ i t c r, i.verdict = .deliverTcp ∧ i = ipv4Answer s (s.arg0 + 14#32) (s.arg1 - 14#32) ∧
      s.tcpRx i.payload i.upperLen i.header.src i.prelude = .ok (t, c) ∧
      rxFrameBody s = .ok (t, r) ∧ r.r1 = handleWord c.handle ∧ r.r0.extractLsb' 16 16 = 0#8 ++ c.verdict.byte := by
  have hw : ∀ (e : EthVerdict) (ip : Option Ipv4Verdict) (tcp : Option TcpVerdict),
      (stagesWord e ip tcp).extractLsb' 16 16 = 0#8 ++ stageByte (tcp.map TcpVerdict.byte) := by
    intro e ip tcp
    rw [stagesWord]
    generalize stageByte (tcp.map TcpVerdict.byte) = a
    generalize stageByte (ip.map Ipv4Verdict.byte) = b
    generalize e.byte = c
    apply BitVec.eq_of_getLsbD_eq
    intro i hi
    simp only [BitVec.getLsbD_extractLsb', BitVec.getLsbD_append]
    rw [if_neg (by omega), if_neg (by omega), show 16 + i - 8 - 8 = i by omega]
    simp [hi]
  unfold rxFrameBody
  rcases ethCheck_cases s s.arg0 s.arg1 with ⟨-, he⟩ | ⟨-, -, he⟩ | ⟨-, -, he⟩
  · rw [he]
    exact .inr (.inl ⟨_, rfl, rfl, hw _ _ _⟩)
  · rw [he]
    exact .inl rfl
  · rw [he]
    by_cases het : s.mem.be16 (s.arg0.toNat + 12) = 0x0800#16
    · simp only [het, if_true, ne_eq, not_true_eq_false, if_false]
      rw [ipv4Check_eq]
      split
      next h =>
        split at h
        · simp at h
        · cases h; exact .inl rfl
      next i h =>
        split at h
        · cases h
          split
          next hv => exact .inr (.inr (.inl ⟨_, _, hv, rfl, rfl, hw _ _ _⟩))
          · split
            next hv =>
              split
              next e ht =>
                rcases State.tcpRx_cases s _ _ _ _ with ⟨-, -, h⟩ | ⟨_, -, -, h⟩ | ⟨-, -, -, -, -, h⟩ <;>
                  rw [h] at ht <;> cases ht
                exact .inl rfl
              next t c ht => exact .inr (.inr (.inr ⟨_, t, c, _, hv, rfl, ht, rfl, rfl, hw _ _ _⟩))
            · exact .inr (.inl ⟨_, rfl, rfl, hw _ _ _⟩)
        · cases h
    · simp only [het, if_false, ne_eq, reduceCtorEq, not_false_eq_true, if_true]
      exact .inr (.inl ⟨_, rfl, rfl, hw _ _ _⟩)

/-- Everything TCP_SEND can do (R109): an access error, an answer that changes nothing, or the send of a segment of 20
to 65515 bytes in buffer memory through the lowest free slot. -/
theorem tcpSendBody_cases (s : State) :
    tcpSendBody s = .error .memRange ∨
    (∃ r, r ≠ .sent ∧ tcpSendBody s = sendNothing s r) ∨
    ∃ k len, (s.entry s.arg0.toNat).valid = true ∧ len = segmentHeaderLen s.mem s.arg1.toNat + s.arg2.toNat ∧
      20 ≤ segmentHeaderLen s.mem s.arg1.toNat ∧ len ≤ 65515 ∧ Fits s.params s.arg1.toNat len ∧
      freeSlot (s.entry s.arg0.toNat).unacked = some k ∧
      tcpSendBody s = .ok (s.sendSegment s.arg0.toNat s.arg1.toNat s.arg2.toNat len k) := by
  unfold tcpSendBody
  simp only
  split
  next => exact .inr (.inl ⟨.notValid, by simp, rfl⟩)
  next hv =>
    split
    next => exact .inl rfl
    next =>
      split
      next => exact .inr (.inl ⟨.malformed, by simp, rfl⟩)
      next hl =>
        split
        next => exact .inl rfl
        next hw =>
          split
          next => exact .inr (.inl ⟨.ringFull, by simp, rfl⟩)
          next k hk =>
            exact .inr (.inr ⟨k, _, by simpa using hv, rfl, by omega, by omega, (inWindow_iff _ _ _).1 (by simpa using hw),
              hk, rfl⟩)

/-- The one error a body raises is ERR_MEM_RANGE (R129, R131). -/
theorem bodyOf_error {i : Instr} {s : State} {e : CmdError} (h : bodyOf i s = .error e) : e = .memRange := by
  cases i <;> simp only [bodyOf] at h
  case nop | pseudo | destClass | tcpHash | tcpLookup | tcpAlloc => cases h
  case cksum => unfold cksumBody at h; split at h <;> cases h; rfl
  case ethClassify =>
    unfold ethClassifyBody at h
    rcases ethCheck_cases s s.arg0 s.arg1 with ⟨-, he⟩ | ⟨-, -, he⟩ | ⟨-, -, he⟩ <;> rw [he] at h <;> cases h
    rfl
  case ipv4Rx =>
    unfold ipv4RxBody at h
    rw [ipv4Check_eq] at h
    by_cases hf : Fits s.params s.arg0.toNat 1 ∧
        Fits s.params s.arg0.toNat (max 20 (ipv4HeaderLen (s.mem.byte s.arg0.toNat)))
    · rw [if_pos hf] at h; cases h
    · rw [if_neg hf] at h; cases h; rfl
  case rxFrame =>
    rcases rxFrameBody_cases s with hb | ⟨_, hb, -⟩ | ⟨_, _, -, hb, -⟩ | ⟨_, _, _, _, -, -, -, hb, -⟩ <;>
      rw [hb] at h <;> cases h
    rfl
  case tcpClear => unfold tcpClearBody at h; split at h <;> cases h
  case tcpRx =>
    unfold tcpRxBody at h
    rcases State.tcpRx_cases s s.arg0 s.arg1.toNat s.arg2 (argU16 s.arg3) with
      ⟨-, -, ht⟩ | ⟨_, -, -, ht⟩ | ⟨-, -, -, -, -, ht⟩ <;> rw [ht] at h <;> cases h
    rfl
  case tcpSend =>
    rcases tcpSendBody_cases s with hb | ⟨_, -, hb⟩ | ⟨_, _, -, -, -, -, -, -, hb⟩ <;> rw [hb] at h <;> cases h
    rfl
  case ageTick => unfold ageTickBody at h; simp only at h; split at h <;> cases h; rfl

/-- What tcp_rx may change: the queue, the table and the ISN input (R46). -/
theorem State.tcpRx_frame {s t : State} {seg : Word} {slen : Nat} {rip : Word} {prelude : Half} {i : TcpInfo}
    (h : s.tcpRx seg slen rip prelude = .ok (t, i)) :
    t = { s with evq := t.evq, table := t.table, isnFeed := t.isnFeed, isnDrawn := t.isnDrawn } := by
  rcases State.tcpRx_cases s seg slen rip prelude with ⟨-, -, h'⟩ | ⟨_, -, -, h'⟩ | ⟨-, -, -, -, -, h'⟩ <;>
    rw [h'] at h
  · cases h
  · cases h; rfl
  · rcases State.rxDispatch_cases s (parseSegment s.mem seg slen rip) with
      ⟨_, _, -, hd⟩ | ⟨_, -, hd⟩ | ⟨_, _, _, _, -, -, -, -, hd⟩ | ⟨_, -, -, -, -, -, hd⟩ <;>
      rw [hd] at h <;> cases h <;> rfl

/-- What a body may change: the queue, the table, buffer memory and the ISN input (R22, R46). -/
theorem bodyOf_frame {i : Instr} {s u : State} {r : Results} (h : bodyOf i s = .ok (u, r)) :
    u = { s with evq := u.evq, table := u.table, mem := u.mem, isnFeed := u.isnFeed, isnDrawn := u.isnDrawn } := by
  cases i <;> simp only [bodyOf] at h
  case nop | pseudo | destClass | tcpHash | tcpLookup => cases h; rfl
  case cksum => unfold cksumBody at h; split at h <;> cases h; rfl
  case ethClassify => unfold ethClassifyBody at h; split at h <;> cases h; rfl
  case ipv4Rx => unfold ipv4RxBody at h; split at h <;> cases h; rfl
  case rxFrame =>
    rcases rxFrameBody_cases s with hb | ⟨_, hb, -⟩ | ⟨_, _, -, hb, -⟩ | ⟨_, _, _, _, -, -, ht, hb, -⟩ <;>
      rw [hb] at h <;> cases h
    · rfl
    · rfl
    · rw [State.tcpRx_frame ht]
  case tcpAlloc =>
    unfold tcpAllocBody at h
    rcases State.alloc_cases s s.argTuple with ⟨_, -, ha⟩ | ⟨-, -, ha⟩ | ⟨_, -, -, ha⟩ <;> rw [ha] at h <;> cases h <;>
      rfl
  case tcpClear =>
    unfold tcpClearBody at h
    split at h <;> cases h
    · rw [State.clearEntry_eq]
    · rfl
  case tcpRx =>
    unfold tcpRxBody at h
    split at h
    · cases h
    next ht => cases h; rw [State.tcpRx_frame ht]
  case tcpSend =>
    rcases tcpSendBody_cases s with hb | ⟨_, -, hb⟩ | ⟨_, _, -, -, -, -, -, -, hb⟩ <;> rw [hb] at h <;> cases h <;> rfl
  case ageTick => unfold ageTickBody at h; simp only at h; split at h <;> cases h; rfl

end Sys2Proof.Machine
end

