-- ==== Sys2Proof/Laws/Decode.lean ====
section
/-!
SUPPORT. The two directions of the encoding (30_encoding.md R50, R51).
-/

namespace Sys2Proof

/-- A word is the word of its fields (R50). -/
theorem CommandFields.toWord_ofWord (w : Word) : (CommandFields.ofWord w).toWord = w := by
  simp only [CommandFields.toWord, CommandFields.ofWord]
  apply BitVec.eq_of_getLsbD_eq
  intro i hi
  rw [BitVec.getLsbD_append]
  split
  next h8 => simp [h8]
  next h8 =>
    rw [BitVec.getLsbD_extractLsb', show decide (i - 8 < 24) = true by simp; omega, Bool.true_and,
      show 8 + (i - 8) = i by omega]

/-- The fields of a word are the fields it was made of (R50). -/
theorem CommandFields.ofWord_toWord (f : CommandFields) : CommandFields.ofWord f.toWord = f := by
  obtain ⟨op, rsvd⟩ := f
  simp only [CommandFields.ofWord, CommandFields.toWord, CommandFields.mk.injEq]
  refine ⟨BitVec.eq_of_getLsbD_eq fun i hi => ?_, BitVec.eq_of_getLsbD_eq fun i hi => ?_⟩
  · rw [BitVec.getLsbD_extractLsb', BitVec.getLsbD_append, if_pos (by omega : 0 + i < 8), Nat.zero_add]
    simp [hi]
  · rw [BitVec.getLsbD_extractLsb', BitVec.getLsbD_append, if_neg (by omega : ¬ 8 + i < 8), Nat.add_sub_cancel_left]
    simp [hi]

/-- What the opcode map answers for an opcode, by opcode and by command (R51). -/
theorem decodeOpcode_eq_some (op : Byte) (i : Instr) : decodeOpcode op = some i ↔ op = i.opcode := by
  revert op
  cases i <;> decide

/-- The opcode map lists exactly the opcodes of R51. -/
theorem decodeOpcode_isSome (op : Byte) : (decodeOpcode op).isSome = true ↔ op ∈ listedOpcodes := by
  revert op
  decide

/-- The decoder by its two checks (R52). -/
theorem decode_eq (w : Word) (i : Instr) :
    decode w = .ok i ↔ (CommandFields.ofWord w).rsvd = 0#24 ∧ (CommandFields.ofWord w).opcode = i.opcode := by
  rw [← decodeOpcode_eq_some]
  simp only [decode, CommandFields.rsvdZero, beq_iff_eq]
  split
  next h => cases hd : decodeOpcode (CommandFields.ofWord w).opcode <;> simp [h]
  next h => simp [h]

end Sys2Proof
end

