-- ==== Sys2Proof/Laws/Host.lean ====
section
/-!
SUPPORT. The host's accesses: which register an offset names, and everything that taking one access can come to
(10_state.md R20, 45_host_control.md R119, R121 to R128, 70_reset_and_hazards.md R143).
-/

namespace Sys2Proof.Machine

/-- A listed offset below 0x1000 and its register (R20). -/
theorem regAt_low {off : Nat} {r : HostReg} (h : lowRegisters.lookup off = some r) (hlt : off < 0x1000) :
    regAt off = r := by
  rw [regAt, if_pos hlt, h]

/-- The port words (R20, R126). -/
theorem regAt_port {i : Nat} (h : i < 2048) : regAt (0x1000 + 4 * i) = .portOpen i := by
  rw [regAt, if_neg (by omega), if_pos (by omega)]
  congr 1
  omega

/-- The TABLE window (R20, R127). -/
theorem regAt_table (n : Nat) : regAt (0x10000 + 4 * n) = .table n := by
  rw [regAt, if_neg (by omega), if_neg (by omega), if_neg (by omega)]
  congr 1
  omega

/-- Where a lookup in the list of low registers comes from. -/
theorem mem_of_lookup {l : List (Nat × HostReg)} {off : Nat} {r : HostReg} (h : l.lookup off = some r) :
    (off, r) ∈ l := by
  induction l with
  | nil => simp at h
  | cons x rest ih =>
    obtain ⟨k, v⟩ := x
    rw [List.lookup_cons] at h
    split at h
    next heq => simp only [beq_iff_eq] at heq; cases h; rw [heq]; exact List.mem_cons_self
    next => exact List.mem_cons_of_mem _ (ih h)

/-- What the register of an offset says about the offset (R20). -/
theorem regAt_cases (off : Nat) :
    (off, regAt off) ∈ lowRegisters ∨ (0x1000 ≤ off ∧ off ≤ 0x2FFC ∧ regAt off = .portOpen ((off - 0x1000) / 4)) ∨
      (0x10000 ≤ off ∧ regAt off = .table ((off - 0x10000) / 4)) ∨
      (regAt off = .unlisted ∧ ((off < 0x1000 ∧ lowRegisters.lookup off = none) ∨ (0x2FFC < off ∧ off < 0x10000))) := by
  unfold regAt
  split
  next hlt =>
    split
    next r hl => exact .inl (mem_of_lookup hl)
    next hl => exact .inr (.inr (.inr ⟨rfl, .inl ⟨hlt, hl⟩⟩))
  next =>
    split
    next => exact .inr (.inl ⟨by omega, by omega, rfl⟩)
    next =>
      split
      next => exact .inr (.inr (.inr ⟨rfl, .inr ⟨by omega, by omega⟩⟩))
      next => exact .inr (.inr (.inl ⟨by omega, rfl⟩))

/-- CMD is at offset 0x008 alone (R20). -/
theorem regAt_eq_cmd {off : Nat} : regAt off = .cmd ↔ off = 0x008 := by
  constructor
  · intro h
    rcases regAt_cases off with hm | ⟨-, -, hr⟩ | ⟨-, hr⟩ | ⟨hr, -⟩
    · rw [h] at hm
      simpa [lowRegisters] using hm
    all_goals rw [h] at hr; cases hr
  · rintro rfl; rfl

/-- A step in which the host writes a command word (R119, R52, R123). -/
theorem takeNext_writeCmd {s : State} {v : Word} {rest : List HostAccess}
    (h : s.inputs = .write 32 0x008#32 v :: rest) :
    takeNext s = launchWord v { s with inputs := rest } := by
  rw [takeNext, h]
  rfl

/-- A command comes only from a write of its word to CMD (R119). -/
theorem takeNext_command {s u : State} {i : Instr} (h : takeNext s = .command i u) :
    ∃ v rest, s.inputs = .write 32 0x008#32 v :: rest ∧ decode v = .ok i ∧
      u = { s with inputs := rest, cmd := v } := by
  unfold takeNext at h
  split at h
  · cases h
  next a rest hin =>
    unfold takeAccess at h
    split at h
    · split at h <;> cases h
    next bits off v =>
      split at h
      next hal =>
        split at h
        next hr =>
          have hoff : off = 0x008#32 := BitVec.eq_of_toNat_eq (regAt_eq_cmd.1 hr)
          have hbits : bits = 32 := by simp only [alignedWord, Bool.and_eq_true, beq_iff_eq] at hal; exact hal.1
          subst hoff hbits
          unfold launchWord at h
          simp only at h
          split at h
          next j hd =>
            cases h
            exact ⟨v, rest, hin, hd, rfl⟩
          next => cases h
        next => cases h
      next => cases h
    · split at h <;> cases h
    · split at h <;> cases h
    · cases h

/-- Everything a step that runs no command can come to: waiting, a read, a write that is not a command, an illegal command
word, a memory access of the host, or a reset. -/
theorem takeNext_done {s t : State} (h : takeNext s = .done (.next t)) :
    (s.inputs = [] ∧ t = s) ∨
    (∃ v rest, (∃ off, s.inputs = .read 32 off :: rest) ∧ t = { s with inputs := rest, readData := v }) ∨
    (∃ off v rest, s.inputs = .write 32 off v :: rest ∧ off.toNat % 4 = 0 ∧ regAt off.toNat ≠ .cmd ∧
      t = ({ s with inputs := rest } : State).writeReg (regAt off.toNat) v) ∨
    (∃ v rest, s.inputs = .write 32 0x008#32 v :: rest ∧
      t = { s with inputs := rest, cmd := v, code := .error .illegalCmd, err := true }) ∨
    (∃ a rest, s.inputs = .memRead a :: rest ∧ a.toNat < s.params.memSize ∧
      t = { s with inputs := rest, readData := (s.mem.byte a.toNat).setWidth 32 }) ∨
    (∃ a b rest, s.inputs = .memWrite a b :: rest ∧ a.toNat < s.params.memSize ∧
      t = { s with inputs := rest, mem := s.mem.setByte a.toNat b }) ∨
    (∃ rest, s.inputs = .reset :: rest ∧ t = ({ s with inputs := rest } : State).hostReset) := by
  unfold takeNext at h
  split at h
  next hin => cases h; exact .inl ⟨hin, rfl⟩
  next a rest hin =>
    have hb : ∀ {bits : Nat} {off : Word}, alignedWord bits off = true → bits = 32 ∧ off.toNat % 4 = 0 := by
      intro bits off hal
      simpa [alignedWord] using hal
    unfold takeAccess at h
    split at h
    next bits off =>
      split at h
      next hal =>
        cases h
        obtain ⟨rfl, -⟩ := hb hal
        exact .inr (.inl ⟨_, rest, ⟨off, hin⟩, rfl⟩)
      next => cases h
    next bits off v =>
      split at h
      next hal =>
        obtain ⟨rfl, h4⟩ := hb hal
        split at h
        next hr =>
          obtain rfl : off = 0x008#32 := BitVec.eq_of_toNat_eq (regAt_eq_cmd.1 hr)
          unfold launchWord at h
          simp only at h
          split at h
          next => cases h
          next =>
            cases h
            exact .inr (.inr (.inr (.inl ⟨v, rest, hin, rfl⟩)))
        next hr =>
          cases h
          exact .inr (.inr (.inl ⟨off, v, rest, hin, h4, hr, rfl⟩))
      next => cases h
    next a =>
      split at h
      next hlt => cases h; exact .inr (.inr (.inr (.inr (.inl ⟨a, rest, hin, hlt, rfl⟩))))
      next => cases h
    next a b =>
      split at h
      next hlt => cases h; exact .inr (.inr (.inr (.inr (.inr (.inl ⟨a, b, rest, hin, hlt, rfl⟩)))))
      next => cases h
    next => cases h; exact .inr (.inr (.inr (.inr (.inr (.inr ⟨rest, hin, rfl⟩)))))

/-- What a register write can change (R20): the table, buffer memory, the queue's records but the oldest, and the
parameters stay. -/
theorem State.writeReg_frame (s : State) (r : HostReg) (v : Word) :
    s.writeReg r v =
      { s with
        cfgLock := (s.writeReg r v).cfgLock, err := (s.writeReg r v).err, cmd := (s.writeReg r v).cmd,
        evqPop := (s.writeReg r v).evqPop, arg0 := (s.writeReg r v).arg0, arg1 := (s.writeReg r v).arg1,
        arg2 := (s.writeReg r v).arg2, arg3 := (s.writeReg r v).arg3, hostIp := (s.writeReg r v).hostIp,
        bcastIp := (s.writeReg r v).bcastIp, gatewayIp := (s.writeReg r v).gatewayIp, evq := (s.writeReg r v).evq,
        portOpen := (s.writeReg r v).portOpen } ∧
      ((s.writeReg r v).evq = s.evq ∨ (s.writeReg r v).evq = s.evq.tail) ∧
      ((s.writeReg r v).portOpen = s.portOpen ∨
        ∃ i, r = .portOpen i ∧ (s.writeReg r v).portOpen = Cells.write s.portOpen i v) := by
  cases r with
  | evqPop => exact ⟨rfl, .inr rfl, .inl rfl⟩
  | portOpen i => exact ⟨rfl, .inl rfl, .inr ⟨i, rfl, rfl⟩⟩
  | status =>
    simp only [State.writeReg, State.writeStatus]
    split <;> exact ⟨rfl, .inl rfl, .inl rfl⟩
  | hostIp | bcastIp | gatewayIp =>
    simp only [State.writeReg]
    split <;> exact ⟨rfl, .inl rfl, .inl rfl⟩
  | _ => exact ⟨rfl, .inl rfl, .inl rfl⟩

end Sys2Proof.Machine
end

