-- ==== Sys2Proof/Laws/PerInstr.lean ====
section
/-!
SUPPORT. The per-command statements: each command's word is legal and its opcode leads back to it (30_encoding.md R50, R51,
R52, R63).
-/

namespace Sys2Proof.Laws.Encoding

/-- A command's word is legal (R52), holds nothing above its opcode (R50, R53), and its opcode is its own in the map of R51. -/
def Statement (i : Sys2Proof.Instr) : Prop :=
  (Sys2Proof.CommandFields.ofWord (Sys2Proof.encode i)).wf = true ∧
    (Sys2Proof.encode i).toNat = i.opcode.toNat ∧ Sys2Proof.decodeOpcode i.opcode = some i

theorem nop : Statement .nop := by
  unfold Statement
  decide

theorem cksum : Statement .cksum := by
  unfold Statement
  decide

theorem pseudo : Statement .pseudo := by
  unfold Statement
  decide

theorem destClass : Statement .destClass := by
  unfold Statement
  decide

theorem ethClassify : Statement .ethClassify := by
  unfold Statement
  decide

theorem ipv4Rx : Statement .ipv4Rx := by
  unfold Statement
  decide

theorem rxFrame : Statement .rxFrame := by
  unfold Statement
  decide

theorem tcpHash : Statement .tcpHash := by
  unfold Statement
  decide

theorem tcpLookup : Statement .tcpLookup := by
  unfold Statement
  decide

theorem tcpAlloc : Statement .tcpAlloc := by
  unfold Statement
  decide

theorem tcpClear : Statement .tcpClear := by
  unfold Statement
  decide

theorem tcpRx : Statement .tcpRx := by
  unfold Statement
  decide

theorem tcpSend : Statement .tcpSend := by
  unfold Statement
  decide

theorem ageTick : Statement .ageTick := by
  unfold Statement
  decide

end Sys2Proof.Laws.Encoding
end

