-- ==== Sys2Proof/Laws/Retransmit.lean ====
section
/-!
SUPPORT. Send and retransmission: a segment's checksum field is in effect after it was written (40_checksum.md R67, R68),
and the aging scan in list words (44_retransmit.md R112, R113).
-/

namespace Sys2Proof.Machine

/-- The slot is due, in the claims' words. -/
theorem Slot.due_iff (p : Params) (sl : Slot) : sl.due p.retransmitTimeout = decide (DueSlot p sl) := by
  simp [Slot.due, Bool.decide_and]

/-- The inner loop in list words (R112): the slots aged, the RETX records in slot order, and the two counts. -/
theorem ageSlots_eq (p : Params) (hostIp remoteIp : Word) (h k : Nat) (slots : List Slot) (m : Memory) :
    ageSlots p hostIp remoteIp h k slots m =
      { items := slots.map (agedSlot p)
        mem := (slots.filter fun sl => decide (DueSlot p sl)).foldl
          (fun m sl => sealSegment m hostIp remoteIp sl.buf.toNat sl.len.toNat) m
        events := ((slots.zipIdx k).filter fun y => decide (DueSlot p y.1)).map fun y =>
          Event.ofSlot .retx h y.2 y.1 remoteIp
        aged := slots.countP fun sl => sl.occupied
        resent := slots.countP fun sl => decide (DueSlot p sl) } := by
  induction slots generalizing k m with
  | nil => rfl
  | cons sl rest ih =>
    simp only [ageSlots, ih]
    by_cases ho : sl.occupied = true
    · by_cases hd : p.retransmitTimeout ≤ sl.age.toNat + 1
      · have hds : DueSlot p sl := ⟨ho, hd⟩
        simp [ho, hd, Slot.due, agedSlot, List.zipIdx_cons]
      · have hds : ¬ DueSlot p sl := fun h => hd h.2
        have ha : sl.age + 1#16 = BitVec.ofNat 16 (sl.age.toNat + 1) := by
          apply BitVec.eq_of_toNat_eq
          simp [BitVec.toNat_add]
        simp [ho, hd, Slot.due, agedSlot, List.zipIdx_cons, ha]
    · have hds : ¬ DueSlot p sl := fun h => ho h.1
      simp [ho, agedSlot, List.zipIdx_cons]

/-- The outer loop in list words (R112). -/
theorem ageEntries_eq (p : Params) (hostIp : Word) (h : Nat) (table : List Entry) (m : Memory) :
    ageEntries p hostIp h table m =
      { items := table.map (agedEntry p)
        mem := (dueSegments p table).foldl
          (fun m x => sealSegment m hostIp x.1 x.2.buf.toNat x.2.len.toNat) m
        events := (table.zipIdx h).flatMap fun x =>
          if x.1.valid then
            (x.1.unacked.zipIdx.filter fun y => decide (DueSlot p y.1)).map fun y =>
              Event.ofSlot .retx x.2 y.2 y.1 x.1.remoteIp
          else []
        aged := slotCount table fun sl => sl.occupied
        resent := slotCount table fun sl => decide (DueSlot p sl) } := by
  induction table generalizing h m with
  | nil => rfl
  | cons e rest ih =>
    simp only [ageEntries, ih, ageSlots_eq]
    by_cases hv : e.valid = true
    · simp [hv, dueSegments, agedEntry, slotCount, List.zipIdx_cons, List.foldl_append, List.foldl_map]
    · simp [hv, dueSegments, agedEntry, slotCount, List.zipIdx_cons]

/-- The RETX records of a tick in the claims' words. -/
theorem retxRecords_eq (p : Params) (table : List Entry) :
    (table.zipIdx.flatMap fun x =>
      if x.1.valid then
        (x.1.unacked.zipIdx.filter fun y => decide (DueSlot p y.1)).map fun y =>
          Event.ofSlot .retx x.2 y.2 y.1 x.1.remoteIp
      else []) = retxRecords p table := by
  simp only [retxRecords, Event.ofSlot, BitVec.ofNat_toNat]

/-- The window check of a tick (R113). -/
theorem State.dueInWindow_iff (s : State) : s.dueInWindow = true ↔
    ∀ e ∈ s.table, e.valid = true → ∀ sl ∈ e.unacked, DueSlot s.params sl → Fits s.params sl.buf.toNat sl.len.toNat := by
  simp only [State.dueInWindow, List.all_eq_true, Bool.or_eq_true, Bool.not_eq_true', Slot.due_iff, inWindow_iff,
    decide_eq_false_iff_not]
  constructor
  · intro h e he hv sl hsl hd
    rcases h e he with h | h
    · simp [hv] at h
    · exact (h sl hsl).resolve_left fun hn => hn hd
  · intro h e he
    by_cases hv : e.valid = true
    · refine .inr fun sl hsl => ?_
      by_cases hd : DueSlot s.params sl
      · exact .inr (h e he hv sl hsl hd)
      · exact .inl hd
    · exact .inl (by simpa using hv)

/-- The body of AGE_TICK in list words (R113). -/
theorem ageTickBody_eq (s : State) :
    ageTickBody s =
      if s.dueInWindow then
        .ok ({ s with
               table := s.table.map (agedEntry s.params)
               mem := (dueSegments s.params s.table).foldl
                 (fun m x => sealSegment m s.hostIp x.1 x.2.buf.toNat x.2.len.toNat) s.mem
               evq := s.evq ++ retxRecords s.params s.table },
             { r0 := BitVec.ofNat 32 (slotCount s.table fun sl => sl.occupied),
               r1 := BitVec.ofNat 32 (slotCount s.table fun sl => decide (DueSlot s.params sl)) })
      else .error .memRange := by
  unfold ageTickBody
  simp only [ageEntries_eq, retxRecords_eq]
  cases s.dueInWindow <;> rfl

/-- A segment that a tick resends is one of a valid entry's due slots. -/
theorem mem_dueSegments {p : Params} {table : List Entry} {x : Word × Slot} : x ∈ dueSegments p table ↔
    ∃ e ∈ table, e.valid = true ∧ x.1 = e.remoteIp ∧ x.2 ∈ e.unacked ∧ DueSlot p x.2 := by
  obtain ⟨ip, sl⟩ := x
  simp only [dueSegments, List.mem_flatMap]
  constructor
  · rintro ⟨e, he, hx⟩
    split at hx
    next hv =>
      simp only [List.mem_map, List.mem_filter, decide_eq_true_eq, Prod.mk.injEq] at hx
      obtain ⟨sl', ⟨hs, hd⟩, rfl, rfl⟩ := hx
      exact ⟨e, he, hv, rfl, hs, hd⟩
    · simp at hx
  · rintro ⟨e, he, hv, rfl, hs, hd⟩
    exact ⟨e, he, by rw [if_pos hv]; exact List.mem_map.2 ⟨sl, List.mem_filter.2 ⟨hs, by simpa using hd⟩, rfl⟩⟩

/-- Writing checksum fields keeps every other byte (R46). -/
theorem byte_sealAll_ne (hostIp : Word) (segs : List (Word × Slot)) (m : Memory) {a : Nat}
    (h : ∀ x ∈ segs, a ≠ x.2.buf.toNat + 16 ∧ a ≠ x.2.buf.toNat + 17) :
    (segs.foldl (fun m x => sealSegment m hostIp x.1 x.2.buf.toNat x.2.len.toNat) m).byte a = m.byte a := by
  induction segs generalizing m with
  | nil => rfl
  | cons x rest ih =>
    rw [List.foldl_cons, ih _ fun y hy => h y (List.mem_cons_of_mem _ hy)]
    exact byte_sealSegment_ne _ _ _ _ _ (h x List.mem_cons_self).1 (h x List.mem_cons_self).2

/-- Writing checksum fields keeps the canonical form. -/
theorem wf_sealAll (hostIp : Word) (segs : List (Word × Slot)) {m : Memory} (h : Memory.wf m) :
    Memory.wf (segs.foldl (fun m x => sealSegment m hostIp x.1 x.2.buf.toNat x.2.len.toNat) m) := by
  induction segs generalizing m with
  | nil => exact h
  | cons x rest ih => exact ih (wf_sealSegment _ _ _ _ h)

/-- What writing checksum fields can list. -/
theorem mem_sealAll (hostIp : Word) (segs : List (Word × Slot)) {m : Memory} {c : Host.Cell}
    (h : c ∈ segs.foldl (fun m x => sealSegment m hostIp x.1 x.2.buf.toNat x.2.len.toNat) m) :
    c ∈ m ∨ ∃ x ∈ segs, c.1 = x.2.buf.toNat + 16 ∨ c.1 = x.2.buf.toNat + 17 := by
  induction segs generalizing m with
  | nil => exact .inl h
  | cons x rest ih =>
    rcases ih h with h | ⟨y, hy, h⟩
    · rcases mem_sealSegment h with h | h | h
      · exact .inr ⟨x, List.mem_cons_self, .inl h⟩
      · exact .inr ⟨x, List.mem_cons_self, .inr h⟩
      · exact .inl h
    · exact .inr ⟨y, List.mem_cons_of_mem _ hy, h⟩

/-- The lowest free slot (R109). -/
theorem freeSlot_some {slots : List Slot} {k : Nat} (h : freeSlot slots = some k) :
    (∃ sl, slots[k]? = some sl ∧ sl.occupied = false) ∧
      ∀ (j : Nat) (sl : Slot), j < k → slots[j]? = some sl → sl.occupied = true := by
  rw [freeSlot, List.findIdx?_eq_some_iff_getElem] at h
  obtain ⟨hk, hp, hmin⟩ := h
  refine ⟨⟨slots[k], by simp, by simpa using hp⟩, fun j sl hj hs => ?_⟩
  obtain ⟨hlt, rfl⟩ := List.getElem?_eq_some_iff.1 hs
  simpa using hmin j hj

/-- The converse of freeSlot_some. -/
theorem freeSlot_eq_some {slots : List Slot} {k : Nat} {sl : Slot} (hk : slots[k]? = some sl)
    (hf : sl.occupied = false)
    (hmin : ∀ (j : Nat) (sl : Slot), j < k → slots[j]? = some sl → sl.occupied = true) : freeSlot slots = some k := by
  obtain ⟨hlt, rfl⟩ := List.getElem?_eq_some_iff.1 hk
  rw [freeSlot, List.findIdx?_eq_some_iff_getElem]
  refine ⟨hlt, by simpa using hf, fun j hj => ?_⟩
  simpa using hmin j _ hj (List.getElem?_eq_getElem (Nat.lt_trans hj hlt))

/-- No slot is free. -/
theorem freeSlot_eq_none {slots : List Slot} : freeSlot slots = none ↔ ∀ sl ∈ slots, sl.occupied = true := by
  simp [freeSlot]

/-- A region one byte longer. -/
theorem regionTotal_succ (m : Memory) (a n : Nat) :
    regionTotal m a (n + 1) = regionTotal m a n + (m.byte (a + n)).toNat * (if n % 2 = 0 then 256 else 1) := by
  simp [regionTotal, List.range_succ]

/-- The unsealed total does not look at the checksum field. -/
theorem unsealedTotal_congr {m m' : Memory} {a : Nat} (h : ∀ x, x ≠ a + 16 → x ≠ a + 17 → m.byte x = m'.byte x)
    (n : Nat) : unsealedTotal m a n = unsealedTotal m' a n := by
  simp only [unsealedTotal]
  congr 1
  refine List.map_congr_left fun i _ => ?_
  by_cases hi : i = 16 ∨ i = 17
  · simp only [hi, if_true]
  · rw [h (a + i) (by omega) (by omega)]

/-- Where the field is 0, the unsealed total is the total. -/
theorem unsealedTotal_of_zero {m : Memory} {a : Nat} (h16 : m.byte (a + 16) = 0#8) (h17 : m.byte (a + 17) = 0#8)
    (n : Nat) : unsealedTotal m a n = regionTotal m a n := by
  simp only [unsealedTotal, regionTotal]
  congr 1
  refine List.map_congr_left fun i _ => ?_
  split
  next hi => rcases hi with rfl | rfl <;> simp [h16, h17]
  · rfl

/-- The field does not depend on what it held. -/
theorem checksumField_congr {m m' : Memory} {buf : Nat} (hostIp remoteIp : Word) (len : Nat)
    (h : ∀ x, x ≠ buf + 16 → x ≠ buf + 17 → m.byte x = m'.byte x) :
    checksumField m hostIp remoteIp buf len = checksumField m' hostIp remoteIp buf len := by
  rw [checksumField, checksumField, unsealedTotal_congr h]

/-- A 16-bit field of 0 is two bytes of 0. -/
theorem Memory.bytes_zero_of_be16 {m : Memory} {a : Nat} (h : m.be16 a = 0#16) :
    m.byte a = 0#8 ∧ m.byte (a + 1) = 0#8 := by
  have hn := congrArg BitVec.toNat h
  rw [Memory.be16_toNat, BitVec.toNat_ofNat] at hn
  constructor <;> apply BitVec.eq_of_toNat_eq <;> rw [BitVec.toNat_ofNat] <;> omega

/-- What a write of the checksum field leaves there (R68): the spec's number, of the segment as it stood. -/
theorem be16_sealSegment {m : Memory} (hm : Memory.wf m) (hostIp remoteIp : Word) (buf len : Nat) :
    ((sealSegment m hostIp remoteIp buf len).be16 (buf + 16)).toNat =
      checksumField m hostIp remoteIp buf len := by
  have hz := Memory.bytes_zero_of_be16 (Memory.be16_setBe16_self hm (buf + 16) 0#16)
  rw [sealSegment, Memory.be16_setBe16_self (Memory.wf_setBe16 _ _ hm), tcpChecksum, BitVec.toNat_not, cksum_toNat,
    pseudoSum_toNat, onesSum_add, BitVec.toNat_ofNat, BitVec.toNat_ofNat, ← unsealedTotal_of_zero hz.1 hz.2,
    unsealedTotal_congr fun x h1 h2 => Memory.byte_setBe16_ne m 0#16 h1 h2, checksumField]

/-- A segment that reaches past its field totals the field and the rest. -/
theorem regionTotal_eq_field_add (m : Memory) (a : Nat) {n : Nat} (hn : 18 ≤ n) :
    regionTotal m a n = unsealedTotal m a n + (m.be16 (a + 16)).toNat := by
  induction n, hn using Nat.le_induction with
  | base =>
    simp only [regionTotal, unsealedTotal, Memory.be16_toNat, show a + 16 + 1 = a + 17 from rfl, List.range_succ,
      List.map_append, List.sum_append]
    simp
    omega
  | succ n hn ih =>
    have h16 : n ≠ 16 := by omega
    have h17 : n ≠ 17 := by omega
    rw [regionTotal_succ, ih]
    simp only [unsealedTotal, List.range_succ, List.map_append, List.sum_append]
    simp [h16, h17]
    omega

/-- A segment whose checksum field was just written validates with the prelude it was written for (R67, R68). -/
theorem sealSegment_validates {m : Memory} (hm : Memory.wf m) (hostIp remoteIp : Word) (buf : Nat) {len : Nat}
    (hlen : 18 ≤ len) :
    cksum (sealSegment m hostIp remoteIp buf len) buf len
      (pseudoSum hostIp remoteIp 6#8 (BitVec.ofNat 16 len)) = 0xFFFF#16 := by
  apply BitVec.eq_of_toNat_eq
  rw [cksum_toNat, pseudoSum_toNat, onesSum_add, regionTotal_eq_field_add _ _ hlen, be16_sealSegment hm, checksumField,
    unsealedTotal_congr fun x h1 h2 => byte_sealSegment_ne m hostIp remoteIp buf len h1 h2, BitVec.toNat_ofNat,
    BitVec.toNat_ofNat, ← Nat.add_assoc]
  generalize _ + unsealedTotal m buf len = T
  have h1 := onesSum_spec T
  have h2 := onesSum_spec (T + (65535 - onesSum T))
  simp only [BitVec.toNat_ofNat]
  omega

end Sys2Proof.Machine
end

