-- ==== Sys2Proof/Tests/Slice0.lean ====
section
/-!
SUPPORT. Our own tests. First the smoke tests of WellFormed, then words of 30_encoding.md R51 written out bit by bit, then
one or two steps per command with the results of 95_test_vectors.md, then the register window, then for every statement
with hypotheses a state that meets them.
-/

open Sys2Proof
open Sys2Proof.Machine

namespace Sys2Proof.Tests

set_option Elab.async false

/-! ### WellFormed: each check refuses an ill-formed term -/

theorem test_wf_accepts_cksum : CommandFields.wf { opcode := 0x01#8, rsvd := 0#24 } = true := by decide
theorem test_wf_refuses_reserved_bit : CommandFields.wf { opcode := 0x01#8, rsvd := 1#24 } = false := by decide
theorem test_wf_refuses_unlisted_opcode : CommandFields.wf { opcode := 0x22#8, rsvd := 0#24 } = false := by decide

theorem test_params_wf : Config.params.Wf := by constructor <;> decide
theorem test_params_refuse_maxUnacked_0 : ¬ Params.Wf { Config.params with maxUnacked := 0 } :=
  fun h => absurd h.maxUnacked_pos (by decide)
theorem test_params_refuse_maxUnacked_256 : ¬ Params.Wf { Config.params with maxUnacked := 256 } :=
  fun h => absurd h.maxUnacked_le (by decide)
theorem test_params_refuse_timeout_0 : ¬ Params.Wf { Config.params with retransmitTimeout := 0 } :=
  fun h => absurd h.timeout_pos (by decide)
theorem test_params_refuse_timeout_65536 : ¬ Params.Wf { Config.params with retransmitTimeout := 65536 } :=
  fun h => absurd h.timeout_le (by decide)
theorem test_params_refuse_ways_0 : ¬ Params.Wf { Config.params with tableWays := 0 } :=
  fun h => absurd h.ways_pos (by decide)
theorem test_params_refuse_lines_0 : ¬ Params.Wf { Config.params with tableLines := 0 } :=
  fun h => absurd h.lines_pos (by decide)
theorem test_params_refuse_handles_65536 : ¬ Params.Wf { Config.params with tableWays := 256, tableLines := 256 } :=
  fun h => absurd h.handles_le (by decide)
theorem test_params_refuse_mtu_19 : ¬ Params.Wf { Config.params with payloadMtu := 19 } :=
  fun h => absurd h.mtu_ge (by decide)
theorem test_params_refuse_mtu_65556 : ¬ Params.Wf { Config.params with payloadMtu := 65556 } :=
  fun h => absurd h.mtu_le (by decide)
theorem test_params_refuse_mem_0 : ¬ Params.Wf { Config.params with memSize := 0 } :=
  fun h => absurd h.mem_pos (by decide)
theorem test_params_refuse_mem_above_4G : ¬ Params.Wf { Config.params with memSize := 2 ^ 32 + 1 } :=
  fun h => absurd h.mem_le (by decide)
theorem test_params_refuse_evq_6 : ¬ Params.Wf { Config.params with evqDepth := 6 } :=
  fun h => absurd h.evq_rx (by decide)
theorem test_params_refuse_evq_31 : ¬ Params.Wf { Config.params with evqDepth := 31 } :=
  fun h => absurd h.evq_tick (by decide)

/-! ### Decoding: words written out from R50 and R51 -/

theorem test_decode_nop : decode 0b00000000000000000000000000000000#32 = .ok .nop := by decide
theorem test_decode_cksum : decode 0b00000000000000000000000000000001#32 = .ok .cksum := by decide
theorem test_decode_pseudo : decode 0b00000000000000000000000000000010#32 = .ok .pseudo := by decide
theorem test_decode_destClass : decode 0b00000000000000000000000000000011#32 = .ok .destClass := by decide
theorem test_decode_ethClassify : decode 0b00000000000000000000000000001000#32 = .ok .ethClassify := by decide
theorem test_decode_ipv4Rx : decode 0b00000000000000000000000000001001#32 = .ok .ipv4Rx := by decide
theorem test_decode_rxFrame : decode 0b00000000000000000000000000001010#32 = .ok .rxFrame := by decide
theorem test_decode_tcpHash : decode 0b00000000000000000000000000010000#32 = .ok .tcpHash := by decide
theorem test_decode_tcpLookup : decode 0b00000000000000000000000000010001#32 = .ok .tcpLookup := by decide
theorem test_decode_tcpAlloc : decode 0b00000000000000000000000000010010#32 = .ok .tcpAlloc := by decide
theorem test_decode_tcpClear : decode 0b00000000000000000000000000010011#32 = .ok .tcpClear := by decide
theorem test_decode_tcpRx : decode 0b00000000000000000000000000011000#32 = .ok .tcpRx := by decide
theorem test_decode_tcpSend : decode 0b00000000000000000000000000100000#32 = .ok .tcpSend := by decide
theorem test_decode_ageTick : decode 0b00000000000000000000000000100001#32 = .ok .ageTick := by decide
theorem test_decode_unlisted : decode 0b00000000000000000000000000100010#32 = .error .unlistedOpcode := by decide
theorem test_decode_reserved : decode 0b10000000000000000000000000000001#32 = .error .reservedBits := by decide
theorem test_encode_tcpSend : encode .tcpSend = 0x00000020#32 := by decide

/-! ### Small states -/

/-- The next state of an outcome. -/
def nextOf : Outcome → Option State
  | .next t => some t
  | _ => none

/-- The peer of every vector, 192.168.1.20. -/
def peer : Word := 0xC0A80114#32

/-- A booted block (95_test_vectors.md section 0). -/
def booted : State :=
  { State.reset with
    cfgLock := true, hostIp := 0xC0A8010A#32, bcastIp := 0xC0A801FF#32, gatewayIp := 0xC0A80101#32,
    portOpen := [(0, 0x00400000#32)] }

/-- Bytes written to buffer memory from address a on. -/
def put (s : State) (a : Nat) (bytes : List Nat) : State :=
  { s with mem := bytes.zipIdx.foldl (fun m x => m.setByte (a + x.2) (BitVec.ofNat 8 x.1)) s.mem }

/-- The four operand registers set. -/
def args (s : State) (a : Nat) (b : Nat := 0) (c : Nat := 0) (d : Nat := 0) : State :=
  { s with arg0 := BitVec.ofNat 32 a, arg1 := BitVec.ofNat 32 b, arg2 := BitVec.ofNat 32 c, arg3 := BitVec.ofNat 32 d }

/-- The IPv4 header of row 1 of V4. -/
def tcpHeader : List Nat :=
  [0x45, 0x00, 0x00, 0x28, 0x1C, 0x46, 0x40, 0x00, 0x40, 0x06, 0x9B, 0x1B, 0xC0, 0xA8, 0x01, 0x14, 0xC0, 0xA8, 0x01, 0x0A]

/-- The IPv4 header of row 2 of V4. -/
def icmpHeader : List Nat :=
  [0x45, 0x00, 0x00, 0x3C, 0x1C, 0x46, 0x40, 0x00, 0x40, 0x01, 0x9B, 0x0C, 0xC0, 0xA8, 0x01, 0x14, 0xC0, 0xA8, 0x01, 0x0A]

/-- The IPv4 header of row 23 of V4: not for us. -/
def otherHeader : List Nat :=
  [0x45, 0x00, 0x00, 0x28, 0x1C, 0x46, 0x40, 0x00, 0x40, 0x06, 0x9A, 0xC2, 0xC0, 0xA8, 0x01, 0x14, 0xC0, 0xA8, 0x01, 0x63]

/-- The Ethernet header of the frames of P2. -/
def etherHeader : List Nat := [0x02, 0, 0, 0, 0, 0x0A, 0x02, 0, 0, 0, 0, 0x14, 0x08, 0x00]

/-- The SYN of row T1 of V6. -/
def synSegment : List Nat := [0xC3, 0x50, 0, 0x16, 0x10, 0, 0, 0, 0, 0, 0, 0, 0x50, 0x02, 0xFA, 0xF0, 0x5E, 0x1C, 0, 0]

/-- The bare ACK of row T3 of V6. -/
def ackSegment : List Nat :=
  [0xC3, 0x50, 0, 0x16, 0x10, 0, 0, 1, 0x20, 0, 0, 1, 0x50, 0x10, 0xFA, 0xF0, 0x3E, 0x0C, 0, 0]

/-- The data of row T4 of V6. -/
def pingSegment : List Nat :=
  [0xC3, 0x50, 0, 0x16, 0x10, 0, 0, 1, 0x20, 0, 0, 1, 0x50, 0x18, 0xFA, 0xF0, 0x5F, 0x2F, 0, 0, 0x70, 0x69, 0x6E, 0x67]

/-- The FIN of row T18 of V6. -/
def finSegment : List Nat :=
  [0xC3, 0x50, 0, 0x16, 0x10, 0, 0, 5, 0x20, 0, 0, 1, 0x50, 0x11, 0xFA, 0xF0, 0x3E, 0x07, 0, 0]

/-- The RST of row S17 of V7. -/
def rstSegment : List Nat := [0xC3, 0x50, 0, 0x16, 0x10, 0, 0, 1, 0, 0, 0, 0, 0x50, 0x04, 0, 0, 0x59, 0x0A, 0, 0]

/-- "pong" before it is sent (statement 6 of P2). -/
def pongSegment : List Nat :=
  [0, 0x16, 0xC3, 0x50, 0x20, 0, 0, 1, 0x10, 0, 0, 5, 0x50, 0x10, 0x10, 0, 0, 0, 0, 0, 0x70, 0x6F, 0x6E, 0x67]

/-- A segment at 0x200 and the operands of its TCP_RX, as V6 issues it. -/
def received (s : State) (segment : List Nat) (prelude : Nat) : State :=
  args (put s 0x200 segment) 0x200 segment.length peer.toNat prelude

/-- Entry 1 of a connection opened by T1: what stays the same while it lives. -/
def opened (remoteSeq : Word) (slots : List Slot) : Entry :=
  { Entry.empty 4 with
    valid := true, remoteIp := peer, localPort := 22#16, remotePort := 50000#16, remoteSeq := remoteSeq,
    remoteSeqSent := remoteSeq, localSeq := 0x20000001#32, localInitialSeq := 0x20000000#32,
    remoteInitialSeq := 0x10000000#32, unacked := slots }

/-- A booted block whose entry 1 is open. -/
def connected (remoteSeq : Word) (slots : List Slot := List.replicate 4 Slot.empty) : State :=
  { booted with table := booted.table.set 1 (opened remoteSeq slots) }

/-- The slot of "pong" at 0x2000, with an age. -/
def pongSlot (age : Half) : Slot :=
  { occupied := true, buf := 0x2000#32, len := 24#16, endSeq := 0x20000005#32, age := age }

/-- A ring with "pong" in slot 1. -/
def pongRing (age : Half) : List Slot := [Slot.empty, pongSlot age, Slot.empty, Slot.empty]

/-- The handle of every event, its kind and slot, in one word each. -/
def heads (s : State) : List Word := s.evq.map Event.w0

/-! ### The commands, one step each -/

/-- R120: all RES are written 0 and ERR stays. -/
theorem test_nop : nextOf (execNop { State.reset with code := .error .badHandle, err := true, res := { r3 := 7#32 } }) =
    some { State.reset with code := .ok, err := true, res := {} } := by decide +kernel

/-- V1 row 12. -/
theorem test_cksum_rfc_bytes :
    (nextOf (execCksum (args (put State.reset 0x400 [0, 1, 0xF2, 3, 0xF4, 0xF5, 0xF6, 0xF7]) 0x400 8))).map (·.res) =
      some { r0 := 0xDDF2#32 } := by decide +kernel

/-- V1 row 18: the window passes 2^32 - 1. -/
theorem test_cksum_range : (nextOf (execCksum (args State.reset 0xFFFFFFFF 2))).map (fun t => (t.code, t.err)) =
    some (.error .memRange, true) := by decide +kernel

/-- V1, PSEUDO row 2. -/
theorem test_pseudo : (nextOf (execPseudo (args State.reset 0xC0A80114 0xC0A8010A 6 24))).map (·.res) =
    some { r0 := 0x838D#32 } := by decide +kernel

/-- V1, PSEUDO row 6: only the low bits of ARG2 and ARG3 are read. -/
theorem test_pseudo_low_bits :
    (nextOf (execPseudo (args State.reset 0xC0A80114 0xC0A8010A 0x106 0x10014))).map (·.res) =
      some { r0 := 0x8389#32 } := by decide +kernel

/-- V2: 239.255.255.255 is the last multicast address. -/
theorem test_destClass_multicast : (nextOf (execDestClass (args booted 0xEFFFFFFF))).map (·.res) =
    some { r0 := 2#32 } := by decide +kernel

/-- V2: 223.255.255.255 lies below the multicast addresses. -/
theorem test_destClass_other : (nextOf (execDestClass (args booted 0xDFFFFFFF))).map (·.res) =
    some { r0 := 3#32 } := by decide +kernel

/-- V3 row 4. -/
theorem test_ethClassify_arp : (nextOf (execEthClassify (args (put State.reset 0x10C [8, 6]) 0x100 60))).map (·.res) =
    some { r0 := 1#32, r1 := 0x806#32, r2 := 0x10E#32, r3 := 46#32 } := by decide +kernel

/-- V3 row 8: a runt reads nothing. -/
theorem test_ethClassify_runt : (nextOf (execEthClassify (args State.reset 0xFFFFFFF0 13))).map (fun t => (t.code, t.res)) =
    some (.ok, { r0 := 2#32 }) := by decide +kernel

/-- V4 row 1. -/
theorem test_ipv4Rx_tcp : (nextOf (execIpv4Rx (args (put booted 0x10E tcpHeader) 0x10E 46))).map (·.res) =
    some { r0 := 1#32, r1 := 0xC0A80114#32, r2 := 0xC0A8010A#32, r3 := 0x00280006#32, r4 := 0x40008389#32,
           r5 := 0x122#32, r6 := 0x1C460014#32, r7 := 0x00400045#32 } := by decide +kernel

/-- V4 row 24: a fragment is reported before the destination. -/
theorem test_ipv4Rx_order :
    (nextOf (execIpv4Rx (args (put booted 0x10E
      [0x45, 0, 0, 0x28, 0x1C, 0x46, 0x20, 0, 0x40, 6, 0xBA, 0xC2, 0xC0, 0xA8, 1, 0x14, 0xC0, 0xA8, 1, 0x63]) 0x10E 46))).map
        (fun t => (t.res.r0, t.res.r3, t.res.r4)) =
      some (0x13#32, 0x00280306#32, 0x20000000#32) := by decide +kernel

/-- P2 statement 3: the SYN frame. -/
theorem test_rxFrame_syn :
    (nextOf (execRxFrame { args (put booted 0x100 (etherHeader ++ tcpHeader ++ synSegment)) 0x100 60 with
        isnFeed := [0x20000000#32] })).map (fun t => (t.res, heads t, (t.entry 1).valid)) =
      some ({ r0 := 0x00020100#32, r1 := 1#32, r2 := 0xC0A80114#32, r3 := 0x00280006#32, r4 := 0xC3500016#32,
              r5 := 0x136#32 }, [0x00010011#32, 0x00010002#32], true) := by decide +kernel

/-- The header of V4 row 2 in a frame, by R84: EV_ICMP and the stage verdicts. -/
theorem test_rxFrame_icmp :
    (nextOf (execRxFrame (args (put booted 0x100 (etherHeader ++ icmpHeader)) 0x100 74))).map (fun t => (t.res, t.evq)) =
      some ({ r0 := 0x00FF0000#32, r1 := 0xFFFFFFFF#32, r2 := 0xC0A80114#32, r3 := 0x003C0001#32, r5 := 0x122#32,
              r6 := 0x28#32 },
            [{ kind := .icmp, w1 := 0x122#32, w2 := 0x28#32, w3 := 0xC0A80114#32 }]) := by decide +kernel

/-- V5: swapped ports take another line. -/
theorem test_tcpHash : (nextOf (execTcpHash (args State.reset 0xC0A80114 0x10016 50000))).map (·.res.r0) = some 1#32 ∧
    (nextOf (execTcpHash (args State.reset 0xC0A80114 50000 22))).map (·.res.r0) = some 0#32 := by decide +kernel

/-- V5 row 1, and X6: the entry of the handshake. -/
theorem test_tcpLookup :
    (nextOf (execTcpLookup (args State.reset 0xC0A80114 22 50000))).map (·.res) =
      some { r0 := 0xFFFFFFFF#32, r1 := 1#32 } ∧
    (nextOf (execTcpLookup (args (connected 0x10000001#32) 0xC0A80114 22 50000))).map (·.res) =
      some { r0 := 1#32, r1 := 1#32 } := by decide +kernel

/-- V5 rows 3 and 4: a duplicate, and the second way of the line. -/
theorem test_tcpAlloc :
    (nextOf (execTcpAlloc (args (connected 0x10000001#32) 0xC0A80114 22 50000))).map (·.res) =
      some { r0 := 0xFFFFFFFF#32, r1 := 2#32 } ∧
    (nextOf (execTcpAlloc (args (connected 0x10000001#32) 0xC0A80114 22 50004))).map
        (fun t => (t.res, (t.entry 5).valid, (t.entry 5).remotePort)) =
      some ({ r0 := 5#32 }, true, 50004#16) := by decide +kernel

/-- V5 row 10: an entry that is not valid. -/
theorem test_tcpClear_not_valid : (nextOf (execTcpClear (args State.reset 1))).map (·.res) =
    some { r0 := 1#32, r1 := 1#32 } := by decide +kernel

/-- R89, R93: an occupied slot is released, by its slot number. -/
theorem test_tcpClear_releases :
    (nextOf (execTcpClear (args (connected 0x10000005#32 (pongRing 0#16)) 1))).map
        (fun t => (t.evq, (t.entry 1) == Entry.empty 4)) =
      some ([{ kind := .bufRelease, slot := 1#8, handle := 1#16, w1 := 0x2000#32, w2 := 24#32, w3 := 0x20000005#32 }],
            true) := by decide +kernel

/-- V6 row T4: data in order. -/
theorem test_tcpRx_data :
    (nextOf (execTcpRx (received (connected 0x10000001#32) pingSegment 0x838D))).map
        (fun t => (t.res, heads t, (t.entry 1).remoteSeq, (t.entry 1).remoteSeqSent)) =
      some ({ r0 := 6#32, r1 := 1#32, r2 := 0xC3500016#32, r3 := 0x10000001#32, r4 := 0x20000001#32, r5 := 0x518#32,
              r6 := 4#32, r7 := 0x214#32 }, [0x00010003#32, 0x00010012#32], 0x10000005#32, 0x10000005#32) := by
  decide +kernel

/-- V6 row T18: FIN. -/
theorem test_tcpRx_fin :
    (nextOf (execTcpRx (received (connected 0x10000005#32) finSegment 0x8389))).map
        (fun t => (t.res.r0, t.evq, (t.entry 1) == Entry.empty 4)) =
      some (7#32, [{ kind := .closed, handle := 1#16 },
        { kind := .replyFinAck, handle := 1#16, w1 := 0xC0A80114#32, w2 := 0xC3500016#32, w3 := 0x20000001#32,
          w4 := 0x10000006#32 }], true) := by decide +kernel

/-- P2 statement 7: "pong". -/
theorem test_tcpSend :
    (nextOf (execTcpSend (args (put (connected 0x10000005#32) 0x2000 pongSegment) 1 0x2000 4))).map
        (fun t => (t.res, t.evq, (t.entry 1).unacked.head?, t.mem.be32 0x200D, t.mem.be16 0x2010)) =
      some ({ r2 := 0x20000005#32, r3 := 0x4A16#32, r4 := 24#32 },
        [{ kind := .tx, handle := 1#16, w1 := 0x2000#32, w2 := 24#32, w3 := 0x20000005#32, w4 := 0xC0A80114#32 }],
        some (pongSlot 0#16), 0x1810004A#32, 0x4A16#16) := by decide +kernel

/-- V7 row S11: a full ring sends nothing, and byte 13 stays (90_conflicts.md C6). -/
theorem test_tcpSend_ring_full :
    (nextOf (execTcpSend (args (put (connected 0x10000005#32 (List.replicate 4 (pongSlot 0#16))) 0x2000 pongSegment)
        1 0x2000 4))).map (fun t => (t.res, t.evq, t.mem.byte 0x200D)) =
      some ({ r0 := 1#32, r1 := 0xFFFFFFFF#32 }, [], 0x10#8) := by decide +kernel

/-- P3 statement 5: the first tick only ages. -/
theorem test_ageTick_ages :
    (nextOf (execAgeTick (connected 0x10000005#32 (pongRing 0#16)))).map
        (fun t => (t.res, t.evq, (t.entry 1).unacked)) = some ({ r0 := 1#32 }, [], pongRing 1#16) := by decide +kernel

/-- P3 statement 6, with "pong" in slot 1: the second tick resends, and writes the checksum of P2 statement 7 (the bytes
differ from it by nothing but the field). -/
theorem test_ageTick_resends :
    (nextOf (execAgeTick (put (put (connected 0x10000005#32 (pongRing 1#16)) 0x2000 pongSegment) 0x200D [0x18]))).map
        (fun t => (t.res, t.evq, (t.entry 1).unacked, t.mem.be16 0x2010)) =
      some ({ r0 := 1#32, r1 := 1#32 },
        [{ kind := .retx, slot := 1#8, handle := 1#16, w1 := 0x2000#32, w2 := 24#32, w3 := 0x20000005#32,
           w4 := 0xC0A80114#32 }], pongRing 0#16, 0x4A16#16) := by decide +kernel

/-! ### The register window, reset, and the step itself -/

/-- With no access pending the block waits (log entry 1). -/
theorem test_block_waits : nextOf (step State.reset) = some State.reset := by decide +kernel

/-- The command that withFetchWord places is the very next step. -/
theorem test_withFetchWord : nextOf (step (booted.withFetchWord 32 0x00000003)) =
    nextOf (exec .destClass { booted with cmd := 3#32 }) := by decide +kernel

/-- R7 as the table gives the row: 32 bits. -/
theorem test_decodeTableWord : decodeTableWord 32 0x21 = some .ageTick ∧ decodeTableWord 32 0x121 = none := by
  decide +kernel

/-- V8 row 2: PARAM_TABLE. -/
theorem test_read_paramTable : (nextOf (step { State.reset with inputs := [.read 32 0x050#32] })).map (·.readData) =
    some 0x00020004#32 := by decide +kernel

/-- V9 row 2: STATUS with an error and a record in the queue. -/
theorem test_read_status :
    (nextOf (step { State.reset with
      inputs := [.read 32 0x004#32], code := .error .evqFull, err := true, evq := [{ kind := .closed }] })).map
        (·.readData) = some 0x305#32 := by decide +kernel

/-- V8 row 14: HOST_IP is locked. -/
theorem test_locked_hostIp :
    (nextOf (step { booted with inputs := [.write 32 0x040#32 0x01020304#32] })).map (·.hostIp) =
      some 0xC0A8010A#32 := by decide +kernel

/-- V8 row 9: only bit 8 of STATUS acts. -/
theorem test_write_status :
    (nextOf (step { State.reset with
      inputs := [.write 32 0x004#32 0x1FF#32], code := .error .illegalCmd, err := true })).map
        (fun t => (t.code, t.err)) = some (.error .illegalCmd, false) := by decide +kernel

/-- V5: the ports word of entry 1 in the TABLE window. -/
theorem test_read_table :
    (nextOf (step { connected 0x10000001#32 with inputs := [.read 32 0x1006C#32] })).map (·.readData) =
      some 0xC3500016#32 := by decide +kernel

/-- V9 rows 1 and 2: seven free records are needed, six do not do. -/
theorem test_evq_room :
    launchError .tcpRx { booted with evq := List.replicate 57 { kind := .closed } } = none ∧
    launchError .tcpRx { booted with evq := List.replicate 58 { kind := .closed } } = some .evqFull := by decide +kernel

/-- V8 row 18. -/
theorem test_reset :
    (nextOf (step { booted with inputs := [.reset], err := true, evq := [{ kind := .closed }] })) = some State.reset := by
  decide +kernel

/-! ### Witnesses: states and operands that meet the hypotheses of each statement, clause by clause -/

/-- The state a command leaves. -/
def after (i : Instr) (s : State) : State := (nextOf (exec i s)).getD s

theorem exec_after (i : Instr) (s : State) : exec i s = .next (after i s) := by
  obtain ⟨t, ht⟩ := exec_next i s
  rw [after, ht]
  rfl

/-- The segment that the operands name. -/
def segmentOf (s : State) : Segment := parseSegment s.mem s.arg0 s.arg1.toNat s.arg2

/-- A block with one connection, "pong" in its slot 1 and in memory. -/
def live : State := put (connected 0x10000001#32 (pongRing 1#16)) 0x2000 pongSegment

/-- Line 1 full: its two ways hold the tuples of ports 50004 and 50008. -/
def fullLine : State :=
  { booted with
    table := (booted.table.set 1 { opened 1#32 (List.replicate 4 Slot.empty) with remotePort := 50004#16 }).set 5
      { opened 1#32 (List.replicate 4 Slot.empty) with remotePort := 50008#16 } }

/-- The PSH-only segment of row T10 of V6. -/
def pshSegment : List Nat :=
  [0xC3, 0x50, 0, 0x16, 0x10, 0, 0, 5, 0x20, 0, 0, 1, 0x50, 0x08, 0xFA, 0xF0, 0x3E, 0x10, 0, 0]

/-- The SYN to the closed port 23 of row T12 of V6. -/
def closedSegment : List Nat :=
  [0xC3, 0x51, 0, 0x17, 0x30, 0, 0, 0, 0, 0, 0, 0, 0x50, 0x02, 0xFA, 0xF0, 0x3E, 0x1A, 0, 0]

/-- The segments of rows T6, T8 and T9 of V6: a wrong checksum, data offset 4, data offset 15. -/
def badSumSegment : List Nat :=
  [0xC3, 0x50, 0, 0x16, 0x10, 0, 0, 5, 0x20, 0, 0, 1, 0x50, 0x10, 0xFA, 0xF0, 0x3E, 0x09, 0, 0]
def doff4Segment : List Nat :=
  [0xC3, 0x50, 0, 0x16, 0x10, 0, 0, 5, 0x20, 0, 0, 1, 0x40, 0x10, 0xFA, 0xF0, 0x4E, 0x08, 0, 0]
def doff15Segment : List Nat :=
  [0xC3, 0x50, 0, 0x16, 0x10, 0, 0, 5, 0x20, 0, 0, 1, 0xF0, 0x10, 0xFA, 0xF0, 0x9D, 0xF3, 0, 0] ++ List.replicate 20 0

theorem tuplesOk_of {s : State} (n : Nat) (hn : s.params.handles = n)
    (hu : ∀ h < n, ∀ h' < n, (s.entry h).valid = true → (s.entry h').valid = true →
      (s.entry h).tuple = (s.entry h').tuple → h = h')
    (ho : ∀ h < n, (s.entry h).valid = true → h % s.params.tableLines = hashLine s.params (s.entry h).tuple) :
    s.TuplesOk :=
  ⟨fun h h' a b => hu h (hn ▸ a) h' (hn ▸ b), fun h a => ho h (hn ▸ a)⟩

theorem entriesOk_of {s : State}
    (h : ∀ e ∈ s.table, (∀ sl ∈ e.unacked,
        if sl.occupied then
          20 ≤ sl.len.toNat ∧ sl.len.toNat ≤ 65515 ∧ sl.buf.toNat + sl.len.toNat ≤ s.params.memSize ∧
            sl.age.toNat < s.params.retransmitTimeout
        else sl = Slot.empty) ∧ e.idle = 0#16 ∧ (e.valid = false → e = Entry.empty s.params.maxUnacked)) :
    ∀ e ∈ s.table, EntryOk s.params e :=
  fun e he => ⟨(h e he).1, (h e he).2.1, (h e he).2.2⟩

/-- The invariant holds with a live connection whose slot 1 is occupied, not only after reset. -/
theorem live_inv : live.Inv where
  params := test_params_wf
  shape := ⟨by decide +kernel, by decide +kernel⟩
  entries := entriesOk_of (by decide +kernel)
  tuples := tuplesOk_of 8 (by decide +kernel) (by decide +kernel) (by decide +kernel)
  memory := by decide +kernel
  memoryRange := by decide +kernel
  ports := by decide +kernel
  portsRange := by decide +kernel
  queue := by decide +kernel

theorem witness_DecodeEncodeAgree : decode 0x20#32 = .ok .tcpSend ∧ 0x20#32 = encode .tcpSend := by decide
theorem witness_IllegalWordOnlySetsStatus :
    { State.reset with inputs := [.write 32 0x008#32 0x100#32] }.inputs = [.write 32 0x008#32 0x100#32] ∧
    (0x100#32).toNat / 256 ≠ 0 ∧ (0x22#32).toNat % 256 ∉
      [0x00, 0x01, 0x02, 0x03, 0x08, 0x09, 0x0A, 0x10, 0x11, 0x12, 0x13, 0x18, 0x20, 0x21] := by decide
theorem witness_ErrorsChangeOnlyStatus :
    { State.reset with inputs := [.write 32 0x008#32 0x22#32] }.inputs = [.write 32 0x008#32 0x22#32] ∧
      ∀ i, decode 0x22#32 ≠ .ok i := by
  refine ⟨by decide, fun i => ?_⟩
  cases i <;> decide
theorem witness_StepRunsDecodedCommand :
    { live with inputs := [.write 32 0x008#32 0x21#32] }.inputs = [.write 32 0x008#32 0x21#32] ∧
      decode 0x21#32 = .ok .ageTick := by decide +kernel
/-- Each branch of the chain: not configured; handle 8 of 8; 58 records of 64; and a launch that passes. -/
theorem witness_LaunchChecksInOrder :
    State.reset.cfgLock = false ∧ booted.cfgLock = true ∧
    booted.params.tableWays * booted.params.tableLines ≤ (args booted 8).arg0.toNat ∧
    ¬ booted.params.tableWays * booted.params.tableLines ≤ (args booted 7).arg0.toNat ∧
    booted.params.evqDepth - (List.replicate 58 0).length < booted.params.maxUnacked + 3 ∧
    ¬ booted.params.evqDepth - (List.replicate 57 0).length < booted.params.maxUnacked + 3 := by decide +kernel
theorem witness_CommandsLeaveHostRegisters : ∃ t, exec .tcpSend (args live 1 0x2000 4) = .next t := exec_next _ _
theorem witness_PureCommandsFrame :
    Instr.ipv4Rx ∈ [Instr.nop, .cksum, .pseudo, .destClass, .ethClassify, .ipv4Rx, .tcpHash, .tcpLookup] ∧
      ∃ t, exec .ipv4Rx (args (put booted 0x10E tcpHeader) 0x10E 46) = .next t := ⟨by decide, exec_next _ _⟩
theorem witness_TableCommandsFrame :
    Instr.tcpRx ∈ [Instr.tcpAlloc, .tcpClear, .tcpRx, .rxFrame] ∧
      ∃ t, exec .tcpRx (received live rstSegment 0x8389) = .next t := ⟨by decide, exec_next _ _⟩
theorem witness_TcpSendFrame : ∃ t, exec .tcpSend (args live 1 0x2000 4) = .next t := exec_next _ _
theorem witness_AgeTickFrame : ∃ t, exec .ageTick live = .next t := exec_next _ _
theorem witness_EventsWithinWorstCase : live.TableShape ∧ ∃ t, exec .ageTick live = .next t :=
  ⟨live_inv.shape, exec_next _ _⟩
/-- Both branches: an accepted SYN, and a command that takes no value. -/
theorem witness_OneIsnPerAcceptedSyn :
    (let s := received { booted with isnFeed := [7#32] } synSegment 0x8389
     exec .tcpRx s = .next (after .tcpRx s) ∧ (after .tcpRx s).code = .ok ∧ (after .tcpRx s).res.r0 = 2#32) ∧
    exec .nop booted = .next (after .nop booted) :=
  ⟨⟨exec_after _ _, by decide +kernel, by decide +kernel⟩, exec_after _ _⟩
theorem witness_OnesComplementLaws :
    0x0102#16 ≠ 0#16 ∧ ([(1#8, 2#8), (3#8, 4#8)] : List (Byte × Byte)).Perm [(3#8, 4#8), (1#8, 2#8)] ∧
    (let m := (put State.reset 0 [0xC0, 0xA8, 1, 0x14, 0xC0, 0xA8, 1, 0x0A, 0, 6, 0, 20]).mem
     m.be32 0 = 0xC0A80114#32 ∧ m.be32 4 = 0xC0A8010A#32 ∧ m.byte 8 = 0#8 ∧ m.byte 9 = 6#8 ∧ m.be16 10 = 20#16) := by
  decide +kernel
theorem witness_ChecksumConcatenationAndPadding :
    ([1#8, 2#8] : List Byte).length % 2 = 0 ∧ ([1#8] : List Byte).length % 2 = 1 := by decide
/-- The header of row 1 of V4, with its byte 11 changed as in row 11, and with its last byte changed. -/
theorem witness_SingleByteChangeDetected :
    (let bs := tcpHeader.map (BitVec.ofNat 8)
     bs[11]? = some 0x1B#8 ∧ bs[19]? = some 0x0A#8 ∧ 0x1A#8 ≠ 0x1B#8 ∧ cksumBytes bs 0#16 = 0xFFFF#16) := by
  decide +kernel
theorem witness_Ipv4FilterProperties :
    (let s := args (put booted 0x10E icmpHeader) 0x10E 60
     exec .ipv4Rx s = .next (after .ipv4Rx s) ∧ (after .ipv4Rx s).code = .ok ∧
       (after .ipv4Rx s).res.r0.toNat ∈ [0x00, 0x01, 0x02]) :=
  ⟨exec_after _ _, by decide +kernel, by decide +kernel⟩
/-- 13 bytes; 14 bytes with another EtherType; 14 bytes of which the last lies at MEM_SIZE. -/
theorem witness_RxFrameStopsAtEthernet :
    booted.cfgLock = true ∧ booted.HasRoom (booted.params.maxUnacked + 3) ∧ (args booted 0x100 13).arg1.toNat < 14 ∧
    (let s := args (put booted 0x10C [8, 6]) 0x100 14
     14 ≤ s.arg1.toNat ∧ Fits s.params s.arg0.toNat 14 ∧ s.mem.be16 (s.arg0.toNat + 12) ≠ 0x0800#16) ∧
    Fits booted.params (args booted 0xFFF2 14).arg0.toNat 14 ∧
    ¬ Fits booted.params (args booted 0xFFF3 14).arg0.toNat 14 := by decide +kernel
/-- A frame that reaches the TCP stage, one that ends with EV_ICMP, one that is not for us, and one whose packet leaves
buffer memory. -/
theorem witness_RxFrameRunsItsStages :
    (∀ packet ∈ [tcpHeader ++ synSegment, icmpHeader, otherHeader],
      let s := args (put booted 0x100 (etherHeader ++ packet)) 0x100 60
      s.cfgLock = true ∧ s.HasRoom (s.params.maxUnacked + 3) ∧ 14 ≤ s.arg1.toNat ∧ Fits s.params s.arg0.toNat 14 ∧
        s.mem.be16 (s.arg0.toNat + 12) = 0x0800#16) ∧
    (let s := args (put booted 0xFFFE [8, 0]) 0xFFF2 14
     Fits s.params s.arg0.toNat 14 ∧ s.mem.be16 (s.arg0.toNat + 12) = 0x0800#16) := by decide +kernel
theorem witness_TcpHashYieldsLine :
    1 ≤ booted.params.tableLines ∧ booted.params.tableLines ≤ 65535 ∧ booted.params.hash = .default := by decide
/-- An entry that holds the tuple, and a table in which none does. -/
theorem witness_TcpLookupFindsTheEntry :
    live.params.Wf ∧ live.TableShape ∧ live.TuplesOk ∧
    (let s := args live 0xC0A80114 22 50000
     1 < s.params.handles ∧ (s.entry 1).valid = true ∧ (s.entry 1).remoteIp = s.arg0 ∧
       (s.entry 1).localPort.toNat = s.arg1.toNat % 65536 ∧ (s.entry 1).remotePort.toNat = s.arg2.toNat % 65536) ∧
    (∀ h < booted.params.handles, (booted.entry h).valid = false) :=
  ⟨live_inv.params, live_inv.shape, live_inv.tuples, by decide +kernel, by decide +kernel⟩
/-- A duplicate in way 0; a full line; the last way free, and the first. -/
theorem witness_TcpAllocTakesFirstFreeWay :
    live.params.Wf ∧ live.TableShape ∧
    (let s := args live 0xC0A80114 22 50000
     0 < s.params.tableWays ∧ (s.entry (0 * s.params.tableLines + hashLine s.params s.argTuple)).valid = true ∧
       (s.entry (0 * s.params.tableLines + hashLine s.params s.argTuple)).tuple = s.argTuple) ∧
    (let s := args fullLine 0xC0A80114 22 50000
     ∀ w < s.params.tableWays, (s.entry (w * s.params.tableLines + hashLine s.params s.argTuple)).valid = true ∧
       (s.entry (w * s.params.tableLines + hashLine s.params s.argTuple)).tuple ≠ s.argTuple) ∧
    (let s := args live 0xC0A80114 22 50004
     (s.entry (1 * s.params.tableLines + hashLine s.params s.argTuple)).valid = false ∧
       (∀ v < 1, (s.entry (v * s.params.tableLines + hashLine s.params s.argTuple)).valid = true) ∧
       ∀ v < s.params.tableWays, ¬ ((s.entry (v * s.params.tableLines + hashLine s.params s.argTuple)).valid = true ∧
         (s.entry (v * s.params.tableLines + hashLine s.params s.argTuple)).tuple = s.argTuple)) ∧
    (let s := args booted 0xC0A80114 22 50000
     (s.entry (0 * s.params.tableLines + hashLine s.params s.argTuple)).valid = false) :=
  ⟨live_inv.params, live_inv.shape, by decide +kernel, by decide +kernel, by decide +kernel, by decide +kernel⟩
/-- The last handle, and an entry that is valid. -/
theorem witness_TcpClearReleasesAndZeroes :
    (args live 7).arg0.toNat < live.params.tableWays * live.params.tableLines ∧ live.HasRoom live.params.maxUnacked ∧
    (live.entry (args live 7).arg0.toNat).valid = false ∧ (live.entry (args live 1).arg0.toNat).valid = true := by
  decide +kernel
/-- 19 bytes; 20 bytes of which the last lies at MEM_SIZE; a wrong sum; data offsets 4 and 15. -/
theorem witness_TcpRxChecksBeforeDispatch :
    live.HasRoom (live.params.maxUnacked + 3) ∧ (args live 0x200 19).arg1.toNat < 20 ∧
    Fits live.params (args live 0xFFEC 20).arg0.toNat 20 ∧ ¬ Fits live.params (args live 0xFFED 20).arg0.toNat 20 ∧
    (let s := received live badSumSegment 0x8389
     onesSum (s.arg3.toNat % 65536 + regionTotal s.mem s.arg0.toNat s.arg1.toNat) ≠ 0xFFFF) ∧
    (let s := received live doff4Segment 0x8389
     onesSum (s.arg3.toNat % 65536 + regionTotal s.mem s.arg0.toNat s.arg1.toNat) = 0xFFFF ∧
       (segmentOf s).doff.toNat < 5) ∧
    (let s := received live doff15Segment 0x839D
     Fits s.params s.arg0.toNat s.arg1.toNat ∧
       onesSum (s.arg3.toNat % 65536 + regionTotal s.mem s.arg0.toNat s.arg1.toNat) = 0xFFFF ∧
       s.arg1.toNat < 4 * (segmentOf s).doff.toNat) := by decide +kernel
/-- No flag; an RST and an ACK without a socket; an ACK out of order. -/
theorem witness_TcpRxSilentDrops :
    (let s := received live pshSegment 0x8389
     GoodSegment s (segmentOf s) ∧ (segmentOf s).rst = false ∧ (segmentOf s).syn = false ∧
       (segmentOf s).ackFlag = false) ∧
    (let s := received booted ackSegment 0x8389
     GoodSegment s (segmentOf s) ∧ (segmentOf s).rst = false ∧ (segmentOf s).ackFlag = true ∧
       s.lookup (segmentOf s).tuple = none) ∧
    (let s := received (connected 0x10000002#32) ackSegment 0x8389
     GoodSegment s (segmentOf s) ∧ s.lookup (segmentOf s).tuple = some 1 ∧
       (segmentOf s).seq ≠ (s.entry 1).remoteSeq) := by decide +kernel
theorem witness_TcpRxRstClearsTheEntry :
    (let s := received live rstSegment 0x8389
     GoodSegment s (segmentOf s) ∧ (segmentOf s).rst = true ∧ s.lookup (segmentOf s).tuple = some 1) ∧
    (let s := received booted rstSegment 0x8389
     GoodSegment s (segmentOf s) ∧ (segmentOf s).rst = true ∧ s.lookup (segmentOf s).tuple = none) := by
  decide +kernel
/-- A closed port; a full line; a duplicate. -/
theorem witness_TcpRxSynRefused :
    (let s := received booted closedSegment 0x8389
     GoodSegment s (segmentOf s) ∧ (segmentOf s).rst = false ∧ (segmentOf s).syn = true ∧
       (segmentOf s).ackFlag = false ∧ s.portIsOpen (segmentOf s).tuple.localPort = false) ∧
    (let s := received fullLine synSegment 0x8389
     GoodSegment s (segmentOf s) ∧ s.portIsOpen (segmentOf s).tuple.localPort = true ∧
       s.lookup (segmentOf s).tuple = none ∧ s.freeHandle (hashLine s.params (segmentOf s).tuple) = none) ∧
    (let s := received live synSegment 0x8389
     GoodSegment s (segmentOf s) ∧ s.portIsOpen (segmentOf s).tuple.localPort = true ∧
       s.lookup (segmentOf s).tuple = some 1) := by decide +kernel
/-- Without a value at the ISN input, and with one. -/
theorem witness_TcpRxSynAccepted :
    (∀ feed ∈ [[], [0x20000000#32]],
     let s := received { booted with isnFeed := feed } synSegment 0x8389
     s.isnFeed = feed ∧
     GoodSegment s (segmentOf s) ∧ (segmentOf s).rst = false ∧ (segmentOf s).syn = true ∧
       (segmentOf s).ackFlag = false ∧ s.portIsOpen (segmentOf s).tuple.localPort = true ∧
       s.lookup (segmentOf s).tuple = none ∧ s.freeHandle (hashLine s.params (segmentOf s).tuple) = some 1) := by
  decide +kernel
/-- Without and with a payload. -/
theorem witness_TcpRxAckProcessed :
    (let s := received live ackSegment 0x8389
     GoodSegment s (segmentOf s) ∧ (segmentOf s).rst = false ∧ (segmentOf s).ackFlag = true ∧
       (segmentOf s).fin = false ∧ s.lookup (segmentOf s).tuple = some 1 ∧
       (segmentOf s).seq = (s.entry 1).remoteSeq ∧ (segmentOf s).plen = 0) ∧
    (let s := received live pingSegment 0x838D
     GoodSegment s (segmentOf s) ∧ (segmentOf s).fin = false ∧ (segmentOf s).seq = (s.entry 1).remoteSeq ∧
       (segmentOf s).plen = 4) := by decide +kernel
theorem witness_TcpRxFinCloses :
    (let s := received (connected 0x10000005#32 (pongRing 0#16)) finSegment 0x8389
     GoodSegment s (segmentOf s) ∧ (segmentOf s).rst = false ∧ (segmentOf s).ackFlag = true ∧
       (segmentOf s).fin = true ∧ s.lookup (segmentOf s).tuple = some 1 ∧
       (segmentOf s).seq = (s.entry 1).remoteSeq) := by decide +kernel

/-- A booted block with the SYN of T1 received. -/
def synWaiting : State := received { booted with isnFeed := [0x20000000#32] } synSegment 0x8389

theorem synWaiting_inv : synWaiting.Inv where
  params := test_params_wf
  shape := ⟨by decide +kernel, by decide +kernel⟩
  entries := entriesOk_of (by decide +kernel)
  tuples := tuplesOk_of 8 (by decide +kernel) (by decide +kernel) (by decide +kernel)
  memory := by decide +kernel
  memoryRange := by decide +kernel
  ports := by decide +kernel
  portsRange := by decide +kernel
  queue := by decide +kernel

theorem witness_RepeatedSynIsDuplicate :
    synWaiting.Inv ∧ exec .tcpRx synWaiting = .next (after .tcpRx synWaiting) ∧
      (let t := after .tcpRx synWaiting
       t.code = .ok ∧ t.res.r0 = 2#32 ∧ t.HasRoom (t.params.maxUnacked + 3)) :=
  ⟨synWaiting_inv, exec_after _ _, by decide +kernel⟩

/-- The live connection with an RST of it received. -/
def rstWaiting : State := received live rstSegment 0x8389

theorem rstWaiting_inv : rstWaiting.Inv where
  params := test_params_wf
  shape := ⟨by decide +kernel, by decide +kernel⟩
  entries := entriesOk_of (by decide +kernel)
  tuples := tuplesOk_of 8 (by decide +kernel) (by decide +kernel) (by decide +kernel)
  memory := by decide +kernel
  memoryRange := by decide +kernel
  ports := by decide +kernel
  portsRange := by decide +kernel
  queue := by decide +kernel

/-- The ACK that comes after the RST, as row T19 of V6 shows for a FIN. -/
theorem witness_NoResponseAfterRst :
    rstWaiting.Inv ∧ exec .tcpRx rstWaiting = .next (after .tcpRx rstWaiting) ∧
      (let t := after .tcpRx rstWaiting
       let u := received t ackSegment 0x8389
       exec .tcpRx u = .next (after .tcpRx u)) ∧
      (let t := after .tcpRx rstWaiting
       let u := received t ackSegment 0x8389
       let v := after .tcpRx u
       t.code = .ok ∧ t.res.r0 = 0#32 ∧ u.table = t.table ∧ u.params = t.params ∧ u.arg2 = rstWaiting.arg2 ∧
         v.code = .ok ∧ v.res.r2 = t.res.r2 ∧ v.res.r0.toNat ∉ [0x02, 0x03, 0x04, 0x05]) :=
  ⟨rstWaiting_inv, exec_after _ _, exec_after _ _, by decide +kernel⟩

/-- Not valid; a header past MEM_SIZE; data offset 0, and 65516 bytes; a segment past MEM_SIZE; a full ring. -/
theorem witness_TcpSendRefusals :
    live.cfgLock = true ∧ (args live 7).arg0.toNat < live.params.tableWays * live.params.tableLines ∧
    live.HasRoom 1 ∧ (live.entry 7).valid = false ∧ (live.entry 1).valid = true ∧
    Fits live.params 0xFFEC 20 ∧ ¬ Fits live.params 0xFFED 20 ∧
    (live.mem.byte (0x30 + 12)).toNat / 16 < 5 ∧ (live.mem.byte (0x2000 + 12)).toNat / 16 = 5 ∧
    65515 < 4 * 5 + (args live 1 0x2000 65496).arg2.toNat ∧ 4 * 5 + (args live 1 0x2000 65495).arg2.toNat ≤ 65515 ∧
    ¬ Fits live.params 0x2000 (4 * 5 + 65495) ∧ Fits live.params 0x2000 (4 * 5 + 4) ∧
    (∀ sl ∈ (opened 1#32 (List.replicate 4 (pongSlot 0#16))).unacked, sl.occupied = true) := by decide +kernel
/-- Slot 0 free; and slot 1 the lowest free one. -/
theorem witness_TcpSendRecordsSegment :
    (let s := args live 1 0x2000 4
     s.cfgLock = true ∧ s.arg0.toNat < s.params.tableWays * s.params.tableLines ∧ s.HasRoom 1 ∧ Memory.wf s.mem ∧
       (s.entry 1).valid = true ∧ 5 ≤ (s.mem.byte (0x2000 + 12)).toNat / 16 ∧ Fits s.params 0x2000 24 ∧
       (s.entry 1).unacked[0]? = some Slot.empty) ∧
    (let s := connected 1#32 [pongSlot 0#16, Slot.empty, Slot.empty, Slot.empty]
     (s.entry 1).unacked[1]? = some Slot.empty ∧ (s.entry 1).unacked[0]? = some (pongSlot 0#16)) := by decide +kernel
theorem witness_SentSegmentValidates :
    (let s := args live 1 0x2000 4
     Memory.wf s.mem ∧ exec .tcpSend s = .next (after .tcpSend s) ∧ (after .tcpSend s).code = .ok ∧
       (after .tcpSend s).res.r0 = 0#32) :=
  ⟨by decide +kernel, exec_after _ _, by decide +kernel, by decide +kernel⟩
/-- A due segment in buffer memory, and one that is not; canonical memory, and a byte outside every field. -/
theorem witness_AgeTickAgesAndResends :
    live.cfgLock = true ∧ live.HasRoom (live.params.tableWays * live.params.tableLines * live.params.maxUnacked) ∧
    (∀ e ∈ live.table, e.valid = true → ∀ sl ∈ e.unacked, DueSlot live.params sl →
      Fits live.params sl.buf.toNat sl.len.toNat) ∧
    (let s := connected 1#32 [{ pongSlot 1#16 with buf := 0xFFE9#32 }]
     ¬ ∀ e ∈ s.table, e.valid = true → ∀ sl ∈ e.unacked, DueSlot s.params sl →
       Fits s.params sl.buf.toNat sl.len.toNat) ∧
    Memory.wf live.mem ∧
    (∀ e ∈ live.table, e.valid = true → ∀ sl ∈ e.unacked, DueSlot live.params sl →
      0 ≠ sl.buf.toNat + 16 ∧ 0 ≠ sl.buf.toNat + 17) := by decide +kernel
/-- Slot 1 of entry 1 is the only due segment. -/
theorem witness_ResentSegmentValidates :
    Memory.wf live.mem ∧ exec .ageTick live = .next (after .ageTick live) ∧ (after .ageTick live).code = .ok ∧
    live.table[1]? = some (opened 0x10000001#32 (pongRing 1#16)) ∧ (pongRing 1#16)[1]? = some (pongSlot 1#16) ∧
    DueSlot live.params (pongSlot 1#16) ∧ 18 ≤ (pongSlot 1#16).len.toNat ∧
    (∀ x ∈ live.table.zipIdx, x.1.valid = true → ∀ y ∈ x.1.unacked.zipIdx, DueSlot live.params y.1 →
      (x.2, y.2) = (1, 1)) :=
  ⟨by decide +kernel, exec_after _ _, by decide +kernel, by decide +kernel, by decide +kernel, by decide +kernel,
    by decide +kernel, by decide +kernel⟩
theorem witness_AgeTickNeverOutOfRange :
    live.Inv ∧ live.cfgLock = true ∧
      live.HasRoom (live.params.tableWays * live.params.tableLines * live.params.maxUnacked) :=
  ⟨live_inv, by decide +kernel, by decide +kernel⟩
/-- The first and the last offset of the list. -/
theorem witness_RegisterReads :
    { live with inputs := [.read 32 0x000#32] }.inputs = [.read 32 0x000#32] ∧
    ((0x000#32).toNat, 1#32) ∈ [(0x000, BitVec.ofNat 32 (if live.cfgLock then 1 else 0)), (0x068, live.evqPop)] ∧
    ((0x068#32).toNat, 0#32) ∈ [(0x000, BitVec.ofNat 32 (if live.cfgLock then 1 else 0)), (0x068, live.evqPop)] := by
  decide +kernel
/-- EVQ_HEAD0 and EVQ_HEAD5 with a record; the same with none; a pop with a record, and with none. -/
theorem witness_EventQueueAccess :
    BitVec.ofNat 32 (0x070 + 4 * 0) = 0x070#32 ∧ BitVec.ofNat 32 (0x070 + 4 * 5) = 0x084#32 ∧
    { live with inputs := [.read 32 0x084#32], evq := [{ kind := .tx }] }.inputs = [.read 32 0x084#32] ∧
    { live with evq := [{ kind := .tx }] }.evq = [{ kind := .tx }] ∧ live.evq = [] ∧
    { live with inputs := [.write 32 0x068#32 5#32] }.inputs = [.write 32 0x068#32 5#32] := by decide +kernel
/-- The first word of the window, the last word of the last entry, and the first word past it. -/
theorem witness_TableWindowReads :
    live.params.Wf ∧ (0x10000#32).toNat = 0x10000 + 4 * ((9 + 4 * live.params.maxUnacked) * 0 + 0) ∧
    24 < 9 + 4 * live.params.maxUnacked ∧
    (0x1031C#32).toNat = 0x10000 + 4 * ((9 + 4 * live.params.maxUnacked) * 7 + 24) ∧
    (0x10320#32).toNat = 0x10000 + 4 * ((9 + 4 * live.params.maxUnacked) * 8 + 0) :=
  ⟨live_inv.params, by decide +kernel⟩
/-- Writes to PARAM_ID, to offset 0x06C between EVQ_POP and EVQ_HEAD0, past PORT_OPEN and to the TABLE window; reads at
both ends of each unlisted range. -/
theorem witness_ReadOnlyAndUnlistedOffsets :
    (∀ off ∈ [0x00C#32, 0x06C#32, 0x0FFC#32, 0x3000#32, 0x10000#32], off.toNat % 4 = 0 ∧
      off.toNat ∉ [0x000, 0x004, 0x008, 0x010, 0x014, 0x018, 0x01C, 0x040, 0x044, 0x048, 0x068] ∧
      ¬ (0x1000 ≤ off.toNat ∧ off.toNat ≤ 0x2FFC)) ∧
    (∀ off ∈ [0x04C#32, 0x06C#32, 0x088#32, 0x0FFC#32, 0x3000#32, 0xFFFC#32], off.toNat % 4 = 0 ∧
      (off.toNat = 0x04C ∨ off.toNat = 0x06C ∨ (0x088 ≤ off.toNat ∧ off.toNat < 0x1000) ∨
        (0x2FFC < off.toNat ∧ off.toNat < 0x10000))) ∧
    { live with inputs := [.write 32 0x00C#32 1#32] }.inputs = [.write 32 0x00C#32 1#32] ∧
    { live with inputs := [.read 32 0x04C#32] }.inputs = [.read 32 0x04C#32] :=
  ⟨by simp, by simp, rfl, rfl⟩
theorem witness_RegisterWrites :
    ∀ off ∈ [0x000#32, 0x004#32, 0x010#32, 0x014#32, 0x018#32, 0x01C#32, 0x040#32, 0x044#32, 0x048#32],
      { live with inputs := [.write 32 off 0x101#32] }.inputs = [.write 32 off 0x101#32] := fun _ _ => rfl
/-- PORT_OPEN[0] and PORT_OPEN[2047]. -/
theorem witness_PortBitmapAccess :
    Cells.Wf live.portOpen ∧ (0x1000#32).toNat = 0x1000 + 4 * 0 ∧ 2047 < 2048 ∧
    (0x2FFC#32).toNat = 0x1000 + 4 * 2047 ∧
    { live with inputs := [.write 32 0x2FFC#32 1#32] }.inputs = [.write 32 0x2FFC#32 1#32] ∧
    { live with inputs := [.read 32 0x1000#32] }.inputs = [.read 32 0x1000#32] := by decide +kernel
/-- A 16-bit access, and offsets 1 and 3 past a register. -/
theorem witness_UnalignedAccessRefused :
    (16 ≠ 32) ∧ (0x011#32).toNat % 4 ≠ 0 ∧ (0x013#32).toNat % 4 ≠ 0 ∧
    { live with inputs := [.read 16 0x010#32] }.inputs = [.read 16 0x010#32] ∧
    { live with inputs := [.write 32 0x013#32 0#32] }.inputs = [.write 32 0x013#32 0#32] := by decide +kernel
/-- The last byte of buffer memory, and the first that does not exist. -/
theorem witness_HostMemoryAccess :
    Memory.wf live.mem ∧ (0xFFFF#32).toNat < live.params.memSize ∧ live.params.memSize ≤ (0x10000#32).toNat ∧
    { live with inputs := [.memWrite 0xFFFF#32 1#8] }.inputs = [.memWrite 0xFFFF#32 1#8] ∧
    { live with inputs := [.memRead 0x10000#32] }.inputs = [.memRead 0x10000#32] := by decide +kernel
theorem witness_ResetRestoresBlockState : { live with inputs := [.reset] }.inputs = [.reset] := by decide +kernel
theorem witness_ParametersNeverChange : ∃ t, step { live with inputs := [.reset] } = .next t := ⟨_, rfl⟩
theorem witness_LockedConfigurationStays :
    (let s := { live with inputs := [.write 32 0x040#32 5#32] }
     s.cfgLock = true ∧ (∃ t, step s = .next t) ∧ s.inputs.head? ≠ some .reset) :=
  ⟨by decide +kernel, ⟨_, rfl⟩, by decide +kernel⟩
/-- A write to PORT_OPEN[0], a write to buffer memory, and a reset. -/
theorem witness_OnlyCommandsWriteTheTable :
    ∀ a ∈ [HostAccess.write 32 0x1000#32 1#32, .memWrite 0x2000#32 1#8, .reset],
      (∃ t, step { live with inputs := [a] } = .next t) ∧
        ∀ v rest, { live with inputs := [a] }.inputs ≠ .write 32 0x008#32 v :: rest := by
  intro a ha
  simp only [List.mem_cons, List.mem_nil_iff, or_false] at ha
  rcases ha with rfl | rfl | rfl <;> exact ⟨⟨_, rfl⟩, by simp⟩
theorem witness_GatewayIpIsNotRead : ∃ t, exec .rxFrame live = .next t := exec_next _ _
/-- A step that resends, from a state that meets the invariant. -/
theorem witness_StepKeepsInvariant :
    live.Inv ∧ ∃ t, step (live.withCommandWrite 0x21#32) = .next t :=
  ⟨live_inv, _, rfl⟩
theorem witness_ResetMeetsInvariant : Config.params.Wf := test_params_wf

end Sys2Proof.Tests
end

section
/-!
No step changes the parameters (00_scope.md R8, 10_state.md R26): first for a host register write and for a command,
then for every access a step can take.
-/

namespace Sys2Proof.Machine

@[simp] theorem State.writeReg_params (s : State) (r : HostReg) (v : Word) : (s.writeReg r v).params = s.params := by
  obtain ⟨hframe, -⟩ := s.writeReg_frame r v
  rw [hframe]

theorem bodyOf_params {i : Instr} {s u : State} {r : Results} (h : bodyOf i s = .ok (u, r)) : u.params = s.params := by
  rw [bodyOf_frame h]

theorem exec_params {i : Instr} {s t : State} (h : exec i s = .next t) : t.params = s.params := by
  rcases exec_cases h with ⟨e, rfl⟩ | ⟨u, r, -, hbody, rfl⟩
  · exact State.raise_params e s
  · rw [State.finish_params, bodyOf_params hbody]

theorem takeNext_command_params {s u : State} {i : Instr} (h : takeNext s = .command i u) : u.params = s.params := by
  obtain ⟨_, _, -, -, rfl⟩ := takeNext_command h
  rfl

/-- An access that launches no command: nothing pending, a read, a write to a register, an illegal command word, the two
accesses to buffer memory, and reset. -/
theorem takeNext_done_params {s t : State} (h : takeNext s = .done (.next t)) : t.params = s.params := by
  rcases takeNext_done h with ⟨-, rfl⟩ | ⟨_, _, -, rfl⟩ | ⟨_, _, _, -, -, -, rfl⟩ | ⟨_, _, -, rfl⟩ |
    ⟨_, _, -, -, rfl⟩ | ⟨_, _, _, -, -, rfl⟩ | ⟨_, -, rfl⟩
  exacts [rfl, rfl, State.writeReg_params _ _ _, rfl, rfl, rfl, State.hostReset_params _]

/-- Settles O55: a step is a command on the state that kept its word, or an access that launches none, and both keep the
parameters. -/
theorem parametersNeverChange : Obligations.ParametersNeverChange := by
  unfold Obligations.ParametersNeverChange
  intro s t h
  rcases step_cases h with ⟨_, u, hlaunch, hexec⟩ | hdone
  · calc t.params
      _ = u.params := exec_params hexec
      _ = s.params := takeNext_command_params hlaunch
  · exact takeNext_done_params hdone

end Sys2Proof.Machine
end

section
/-!
What the body of a command that ended with OK has done, once for all commands (30_encoding.md R51).
-/

namespace Sys2Proof.Machine

/-- tcp_rx that answers a state has dropped the segment, which is no accepted SYN, or has dispatched it (R97, R98). -/
theorem State.tcpRx_ok {s t : State} {seg : Word} {slen : Nat} {rip : Word} {prelude : Half} {c : TcpInfo}
    (h : s.tcpRx seg slen rip prelude = .ok (t, c)) :
    (t = s ∧ c.verdict ≠ .synAccepted) ∨ ∃ g, s.rxDispatch g = (t, c) := by
  rcases s.tcpRx_cases seg slen rip prelude with ⟨-, -, h'⟩ | ⟨_, -, hv, h'⟩ | ⟨-, -, -, -, -, h'⟩ <;> rw [h'] at h
  · cases h
  · cases h; exact .inl ⟨rfl, hv⟩
  · exact .inr ⟨_, Except.ok.inj h⟩

/-- What the body of a command can have done to the state (R77 to R113), by the one command or two that do it. -/
theorem bodyOf_cases {i : Instr} {s u : State} {r : Results} (h : bodyOf i s = .ok (u, r)) :
    u = s ∨
    (i = .tcpAlloc ∧ ∃ k, s.lookup s.argTuple = none ∧ s.freeHandle (hashLine s.params s.argTuple) = some k ∧
      u = s.setEntry k (Entry.fresh s.params.maxUnacked s.argTuple)) ∨
    (i = .tcpClear ∧ (s.entry s.arg0.toNat).valid = true ∧ u = s.clearEntry s.arg0.toNat) ∨
    (i = .rxFrame ∧ ∃ info, u = s.emit (Event.ofIcmp info)) ∨
    ((i = .tcpRx ∨ i = .rxFrame) ∧ ∃ g c, s.rxDispatch g = (u, c)) ∨
    (i = .tcpSend ∧ ∃ k len, (s.entry s.arg0.toNat).valid = true ∧ 20 ≤ len ∧ len ≤ 65515 ∧
      Fits s.params s.arg1.toNat len ∧ u = (s.sendSegment s.arg0.toNat s.arg1.toNat s.arg2.toNat len k).1) ∨
    (i = .ageTick ∧ u = { s with
      table := s.table.map (agedEntry s.params)
      mem := (dueSegments s.params s.table).foldl
        (fun m x => sealSegment m s.hostIp x.1 x.2.buf.toNat x.2.len.toNat) s.mem
      evq := s.evq ++ retxRecords s.params s.table }) := by
  cases i <;> simp only [bodyOf] at h
  case nop | pseudo | destClass | tcpHash | tcpLookup => cases h; exact .inl rfl
  case cksum => unfold cksumBody at h; split at h <;> cases h; exact .inl rfl
  case ethClassify => unfold ethClassifyBody at h; split at h <;> cases h; exact .inl rfl
  case ipv4Rx => unfold ipv4RxBody at h; split at h <;> cases h; exact .inl rfl
  case tcpAlloc =>
    unfold tcpAllocBody at h
    rcases s.alloc_cases s.argTuple with ⟨_, -, ha⟩ | ⟨-, -, ha⟩ | ⟨k, hl, hf, ha⟩ <;> rw [ha] at h <;> cases h
    exacts [.inl rfl, .inl rfl, .inr (.inl ⟨rfl, k, hl, hf, rfl⟩)]
  case tcpClear =>
    unfold tcpClearBody at h
    split at h <;> cases h
    next hv => exact .inr (.inr (.inl ⟨rfl, hv, rfl⟩))
    · exact .inl rfl
  case rxFrame =>
    rcases rxFrameBody_cases s with hb | ⟨_, hb, -⟩ | ⟨info, _, -, hb, -⟩ | ⟨_, _, _, _, -, -, ht, hb, -⟩ <;>
      rw [hb] at h <;> cases h
    · exact .inl rfl
    · exact .inr (.inr (.inr (.inl ⟨rfl, info, rfl⟩)))
    · exact (State.tcpRx_ok ht).imp And.left fun ⟨g, hg⟩ => .inr (.inr (.inr (.inl ⟨.inr rfl, g, _, hg⟩)))
  case tcpRx =>
    unfold tcpRxBody at h
    split at h
    · cases h
    next ht =>
      cases h
      exact (State.tcpRx_ok ht).imp And.left fun ⟨g, hg⟩ => .inr (.inr (.inr (.inl ⟨.inl rfl, g, _, hg⟩)))
  case tcpSend =>
    rcases tcpSendBody_cases s with hb | ⟨_, -, hb⟩ | ⟨k, len, hv, hlen, h20, hle, hfit, -, hb⟩ <;>
      rw [hb] at h <;> cases h
    · exact .inl rfl
    · exact .inr (.inr (.inr (.inr (.inr (.inl ⟨rfl, k, len, hv, by omega, hle, hfit, rfl⟩)))))
  case ageTick =>
    rw [ageTickBody_eq] at h
    split at h <;> cases h
    exact .inr (.inr (.inr (.inr (.inr (.inr ⟨rfl, rfl⟩)))))

end Sys2Proof.Machine
end

section
/-!
The invariant's parts, each with the one lemma per state operation that keeps it (10_state.md R36, R38 to R40,
42_socket_table.md R95, 44_retransmit.md R118).
-/

namespace Sys2Proof.Machine

theorem SlotOk.empty (p : Params) : SlotOk p Slot.empty := by simp [SlotOk, Slot.empty]

/-- An invalid entry meets what is asked of an entry (R38). -/
theorem EntryOk.empty (p : Params) : EntryOk p (Entry.empty p.maxUnacked) where
  slots sl hsl := by rw [List.eq_of_mem_replicate hsl]; exact SlotOk.empty p
  idle := rfl
  invalid _ := rfl

/-- A valid entry meets it where its slots do. -/
theorem EntryOk.of_valid {p : Params} {e : Entry} (hv : e.valid = true) (hi : e.idle = 0#16)
    (hs : ∀ sl ∈ e.unacked, SlotOk p sl) : EntryOk p e where
  slots := hs
  idle := hi
  invalid hn := by rw [hv] at hn; cases hn

/-- A release keeps the slots legal (R102). -/
theorem SlotOk.keepSlots {p : Params} {slots : List Slot} (pick : Slot → Bool) (h : ∀ sl ∈ slots, SlotOk p sl) :
    ∀ sl ∈ keepSlots pick slots, SlotOk p sl := by
  intro sl hsl
  obtain ⟨sl', hsl', rfl⟩ := List.mem_map.1 hsl
  split
  · exact SlotOk.empty p
  · exact h sl' hsl'

/-- A tick keeps a slot legal: a counter that reaches the timeout starts again (R112, R118). -/
theorem SlotOk.aged {p : Params} {sl : Slot} (hp : p.Wf) (h : SlotOk p sl) : SlotOk p (agedSlot p sl) := by
  unfold agedSlot
  split
  next ho =>
    obtain ⟨h20, hlen, hmem, hage⟩ : _ ∧ _ ∧ _ ∧ _ := by simpa [SlotOk, ho] using h
    have hpos := hp.timeout_pos
    have hle := hp.timeout_le
    split <;> simp only [SlotOk, ho, if_true, BitVec.toNat_ofNat] <;> exact ⟨h20, hlen, hmem, by omega⟩
  · exact h

theorem EntryOk.aged {p : Params} {e : Entry} (hp : p.Wf) (h : EntryOk p e) : EntryOk p (agedEntry p e) := by
  unfold agedEntry
  split
  next hv =>
    refine EntryOk.of_valid hv h.idle fun sl hsl => ?_
    obtain ⟨sl', hsl', rfl⟩ := List.mem_map.1 hsl
    exact (h.slots sl' hsl').aged hp
  · exact h

@[simp] theorem agedEntry_valid (p : Params) (e : Entry) : (agedEntry p e).valid = e.valid := by
  unfold agedEntry; split <;> rfl

@[simp] theorem agedEntry_tuple (p : Params) (e : Entry) : (agedEntry p e).tuple = e.tuple := by
  unfold agedEntry; split <;> rfl

@[simp] theorem agedEntry_unacked_length (p : Params) (e : Entry) :
    (agedEntry p e).unacked.length = e.unacked.length := by
  unfold agedEntry; split <;> simp

/-- A tick's table, read at any handle: past the end is the empty entry, which a tick passes over. -/
theorem State.entry_of_map_aged {s t : State} (ht : t.table = s.table.map (agedEntry s.params))
    (hp : t.params = s.params) (h : Nat) : t.entry h = agedEntry s.params (s.entry h) := by
  have hempty : Entry.empty s.params.maxUnacked = agedEntry s.params (Entry.empty s.params.maxUnacked) := rfl
  rw [State.entry, ht, hp, hempty, List.getD_map]
  rfl

/-- Everything the invariant says of the socket table. -/
structure State.TableOk (s : State) : Prop where
  shape : s.TableShape
  entries : ∀ e ∈ s.table, EntryOk s.params e
  tuples : s.TuplesOk

theorem State.Inv.tableOk {s : State} (h : s.Inv) : s.TableOk := ⟨h.shape, h.entries, h.tuples⟩

theorem State.TableOk.congr {s t : State} (h : s.TableOk) (ht : t.table = s.table) (hp : t.params = s.params) :
    t.TableOk := by
  obtain ⟨⟨hlen, hslots⟩, hentries, hunique, hline⟩ := h
  exact ⟨⟨by rw [ht, hp]; exact hlen, by rw [ht, hp]; exact hslots⟩, by rw [ht, hp]; exact hentries,
    by simpa only [State.entry, ht, hp] using hunique, by simpa only [State.entry, ht, hp] using hline⟩

/-- The entry that a handle of the table names. -/
theorem State.TableOk.entry {s : State} (h : s.TableOk) {k : Nat} (hk : k < s.table.length) :
    EntryOk s.params (s.entry k) := h.entries _ (State.entry_mem hk)

theorem State.TableOk.slots_length {s : State} (h : s.TableOk) {k : Nat} (hk : k < s.table.length) :
    (s.entry k).unacked.length = s.params.maxUnacked := h.shape.slots _ (State.entry_mem hk)

/-- One entry may be replaced by any legal one that, where it is valid, lies on its tuple's line and whose tuple no other
valid entry holds (R39 item 2, R86, R95). -/
theorem State.TableOk.set {s t : State} {k : Nat} {e : Entry} (h : s.TableOk) (hk : k < s.table.length)
    (ht : t.table = s.table.set k e) (hp : t.params = s.params) (hlen : e.unacked.length = s.params.maxUnacked)
    (he : EntryOk s.params e) (hline : e.valid = true → k % s.params.tableLines = hashLine s.params e.tuple)
    (hnew : e.valid = true → ∀ j, j ≠ k → j < s.params.handles → (s.entry j).valid = true →
      (s.entry j).tuple ≠ e.tuple) : t.TableOk := by
  have hself : t.entry k = e := State.entry_of_set_self ht hk
  have hne : ∀ j, j ≠ k → t.entry j = s.entry j := fun j hj => State.entry_of_set ht hp hj.symm
  refine ⟨⟨?_, ?_⟩, ?_, ?_, ?_⟩
  · rw [ht, List.length_set, hp]
    exact h.shape.entries
  · intro x hx
    rw [ht] at hx
    rw [hp]
    rcases List.mem_or_eq_of_mem_set hx with hx | rfl
    exacts [h.shape.slots x hx, hlen]
  · intro x hx
    rw [ht] at hx
    rw [hp]
    rcases List.mem_or_eq_of_mem_set hx with hx | rfl
    exacts [h.entries x hx, he]
  · intro a b ha hb hva hvb hab
    rw [hp] at ha hb
    by_cases hak : a = k <;> by_cases hbk : b = k
    · rw [hak, hbk]
    · subst hak
      rw [hself] at hva hab
      rw [hne b hbk] at hvb hab
      exact absurd hab.symm (hnew hva b hbk hb hvb)
    · subst hbk
      rw [hself] at hvb hab
      rw [hne a hak] at hva hab
      exact absurd hab (hnew hvb a hak ha hva)
    · rw [hne a hak] at hva hab
      rw [hne b hbk] at hvb hab
      exact h.tuples.unique a b ha hb hva hvb hab
  · intro a ha hva
    rw [hp] at ha ⊢
    by_cases hak : a = k
    · subst hak
      rw [hself] at hva ⊢
      exact hline hva
    · rw [hne a hak] at hva ⊢
      exact h.tuples.onLine a ha hva

/-- An entry may be cleared (R89). -/
theorem State.TableOk.set_empty {s t : State} {k : Nat} (h : s.TableOk) (hk : k < s.table.length)
    (ht : t.table = s.table.set k (Entry.empty s.params.maxUnacked)) (hp : t.params = s.params) : t.TableOk :=
  h.set hk ht hp (by simp [Entry.empty]) (EntryOk.empty _) (fun hv => by cases hv) (fun hv => by cases hv)

/-- A valid entry may change in all but its tuple. -/
theorem State.TableOk.set_same_tuple {s t : State} {k : Nat} {e : Entry} (h : s.TableOk)
    (hv : (s.entry k).valid = true) (ht : t.table = s.table.set k e) (hp : t.params = s.params)
    (hlen : e.unacked.length = s.params.maxUnacked) (he : EntryOk s.params e) (htup : e.tuple = (s.entry k).tuple) :
    t.TableOk := by
  have hk := State.lt_of_valid hv
  have hk' : k < s.params.handles := h.shape.entries ▸ hk
  refine h.set hk ht hp hlen he (fun _ => ?_) fun _ j hj hlt hvj hjk => hj ?_
  · rw [htup]
    exact h.tuples.onLine k hk' hv
  · exact h.tuples.unique j k hlt hk' hvj hv (hjk.trans htup)

/-- The lookup finds every valid entry of a legal table, so its null says that no entry holds the tuple (R87, R95). -/
theorem State.TableOk.ne_of_lookup_none {s : State} {x : Tuple} (h : s.TableOk) (hl : s.lookup x = none) {j : Nat}
    (hj : j < s.params.handles) (hv : (s.entry j).valid = true) : (s.entry j).tuple ≠ x := by
  intro hx
  have hline := h.tuples.onLine j hj hv
  rw [hx] at hline
  have hway : j / s.params.tableLines < s.params.tableWays := Nat.div_lt_of_lt_mul (by rwa [Nat.mul_comm])
  have hnone := State.lookup_none.1 hl _ hway
  rw [← hline, Nat.div_add_mod', (Entry.holds_iff _ _).2 ⟨hv, hx⟩] at hnone
  cases hnone

/-- A free way of its line may take a tuple that the lookup did not find (R88). -/
theorem State.TableOk.set_free {s t : State} {k : Nat} {e : Entry} {x : Tuple} (h : s.TableOk) (hwf : s.params.Wf)
    (hl : s.lookup x = none) (hf : s.freeHandle (hashLine s.params x) = some k) (ht : t.table = s.table.set k e)
    (hp : t.params = s.params) (hv : e.valid = true) (hi : e.idle = 0#16)
    (hs : e.unacked = List.replicate s.params.maxUnacked Slot.empty) (htup : e.tuple = x) : t.TableOk := by
  obtain ⟨-, w, hw, rfl⟩ := State.freeHandle_some hf
  have hline := hashLine_lt hwf.lines_pos x
  have hk := probe_lt hw hline
  subst htup
  refine h.set (h.shape.entries ▸ hk) ht hp (by rw [hs, List.length_replicate]) (EntryOk.of_valid hv hi fun sl hsl => ?_)
    (fun _ => ?_) fun _ j _ hj hvj => h.ne_of_lookup_none hl hj hvj
  · rw [hs] at hsl
    rw [List.eq_of_mem_replicate hsl]
    exact SlotOk.empty _
  · exact Nat.mul_add_mod_of_lt hline

/-- A tick keeps the table legal (R112). -/
theorem State.TableOk.aged {s t : State} (h : s.TableOk) (hwf : s.params.Wf)
    (ht : t.table = s.table.map (agedEntry s.params)) (hp : t.params = s.params) : t.TableOk := by
  have hentry := State.entry_of_map_aged ht hp
  refine ⟨⟨?_, ?_⟩, ?_, ?_, ?_⟩
  · rw [ht, List.length_map, hp]
    exact h.shape.entries
  · rw [ht, hp]
    exact List.forall_mem_map.2 fun e he => by rw [agedEntry_unacked_length]; exact h.shape.slots e he
  · rw [ht, hp]
    exact List.forall_mem_map.2 fun e he => (h.entries e he).aged hwf
  · simpa only [hentry, hp, agedEntry_valid, agedEntry_tuple] using h.tuples.unique
  · simpa only [hentry, hp, agedEntry_valid, agedEntry_tuple] using h.tuples.onLine

/-- Buffer memory as the invariant has it: canonical, and no byte past its size (R42). -/
structure MemoryOk (p : Params) (m : Memory) : Prop where
  wf : Memory.wf m
  range : ∀ c ∈ m, c.1 < p.memSize

theorem MemoryOk.setByte {p : Params} {m : Memory} (h : MemoryOk p m) {a : Nat} (v : Byte) (ha : a < p.memSize) :
    MemoryOk p (m.setByte a v) where
  wf := Memory.wf_setByte a v h.wf
  range c hc := by
    rcases Cells.mem_write (n := 8) hc with ⟨rfl, -⟩ | hc
    exacts [ha, h.range c hc]

theorem MemoryOk.seal {p : Params} {m : Memory} (h : MemoryOk p m) (hostIp remoteIp : Word) {buf : Nat} (len : Nat)
    (hb : buf + 17 < p.memSize) : MemoryOk p (sealSegment m hostIp remoteIp buf len) where
  wf := wf_sealSegment _ _ _ _ h.wf
  range c hc := by
    rcases mem_sealSegment hc with hc | hc | hc
    exacts [by omega, by omega, h.range c hc]

/-- The checksum fields that a tick writes lie in legal slots' segments (R112, R118). -/
theorem MemoryOk.sealAll {s : State} (h : MemoryOk s.params s.mem) (ht : s.TableOk) :
    MemoryOk s.params ((dueSegments s.params s.table).foldl
      (fun m x => sealSegment m s.hostIp x.1 x.2.buf.toNat x.2.len.toNat) s.mem) where
  wf := wf_sealAll _ _ h.wf
  range c hc := by
    rcases mem_sealAll _ _ hc with hc | ⟨x, hx, hc⟩
    · exact h.range c hc
    · obtain ⟨e, he, -, -, hsl, ho, -⟩ := mem_dueSegments.1 hx
      obtain ⟨h20, -, hmem, -⟩ : _ ∧ _ ∧ _ ∧ _ := by simpa [SlotOk, ho] using (ht.entries e he).slots _ hsl
      omega

/-- The port words as the invariant has them (R30). -/
structure PortsOk (w : PortWords) : Prop where
  wf : Cells.Wf w
  range : ∀ c ∈ w, c.1 < 2048

theorem PortsOk.write {w : PortWords} (h : PortsOk w) {i : Nat} (v : Word) (hi : i < 2048) :
    PortsOk (Cells.write w i v) where
  wf := Cells.wf_write i v h.wf
  range c hc := by
    rcases Cells.mem_write hc with ⟨rfl, -⟩ | hc
    exacts [hi, h.range c hc]

/-- The invariant from its parts. -/
theorem State.Inv.of_parts {t : State} (hp : t.params.Wf) (ht : t.TableOk) (hm : MemoryOk t.params t.mem)
    (hw : PortsOk t.portOpen) (hq : t.evq.length ≤ t.params.evqDepth) : t.Inv :=
  ⟨hp, ht.shape, ht.entries, ht.tuples, hm.wf, hm.range, hw.wf, hw.range, hq⟩

theorem State.Inv.memoryOk {s : State} (h : s.Inv) : MemoryOk s.params s.mem := ⟨h.memory, h.memoryRange⟩

theorem State.Inv.portsOk {s : State} (h : s.Inv) : PortsOk s.portOpen := ⟨h.ports, h.portsRange⟩

end Sys2Proof.Machine
end

section
/-!
The event queue: a command appends at most its worst case (10_state.md R27, R28, 30_encoding.md R61), and takes from the
ISN input for an accepted SYN alone (R31).
-/

namespace Sys2Proof.Machine

/-- A tick reports each slot of a valid entry at most once (R112). -/
theorem retxRecords_length_le {s : State} (h : s.TableShape) :
    (retxRecords s.params s.table).length ≤ s.params.handles * s.params.maxUnacked := by
  have hentry : ∀ x ∈ s.table.zipIdx, (if x.1.valid then
      (x.1.unacked.zipIdx.filter fun y => decide (DueSlot s.params y.1)).map fun y =>
        ({ kind := .retx, slot := BitVec.ofNat 8 y.2, handle := BitVec.ofNat 16 x.2, w1 := y.1.buf,
           w2 := BitVec.ofNat 32 y.1.len.toNat, w3 := y.1.endSeq, w4 := x.1.remoteIp } : Event)
      else []).length ≤ s.params.maxUnacked := by
    intro x hx
    rw [← h.slots x.1 (List.fst_mem_of_mem_zipIdx hx)]
    split
    · rw [List.length_map]
      exact (List.length_filter_le _ _).trans_eq List.length_zipIdx
    · exact Nat.zero_le _
  calc (retxRecords s.params s.table).length
    _ ≤ s.table.zipIdx.length * s.params.maxUnacked := by
      rw [retxRecords, List.length_flatMap, ← smul_eq_mul, ← List.length_map (as := s.table.zipIdx)]
      exact List.sum_le_card_nsmul _ _ (List.forall_mem_map.2 hentry)
    _ = s.params.handles * s.params.maxUnacked := by rw [List.length_zipIdx, h.entries]

/-- A body only appends records, and at most the worst case of its command (R61). -/
theorem bodyOf_events {i : Instr} {s u : State} {r : Results} (hs : s.TableShape) (h : bodyOf i s = .ok (u, r)) :
    ∃ es : List Event, u.evq = s.evq ++ es ∧ es.length ≤ worstEvents s.params i := by
  have hslots : ∀ {k : Nat}, (s.entry k).valid = true → (s.entry k).unacked.length = s.params.maxUnacked :=
    fun hv => hs.slots _ (State.entry_mem (State.lt_of_valid hv))
  rcases bodyOf_cases h with rfl | ⟨rfl, _, -, -, rfl⟩ | ⟨rfl, hv, rfl⟩ | ⟨rfl, info, rfl⟩ | ⟨hi, g, c, hg⟩ |
    ⟨rfl, k, len, -, -, -, -, rfl⟩ | ⟨rfl, rfl⟩
  · exact ⟨[], by simp, Nat.zero_le _⟩
  · exact ⟨[], by simp, Nat.zero_le _⟩
  · exact ⟨_, by rw [State.clearEntry_eq], (releaseRecords_length_le _ _ _).trans_eq (hslots hv)⟩
  · exact ⟨[Event.ofIcmp info], rfl, Nat.le_add_left 1 _⟩
  · have hworst : worstEvents s.params i = s.params.maxUnacked + 3 := by rcases hi with rfl | rfl <;> rfl
    rw [hworst]
    rcases s.rxDispatch_cases g with ⟨_, _, -, hd⟩ | ⟨_, -, hd⟩ | ⟨_, k, es, e, -, hl, hes, -, hd⟩ |
      ⟨_, -, -, -, -, -, hd⟩ <;> rw [hd] at hg <;> cases hg
    · exact ⟨[], by simp, Nat.zero_le _⟩
    · exact ⟨[g.rstAck], rfl, Nat.le_add_left 1 _⟩
    · obtain ⟨hv, -⟩ := State.lookup_some hl
      exact ⟨es, rfl, by rwa [hslots hv] at hes⟩
    · exact ⟨_, rfl, by simp⟩
  · exact ⟨[_], rfl, Nat.le_refl 1⟩
  · exact ⟨_, rfl, retxRecords_length_le hs⟩

/-- A command only appends records, and at most its worst case (R27, R61). -/
theorem exec_events {i : Instr} {s t : State} (hs : s.TableShape) (h : exec i s = .next t) :
    ∃ es : List Event, t.evq = s.evq ++ es ∧ es.length ≤ worstEvents s.params i := by
  rcases exec_cases h with ⟨e, rfl⟩ | ⟨u, r, -, hbody, rfl⟩
  · exact ⟨[], by simp, Nat.zero_le _⟩
  · rw [State.finish_evq]
    exact bodyOf_events hs hbody

/-- Settles O12: every command appends at most the worst case of R61, written out. -/
theorem eventsWithinWorstCase : Obligations.EventsWithinWorstCase := by
  unfold Obligations.EventsWithinWorstCase
  intro i s t hs h
  obtain ⟨es, hevq, hlen⟩ := exec_events hs h
  refine ⟨es, hevq, hlen.trans_eq ?_⟩
  cases i <;> rfl

/-- The dispatch takes one value from the ISN input where it accepts a SYN, and none otherwise (R31, R100). -/
theorem State.rxDispatch_isn {s t : State} {g : Segment} {c : TcpInfo} (h : s.rxDispatch g = (t, c)) :
    if c.verdict = .synAccepted then t.isnFeed = s.isnFeed.tail ∧ t.isnDrawn = s.isnDrawn + 1
    else t.isnFeed = s.isnFeed ∧ t.isnDrawn = s.isnDrawn := by
  rcases s.rxDispatch_cases g with ⟨v, _, hv, hd⟩ | ⟨v, hv, hd⟩ | ⟨v, _, _, _, hv, -, -, -, hd⟩ |
    ⟨_, -, -, -, -, -, hd⟩ <;> rw [hd] at h <;> cases h
  · rw [if_neg (by exact hv)]
    exact ⟨rfl, rfl⟩
  · rw [if_neg (by rcases hv with rfl | rfl <;> simp)]
    exact ⟨rfl, rfl⟩
  · rw [if_neg (by rcases hv with rfl | rfl | rfl <;> simp)]
    exact ⟨rfl, rfl⟩
  · rw [if_pos (by rfl)]
    exact ⟨rfl, rfl⟩

/-- tcp_rx takes one value from the ISN input where it accepts a SYN, and none otherwise (R31). -/
theorem State.tcpRx_isn {s t : State} {seg : Word} {slen : Nat} {rip : Word} {prelude : Half} {c : TcpInfo}
    (h : s.tcpRx seg slen rip prelude = .ok (t, c)) :
    if c.verdict = .synAccepted then t.isnFeed = s.isnFeed.tail ∧ t.isnDrawn = s.isnDrawn + 1
    else t.isnFeed = s.isnFeed ∧ t.isnDrawn = s.isnDrawn := by
  rcases State.tcpRx_ok h with ⟨rfl, hv⟩ | ⟨g, hg⟩
  · rw [if_neg hv]
    exact ⟨rfl, rfl⟩
  · exact State.rxDispatch_isn hg

/-- The code 2 is that of an accepted SYN alone (R57). -/
theorem TcpVerdict.byte_eq_two (v : TcpVerdict) : v.byte = 2#8 ↔ v = .synAccepted := by
  cases v <;> decide

/-- The command reports an accepted SYN (R57, R84, R105). -/
abbrev ReportsSynAccepted (i : Instr) (r : Results) : Prop :=
  (i = .tcpRx ∧ r.r0 = 2#32) ∨ (i = .rxFrame ∧ r.r0.toNat / 65536 = 2)

/-- The code of an accepted SYN as the low byte of a RES register (R105). -/
theorem setWidth_byte_eq_two (b : Byte) : b.setWidth 32 = 2#32 ↔ b = 2#8 := by
  rw [← BitVec.toNat_inj, ← BitVec.toNat_inj, BitVec.toNat_setWidth_of_le (by decide)]
  rfl

/-- The code of an accepted SYN in bits 23:16 of a RES register (R84). -/
theorem div_65536_eq_two {w : Word} {b : Byte} (h : w.extractLsb' 16 16 = 0#8 ++ b) :
    w.toNat / 65536 = 2 ↔ b = 2#8 := by
  have hw := congrArg BitVec.toNat h
  rw [wordBytes_toNat, BitVec.extractLsb'_toNat, Nat.shiftRight_eq_div_pow, BitVec.toNat_ofNat] at hw
  have hlt := w.isLt
  rw [← BitVec.toNat_inj, BitVec.toNat_ofNat]
  omega

/-- A body takes one value from the ISN input where its results report an accepted SYN, and none otherwise (R31). -/
theorem bodyOf_isn {i : Instr} {s u : State} {r : Results} (h : bodyOf i s = .ok (u, r)) :
    if ReportsSynAccepted i r then u.isnFeed = s.isnFeed.tail ∧ u.isnDrawn = s.isnDrawn + 1
    else u.isnFeed = s.isnFeed ∧ u.isnDrawn = s.isnDrawn := by
  by_cases hrx : i = .tcpRx
  · subst hrx
    simp only [bodyOf, tcpRxBody] at h
    split at h
    · cases h
    next u c ht =>
      cases h
      simpa [ReportsSynAccepted, setWidth_byte_eq_two, TcpVerdict.byte_eq_two] using State.tcpRx_isn ht
  by_cases hframe : i = .rxFrame
  · subst hframe
    have hnone : (0x00FF#16 : Half) = 0#8 ++ 0xFF#8 := by decide
    simp only [bodyOf] at h
    rcases rxFrameBody_cases s with hb | ⟨_, hb, -, h0⟩ | ⟨_, _, -, hb, -, h0⟩ | ⟨_, _, c, _, -, -, ht, hb, -, h0⟩ <;>
      rw [hb] at h <;> cases h
    · simp [ReportsSynAccepted, div_65536_eq_two (h0.trans hnone)]
    · simp [ReportsSynAccepted, div_65536_eq_two (h0.trans hnone)]
    · simpa [ReportsSynAccepted, div_65536_eq_two h0, TcpVerdict.byte_eq_two] using State.tcpRx_isn ht
  rw [if_neg (by rintro (⟨hi, -⟩ | ⟨hi, -⟩) <;> contradiction)]
  rcases bodyOf_cases h with rfl | ⟨-, _, -, -, rfl⟩ | ⟨-, -, rfl⟩ | ⟨hi, -⟩ | ⟨hi | hi, -⟩ | ⟨-, _, _, -, -, -, -, rfl⟩ |
    ⟨-, rfl⟩
  · exact ⟨rfl, rfl⟩
  · exact ⟨rfl, rfl⟩
  · exact ⟨rfl, rfl⟩
  · exact absurd hi hframe
  · exact absurd hi hrx
  · exact absurd hi hframe
  · exact ⟨rfl, rfl⟩
  · exact ⟨rfl, rfl⟩

/-- Settles O13: an error takes nothing, and a body what its results report. -/
theorem oneIsnPerAcceptedSyn : Obligations.OneIsnPerAcceptedSyn := by
  unfold Obligations.OneIsnPerAcceptedSyn
  intro i s t h
  rcases exec_cases h with ⟨e, rfl⟩ | ⟨u, r, -, hbody, rfl⟩
  · rw [if_neg (by simp)]
    exact ⟨rfl, rfl⟩
  · simpa [ReportsSynAccepted] using bodyOf_isn hbody

end Sys2Proof.Machine
end

section
/-!
Every step keeps the invariant of the block: a command by what its body can have done, and every other access.
-/

namespace Sys2Proof.Machine

/-- clear keeps the table legal (R89). -/
theorem State.TableOk.clearEntry {s : State} {k : Nat} (h : s.TableOk) (hk : k < s.table.length) :
    (s.clearEntry k).TableOk := by
  rw [State.clearEntry_eq]
  exact h.set_empty hk rfl rfl

/-- The flag dispatch keeps the table legal (R98 to R103). -/
theorem State.TableOk.rxDispatch {s t : State} {g : Segment} {c : TcpInfo} (h : s.TableOk) (hwf : s.params.Wf)
    (hg : s.rxDispatch g = (t, c)) : t.TableOk := by
  rcases s.rxDispatch_cases g with ⟨_, _, -, hd⟩ | ⟨_, -, hd⟩ | ⟨_, k, es, e, -, hl, -, he, hd⟩ |
    ⟨k, -, -, -, hl, hf, hd⟩ <;> rw [hd] at hg <;> cases hg
  · exact h
  · exact h.congr rfl rfl
  · obtain ⟨hv, -, hk, -⟩ := State.lookup_some hl
    rcases he with rfl | ⟨a, b, rfl⟩
    · exact h.set_empty hk rfl rfl
    · refine h.set_same_tuple hv rfl rfl ?_ (EntryOk.of_valid hv (h.entry hk).idle ?_) rfl
      · rw [keepSlots, List.length_map]
        exact h.slots_length hk
      · exact SlotOk.keepSlots _ (h.entry hk).slots
  · exact h.set_free hwf hl hf rfl rfl rfl rfl rfl rfl

/-- A send keeps the table legal: the slot it fills holds a segment in buffer memory, at age 0 (R109, R118). -/
theorem State.TableOk.sendSegment {s : State} {k len : Nat} {b : Word} (plen : Nat) (j : Nat) (h : s.TableOk)
    (hwf : s.params.Wf) (hv : (s.entry k).valid = true) (h20 : 20 ≤ len) (hle : len ≤ 65515)
    (hfit : b.toNat + len ≤ s.params.memSize) : (s.sendSegment k b.toNat plen len j).1.TableOk := by
  have hk := State.lt_of_valid hv
  have htimeout := hwf.timeout_pos
  refine h.set_same_tuple hv rfl rfl ?_ (EntryOk.of_valid hv (h.entry hk).idle fun sl hsl => ?_) rfl
  · rw [List.length_set]
    exact h.slots_length hk
  · rcases List.mem_or_eq_of_mem_set hsl with hsl | rfl
    · exact (h.entry hk).slots sl hsl
    · simp only [SlotOk, if_true, BitVec.toNat_ofNat, BitVec.toNat_mod_cancel]
      omega

/-- A body keeps the table legal. -/
theorem bodyOf_tableOk {i : Instr} {s u : State} {r : Results} (h : s.TableOk) (hwf : s.params.Wf)
    (hbody : bodyOf i s = .ok (u, r)) : u.TableOk := by
  rcases bodyOf_cases hbody with rfl | ⟨-, _, hl, hf, rfl⟩ | ⟨-, hv, rfl⟩ | ⟨-, _, rfl⟩ | ⟨-, g, c, hg⟩ |
    ⟨-, k, len, hv, h20, hle, hfit, rfl⟩ | ⟨-, rfl⟩
  · exact h
  · exact h.set_free hwf hl hf rfl rfl rfl rfl rfl rfl
  · exact h.clearEntry (State.lt_of_valid hv)
  · exact h.congr rfl rfl
  · exact h.rxDispatch hwf hg
  · exact h.sendSegment _ _ hwf hv h20 hle (by omega)
  · exact h.aged hwf rfl rfl

/-- The flag dispatch writes no byte of buffer memory (R46). -/
theorem State.rxDispatch_mem {s t : State} {g : Segment} {c : TcpInfo} (hg : s.rxDispatch g = (t, c)) :
    t.mem = s.mem := by
  rcases s.rxDispatch_cases g with ⟨_, _, -, hd⟩ | ⟨_, -, hd⟩ | ⟨_, _, _, _, -, -, -, -, hd⟩ |
    ⟨_, -, -, -, -, -, hd⟩ <;> rw [hd] at hg <;> cases hg <;> rfl

/-- A body keeps buffer memory legal: a send writes bytes 13, 16 and 17 of a segment of at least 20 bytes (R109), a tick
the fields of legal slots' segments (R112). -/
theorem bodyOf_memoryOk {i : Instr} {s u : State} {r : Results} (h : MemoryOk s.params s.mem) (ht : s.TableOk)
    (hbody : bodyOf i s = .ok (u, r)) : MemoryOk s.params u.mem := by
  rcases bodyOf_cases hbody with rfl | ⟨-, _, -, -, rfl⟩ | ⟨-, -, rfl⟩ | ⟨-, _, rfl⟩ | ⟨-, g, c, hg⟩ |
    ⟨-, k, len, -, h20, -, hfit, rfl⟩ | ⟨-, rfl⟩
  · exact h
  · exact h
  · exact h
  · exact h
  · rw [State.rxDispatch_mem hg]
    exact h
  · exact (h.setByte _ (by omega)).seal _ _ _ (by omega)
  · exact h.sealAll ht

/-- A command keeps the invariant. -/
theorem exec_inv {i : Instr} {s t : State} (h : s.Inv) (hexec : exec i s = .next t) : t.Inv := by
  rcases exec_cases hexec with ⟨e, rfl⟩ | ⟨u, r, hlaunch, hbody, rfl⟩
  · exact .of_parts h.params (h.tableOk.congr rfl rfl) h.memoryOk h.portsOk h.queue
  · have hp : u.params = s.params := bodyOf_params hbody
    have hports : u.portOpen = s.portOpen := by rw [bodyOf_frame hbody]
    obtain ⟨es, hevq, hes⟩ := bodyOf_events h.shape hbody
    obtain ⟨-, -, hroom⟩ := launchError_eq_none.1 hlaunch
    have hmem := bodyOf_memoryOk h.memoryOk h.tableOk hbody
    refine .of_parts (hp ▸ h.params) ((bodyOf_tableOk h.tableOk h.params hbody).congr rfl rfl)
      (hp.symm ▸ hmem) (hports ▸ h.portsOk) ?_
    have hq := h.queue
    unfold State.evqFree at hroom
    simp only [State.finish_evq, State.finish_params, hp, hevq, List.length_append]
    omega

/-- A register write keeps the invariant: the port words are those of the window, and a pop only shortens the queue. -/
theorem State.Inv.writeReg {s : State} (h : s.Inv) (off : Nat) (v : Word) : (s.writeReg (regAt off) v).Inv := by
  obtain ⟨hframe, hevq, hports⟩ := s.writeReg_frame (regAt off) v
  have hp := s.writeReg_params (regAt off) v
  have ht : (s.writeReg (regAt off) v).table = s.table := by rw [hframe]
  have hm : (s.writeReg (regAt off) v).mem = s.mem := by rw [hframe]
  refine .of_parts (hp ▸ h.params) (h.tableOk.congr ht hp) (by rw [hp, hm]; exact h.memoryOk) ?_ ?_
  · rcases hports with hports | ⟨i, hreg, hports⟩ <;> rw [hports]
    · exact h.portsOk
    · refine h.portsOk.write v ?_
      rcases regAt_cases off with hlow | ⟨-, hle, hport⟩ | ⟨-, htable⟩ | ⟨hunlisted, -⟩
      · rw [hreg] at hlow
        simp [lowRegisters] at hlow
      · rw [hreg] at hport
        cases hport
        omega
      · rw [hreg] at htable
        cases htable
      · rw [hreg] at hunlisted
        cases hunlisted
  · have hq := h.queue
    rw [hp]
    rcases hevq with hevq | hevq <;> rw [hevq]
    · exact hq
    · rw [List.length_tail]
      omega

/-- The invariant does not look at the host's side of the interface, CMD, STATUS or RES. -/
theorem State.Inv.congr {s t : State} (h : s.Inv) (hp : t.params = s.params) (ht : t.table = s.table)
    (hm : t.mem = s.mem) (hw : t.portOpen = s.portOpen) (hq : t.evq = s.evq) : t.Inv :=
  .of_parts (hp ▸ h.params) (h.tableOk.congr ht hp) (by rw [hp, hm]; exact h.memoryOk) (hw ▸ h.portsOk)
    (by rw [hp, hq]; exact h.queue)

/-- A table of invalid entries is legal (R143). -/
theorem State.TableOk.of_reset {t : State}
    (ht : t.table = List.replicate t.params.handles (Entry.empty t.params.maxUnacked)) : t.TableOk := by
  have hentry : ∀ h, t.entry h = Entry.empty t.params.maxUnacked := fun h => by
    rw [State.entry, ht]
    rcases Nat.lt_or_ge h t.params.handles with hh | hh <;> simp [List.getD_eq_getElem?_getD, hh]
  refine ⟨⟨by rw [ht, List.length_replicate], fun e he => ?_⟩, fun e he => ?_, fun h _ _ _ hv => ?_, fun h _ hv => ?_⟩
  · rw [ht] at he
    rw [List.eq_of_mem_replicate he]
    simp [Entry.empty]
  · rw [ht] at he
    rw [List.eq_of_mem_replicate he]
    exact EntryOk.empty _
  · rw [hentry h] at hv
    cases hv
  · rw [hentry h] at hv
    cases hv

/-- A reset keeps the invariant (R143). -/
theorem State.Inv.hostReset {s : State} (h : s.Inv) : s.hostReset.Inv :=
  .of_parts h.params (State.TableOk.of_reset rfl) h.memoryOk ⟨⟨List.Pairwise.nil, by simp⟩, by simp⟩ (Nat.zero_le _)

/-- Settles O59: a step is a command on the state that kept its word, or an access that launches none, and each keeps the
invariant. -/
theorem stepKeepsInvariant : Obligations.StepKeepsInvariant := by
  unfold Obligations.StepKeepsInvariant
  intro s t h hstep
  rcases step_cases hstep with ⟨i, u, hlaunch, hexec⟩ | hdone
  · obtain ⟨v, rest, -, -, rfl⟩ := takeNext_command hlaunch
    refine exec_inv ?_ hexec
    exact h.congr rfl rfl rfl rfl rfl
  · rcases takeNext_done hdone with ⟨-, rfl⟩ | ⟨_, _, -, rfl⟩ | ⟨off, v, rest, -, -, -, rfl⟩ | ⟨_, _, -, rfl⟩ |
      ⟨_, _, -, -, rfl⟩ | ⟨a, b, rest, -, ha, rfl⟩ | ⟨rest, -, rfl⟩
    · exact h
    · exact h.congr rfl rfl rfl rfl rfl
    · refine State.Inv.writeReg ?_ _ _
      exact h.congr rfl rfl rfl rfl rfl
    · exact h.congr rfl rfl rfl rfl rfl
    · exact h.congr rfl rfl rfl rfl rfl
    · exact .of_parts h.params (h.tableOk.congr rfl rfl) (h.memoryOk.setByte b ha) h.portsOk h.queue
    · refine State.Inv.hostReset ?_
      exact h.congr rfl rfl rfl rfl rfl

end Sys2Proof.Machine
end

section
/-!
Frames of commands: what no command writes (10_state.md R21, R24, R26, R30), what the commands that only compute leave
alone (R22), and what a tick leaves of memory and of the table (R40, R46, 44_retransmit.md R112).
-/

namespace Sys2Proof.Machine

/-- What a command may change: STATUS, RES, the queue, the table, buffer memory and the ISN input. -/
theorem exec_frame {i : Instr} {s t : State} (h : exec i s = .next t) :
    t = { s with
      code := t.code, err := t.err, res := t.res, evq := t.evq, table := t.table, mem := t.mem, isnFeed := t.isnFeed,
      isnDrawn := t.isnDrawn } := by
  rcases exec_cases h with ⟨e, rfl⟩ | ⟨u, r, -, hbody, rfl⟩
  · rfl
  · rw [bodyOf_frame hbody]
    rfl

/-- Settles O7: none of these registers is among those a command may change. -/
theorem commandsLeaveHostRegisters : Obligations.CommandsLeaveHostRegisters := by
  unfold Obligations.CommandsLeaveHostRegisters
  intro i s t h
  rw [exec_frame h]
  exact ⟨rfl, rfl, rfl, rfl, rfl, rfl, rfl, rfl, rfl, rfl, rfl, rfl, rfl, rfl⟩

/-- Settles O8: of all that a body can have done, these commands do only the first, nothing. -/
theorem pureCommandsFrame : Obligations.PureCommandsFrame := by
  unfold Obligations.PureCommandsFrame
  intro i s t hi h
  rcases exec_cases h with ⟨e, rfl⟩ | ⟨u, r, -, hbody, rfl⟩
  · rfl
  rcases bodyOf_cases hbody with rfl | ⟨rfl, -⟩ | ⟨rfl, -⟩ | ⟨rfl, -⟩ | ⟨rfl | rfl, -⟩ | ⟨rfl, -⟩ | ⟨rfl, -⟩
  · rfl
  all_goals simp at hi

/-- A tick changes no slot but in its age (R112). -/
theorem agedSlot_erase_age (p : Params) (sl : Slot) :
    ({ agedSlot p sl with age := 0#16 } : Slot) = { sl with age := 0#16 } := by
  unfold agedSlot
  split
  · split <;> rfl
  · rfl

theorem agedSlot_of_free (p : Params) {sl : Slot} (h : sl.occupied = false) : agedSlot p sl = sl := by
  simp [agedSlot, h]

theorem agedEntry_of_invalid (p : Params) {e : Entry} (h : e.valid = false) : agedEntry p e = e := by
  simp [agedEntry, h]

theorem agedEntry_of_valid (p : Params) {e : Entry} (h : e.valid = true) :
    agedEntry p e = { e with unacked := e.unacked.map (agedSlot p) } := by
  simp [agedEntry, h]

/-- A tick changes no entry but in its slots (R112). -/
theorem agedEntry_frame (p : Params) (e : Entry) : agedEntry p e = { e with unacked := (agedEntry p e).unacked } := by
  unfold agedEntry
  split <;> rfl

/-- A tick changes an entry's slots in nothing but their ages (R112). -/
theorem agedEntry_erase_ages (p : Params) (e : Entry) :
    (agedEntry p e).unacked.map (fun sl => { sl with age := 0#16 }) =
      e.unacked.map fun sl => { sl with age := 0#16 } := by
  cases hv : e.valid with
  | false => rw [agedEntry_of_invalid p hv]
  | true =>
    rw [agedEntry_of_valid p hv, List.map_map]
    exact List.map_congr_left fun sl _ => agedSlot_erase_age p sl

/-- A tick changes no slot that is free (R112). -/
theorem agedEntry_free_slot (p : Params) {e : Entry} {k : Nat} {sl : Slot} (hk : e.unacked[k]? = some sl)
    (hf : sl.occupied = false) : (agedEntry p e).unacked[k]? = some sl := by
  cases hv : e.valid with
  | false => rw [agedEntry_of_invalid p hv, hk]
  | true => rw [agedEntry_of_valid p hv, List.getElem?_map, hk, Option.map_some, agedSlot_of_free p hf]

/-- Everything AGE_TICK can do: end with an error, or age the table and seal the segments that are due (R113). -/
theorem exec_ageTick_cases {s t : State} (h : exec .ageTick s = .next t) :
    (∃ e, t = s.raise e) ∨
    (t.table = s.table.map (agedEntry s.params) ∧
      t.mem = (dueSegments s.params s.table).foldl
        (fun m x => sealSegment m s.hostIp x.1 x.2.buf.toNat x.2.len.toNat) s.mem ∧
      t.isnFeed = s.isnFeed ∧ t.isnDrawn = s.isnDrawn) := by
  rcases exec_cases h with he | ⟨u, r, -, hbody, rfl⟩
  · exact .inl he
  · rw [bodyOf, ageTickBody_eq] at hbody
    split at hbody <;> cases hbody
    exact .inr ⟨rfl, rfl, rfl, rfl⟩

/-- Settles O11: an error leaves memory and table, and a tick ages each entry and writes the fields of due segments. -/
theorem ageTickFrame : Obligations.AgeTickFrame := by
  unfold Obligations.AgeTickFrame
  intro s t h
  rcases exec_ageTick_cases h with ⟨e, rfl⟩ | ⟨htable, hmem, hfeed, hdrawn⟩
  · exact ⟨fun _ _ => rfl, fun _ => rfl, fun _ _ => rfl, fun _ => rfl, fun _ _ _ hk _ => hk, rfl, rfl⟩
  · have hentry := State.entry_of_map_aged htable (exec_params h)
    refine ⟨fun a ha => ?_, fun k => ?_, fun k hv => ?_, fun k => ?_, fun k j sl hj hf => ?_, hfeed, hdrawn⟩
    · rw [hmem]
      refine byte_sealAll_ne _ _ _ fun x hx => ?_
      obtain ⟨e, he, hv, -, hsl, hdue⟩ := mem_dueSegments.1 hx
      exact ha e he hv x.2 hsl hdue
    · rw [hentry]
      exact agedEntry_frame _ _
    · rw [hentry]
      exact agedEntry_of_invalid _ hv
    · rw [hentry]
      exact agedEntry_erase_ages _ _
    · rw [hentry]
      exact agedEntry_free_slot _ hj hf

end Sys2Proof.Machine
end

section
/-!
The register window (10_state.md R19, R20, R30, R37, 45_host_control.md R121 to R128): one access as one step, and what
each register reads in numbers.
-/

namespace Sys2Proof.Machine

/-! ### One access of the register window as one step -/

/-- The pending accesses are behind no register. -/
theorem State.readReg_inputs (s : State) (rest : List HostAccess) (r : HostReg) :
    ({ s with inputs := rest } : State).readReg r = s.readReg r := by
  cases r <;> rfl

/-- An aligned 32-bit read (R19, R20). -/
theorem step_read {s : State} {off : Word} {rest : List HostAccess} (hin : s.inputs = .read 32 off :: rest)
    (h4 : off.toNat % 4 = 0) :
    step s = .next { s with inputs := rest, readData := s.readReg (regAt off.toNat) } := by
  rw [← s.readReg_inputs rest]
  simp [step, takeNext, hin, takeAccess, alignedWord, h4]

/-- An aligned 32-bit write to a register that is not CMD (R19, R20). -/
theorem step_write {s : State} {off v : Word} {rest : List HostAccess} (hin : s.inputs = .write 32 off v :: rest)
    (h4 : off.toNat % 4 = 0) (hcmd : regAt off.toNat ≠ .cmd) :
    step s = .next (({ s with inputs := rest } : State).writeReg (regAt off.toNat) v) := by
  have ht : takeNext s = .done (.next (({ s with inputs := rest } : State).writeReg (regAt off.toNat) v)) := by
    simp only [takeNext, hin, takeAccess, alignedWord, h4, beq_self_eq_true, Bool.and_self, if_true]
  rw [step, ht]

/-- Settles O52: both accesses ask for the width and the alignment first. -/
theorem unalignedAccessRefused : Obligations.UnalignedAccessRefused := by
  unfold Obligations.UnalignedAccessRefused
  intro s bits off v rest h
  have hal : alignedWord bits off = false := by
    simp only [alignedWord, Bool.and_eq_false_iff, beq_eq_false_iff_ne]
    exact h
  constructor <;> intro hin <;> simp [step, takeNext, hin, takeAccess, hal]

/-! ### What has no effect -/

/-- The registers a write can change, by name (R20, R123). -/
theorem State.writeReg_cases (s : State) (r : HostReg) (v : Word) :
    r ∈ [.ctrl, .status, .cmd, .arg0, .arg1, .arg2, .arg3, .hostIp, .bcastIp, .gatewayIp, .evqPop] ∨
      (∃ i, r = .portOpen i) ∨ s.writeReg r v = s := by
  cases r with
  | portOpen i => exact .inr (.inl ⟨i, rfl⟩)
  | ctrl | status | cmd | arg0 | arg1 | arg2 | arg3 | hostIp | bcastIp | gatewayIp | evqPop => exact .inl (by decide)
  | _ => exact .inr (.inr rfl)

/-- The offsets of those below the port words (R20). -/
theorem lowRegisters_writable : ∀ x ∈ lowRegisters,
    x.2 ∈ [.ctrl, .status, .cmd, .arg0, .arg1, .arg2, .arg3, .hostIp, .bcastIp, .gatewayIp, .evqPop] →
      x.1 ∈ [0x000, 0x004, 0x008, 0x010, 0x014, 0x018, 0x01C, 0x040, 0x044, 0x048, 0x068] := by
  decide

/-- Below the port words no register stands at a gap of the map or past 0x084 (R20). -/
theorem lowRegisters_offset : ∀ x ∈ lowRegisters, x.1 ≤ 0x084 ∧ x.1 ≠ 0x04C ∧ x.1 ≠ 0x06C := by
  decide

/-- The offsets that R20 does not list (R128). -/
theorem regAt_unlisted {off : Nat}
    (h : off = 0x04C ∨ off = 0x06C ∨ (0x088 ≤ off ∧ off < 0x1000) ∨ (0x2FFC < off ∧ off < 0x10000)) :
    regAt off = .unlisted := by
  rcases regAt_cases off with hlow | ⟨_, _, -⟩ | ⟨_, -⟩ | ⟨hunlisted, -⟩
  · have hoff := lowRegisters_offset _ hlow
    simp only at hoff
    omega
  · omega
  · omega
  · exact hunlisted

/-- A write to an offset outside the writable ones changes no register (R20, R127, R128). -/
theorem State.writeReg_readOnly (s : State) {off : Nat} (v : Word)
    (hlow : off ∉ [0x000, 0x004, 0x008, 0x010, 0x014, 0x018, 0x01C, 0x040, 0x044, 0x048, 0x068])
    (hport : ¬ (0x1000 ≤ off ∧ off ≤ 0x2FFC)) : s.writeReg (regAt off) v = s := by
  rcases regAt_cases off with hmem | ⟨hge, hle, -⟩ | ⟨-, hreg⟩ | ⟨hreg, -⟩
  · rcases s.writeReg_cases (regAt off) v with hw | ⟨i, hi⟩ | heq
    · exact absurd (lowRegisters_writable _ hmem hw) hlow
    · rw [hi] at hmem
      simp [lowRegisters] at hmem
    · exact heq
  · exact absurd ⟨hge, hle⟩ hport
  · rw [hreg]
    rfl
  · rw [hreg]
    rfl

/-- Settles O49: a write outside the writable offsets changes no register, and an unlisted offset reads 0. -/
theorem readOnlyAndUnlistedOffsets : Obligations.ReadOnlyAndUnlistedOffsets := by
  unfold Obligations.ReadOnlyAndUnlistedOffsets
  intro s off rest h4
  refine ⟨fun v hin hlow hport => ?_, fun hin hoff => ?_⟩
  · have hcmd : regAt off.toNat ≠ .cmd := fun h => hlow (by rw [regAt_eq_cmd.1 h]; decide)
    rw [step_write hin h4 hcmd, State.writeReg_readOnly _ _ hlow hport]
  · rw [step_read hin h4, regAt_unlisted hoff]
    rfl

/-! ### The port bitmap -/

/-- Settles O51: the word of the offset is the one of its 32 ports. -/
theorem portBitmapAccess : Obligations.PortBitmapAccess := by
  unfold Obligations.PortBitmapAccess
  intro s i off rest hwf hi hoff
  have hreg : regAt off.toNat = .portOpen i := by rw [hoff, regAt_port hi]
  have h4 : off.toNat % 4 = 0 := by omega
  refine ⟨fun v hin => ⟨Cells.write s.portOpen i v, ?_, fun p => ?_⟩, fun hin => ⟨Cells.read s.portOpen i, ?_, ?_⟩⟩
  · rw [step_write hin h4 (by rw [hreg]; exact HostReg.noConfusion), hreg]
    rfl
  · unfold State.portIsOpen
    split
    next hp => rw [hp, Cells.read_write_self _ _ _ hwf.1]
    next hp => rw [Cells.read_write_ne _ _ hp]
  · rw [step_read hin h4, hreg]
    rfl
  · rintro p rfl
    rfl

/-! ### Register values in numbers -/

/-- Two fields side by side in numbers. -/
theorem append_toNat {m n : Nat} (a : BitVec m) (b : BitVec n) : (a ++ b).toNat = a.toNat * 2 ^ n + b.toNat := by
  rw [BitVec.toNat_append, Nat.shiftLeft_eq, Nat.mul_comm]
  exact (Nat.two_pow_add_eq_or_of_lt b.isLt a.toNat).symm

/-- A register's value is known by its number. -/
theorem word_eq_ofNat {w : Word} {n : Nat} (h : w.toNat = n) : w = BitVec.ofNat 32 n := by
  rw [← h, BitVec.ofNat_toNat, BitVec.setWidth_eq]

/-- A flag read as a number. -/
abbrev bitNat (b : Bool) : Nat := if b then 1 else 0

theorem ofBool_toNat (b : Bool) : (BitVec.ofBool b).toNat = bitNat b := by cases b <;> rfl

/-- CTRL in numbers (R121). -/
theorem State.ctrlWord_eq (s : State) : s.ctrlWord = BitVec.ofNat 32 (bitNat s.cfgLock) := by
  apply word_eq_ofNat
  rw [State.ctrlWord, append_toNat, ofBool_toNat]
  simp

/-- STATUS in numbers (R20, R122). -/
theorem State.statusWord_eq (s : State) : s.statusWord = BitVec.ofNat 32 (s.code.byte.toNat + 256 * bitNat s.err +
    512 * bitNat (0 < s.evq.length) + 1024 * bitNat (s.evq.length = s.params.evqDepth)) := by
  apply word_eq_ofNat
  have hfull : s.evqFull = decide (s.evq.length = s.params.evqDepth) := rfl
  rw [State.statusWord, append_toNat, append_toNat, append_toNat, append_toNat, ofBool_toNat, ofBool_toNat,
    ofBool_toNat, hfull, State.evqNonempty, BitVec.toNat_ofNat]
  omega

/-- The two halves of a parameter register in numbers (R20). -/
theorem halves_eq (a b : Nat) :
    BitVec.ofNat 16 a ++ BitVec.ofNat 16 b = BitVec.ofNat 32 (a % 65536 * 65536 + b % 65536) := by
  apply word_eq_ofNat
  rw [append_toNat, BitVec.toNat_ofNat, BitVec.toNat_ofNat]
  rfl

/-- PARAM_TCP in numbers (R20). -/
theorem half_bytes_eq (a b : Nat) :
    BitVec.ofNat 16 a ++ 0#8 ++ BitVec.ofNat 8 b = BitVec.ofNat 32 (a % 65536 * 65536 + b % 256) := by
  apply word_eq_ofNat
  rw [append_toNat, append_toNat, BitVec.toNat_ofNat, BitVec.toNat_ofNat, BitVec.toNat_ofNat]
  omega

/-- The low registers stand at the offsets the map lists for them (R20). -/
theorem lowRegisters_regAt : ∀ x ∈ lowRegisters, regAt x.1 = x.2 ∧ x.1 % 4 = 0 := by
  decide

/-- Settles O46: the list is the first 26 low registers with what each reads, written in numbers. -/
theorem registerReads : Obligations.RegisterReads := by
  unfold Obligations.RegisterReads
  intro s off v rest hin bit code status hmem
  have hcode : code = s.code.byte.toNat := by
    simp only [code]
    rcases s.code with _ | e
    · rfl
    · cases e <;> rfl
  have hvalues : (off.toNat, v) ∈ (lowRegisters.take 26).map fun x => (x.1, s.readReg x.2) := by
    simp only [lowRegisters, List.take_succ_cons, List.take_zero, List.map_cons, List.map_nil, State.readReg,
      State.ctrlWord_eq, State.statusWord_eq, halves_eq, half_bytes_eq, ← hcode]
    exact hmem
  obtain ⟨⟨k, r⟩, hx, hoff⟩ := List.mem_map.1 hvalues
  obtain ⟨rfl, rfl⟩ := Prod.mk.inj hoff
  obtain ⟨hreg, h4⟩ := lowRegisters_regAt _ (List.mem_of_mem_take hx)
  rw [step_read hin h4, hreg]

/-! ### The TABLE window -/

/-- Word 0 of an entry, its valid flag, in numbers (R37). -/
theorem validWord_eq (b : Bool) : 0#31 ++ BitVec.ofBool b = BitVec.ofNat 32 (bitNat b) := by
  cases b <;> rfl

/-- Word 2 of an entry, its ports, in numbers (R37). -/
theorem portsWord_eq (rp lp : Half) : rp ++ lp = BitVec.ofNat 32 (rp.toNat * 65536 + lp.toNat) :=
  word_eq_ofNat (wordHalves_toNat rp lp)

/-- Word 0 of a slot, its age and its flag, in numbers (R37). -/
theorem ageWord_eq (age : Half) (b : Bool) :
    age ++ 0#15 ++ BitVec.ofBool b = BitVec.ofNat 32 (age.toNat * 65536 + bitNat b) := by
  apply word_eq_ofNat
  rw [append_toNat, append_toNat, ofBool_toNat, BitVec.toNat_ofNat]
  omega

/-- The words of a slot in numbers (R37). -/
theorem Slot.word_eq (sl : Slot) (j : Nat) : sl.word j =
    if j = 0 then BitVec.ofNat 32 (sl.age.toNat * 65536 + bitNat sl.occupied)
    else if j = 1 then sl.buf
    else if j = 2 then BitVec.ofNat 32 sl.len.toNat
    else sl.endSeq := by
  match j with
  | 0 => exact ageWord_eq _ _
  | 1 => rfl
  | 2 => exact (BitVec.ofNat_toNat ..).symm
  | _ + 3 => rfl

/-- The words of an entry in numbers: its nine fields, then four words of each slot (R37). -/
theorem Entry.word_eq (e : Entry) (n : Nat) : e.word n =
    if n = 0 then BitVec.ofNat 32 (bitNat e.valid)
    else if n = 1 then e.remoteIp
    else if n = 2 then BitVec.ofNat 32 (e.remotePort.toNat * 65536 + e.localPort.toNat)
    else if n = 3 then e.remoteSeq
    else if n = 4 then e.remoteSeqSent
    else if n = 5 then e.localSeq
    else if n = 6 then e.localInitialSeq
    else if n = 7 then e.remoteInitialSeq
    else if n = 8 then BitVec.ofNat 32 e.idle.toNat
    else (e.unacked.getD ((n - 9) / 4) Slot.empty).word ((n - 9) % 4) := by
  match n with
  | 0 => exact validWord_eq _
  | 1 | 3 | 4 | 5 | 6 | 7 => rfl
  | 2 => exact portsWord_eq _ _
  | 8 => exact (BitVec.ofNat_toNat ..).symm
  | _ + 9 => rfl

/-- A word of the TABLE window by handle and word of the entry (R37). -/
theorem State.tableWord_eq (s : State) (h : Nat) {n : Nat} (hn : n < entryWords s.params) :
    s.tableWord (entryWords s.params * h + n) = if s.params.handles ≤ h then 0#32 else (s.entry h).word n := by
  have hpos : 0 < entryWords s.params := Nat.zero_lt_of_lt hn
  rw [State.tableWord, Nat.mul_add_div hpos, Nat.div_eq_of_lt hn, Nat.add_zero, Nat.mul_add_mod, Nat.mod_eq_of_lt hn]
  simp only [← not_le, ite_not]

/-- Settles O48: a word of the window is one of an entry, and an entry's words are its fields. -/
theorem tableWindowReads : Obligations.TableWindowReads := by
  unfold Obligations.TableWindowReads
  intro s h n off rest _ ew e bit slot hin hn hoff
  have hword : s.tableWord (ew * h + n) = _ := s.tableWord_eq h hn
  rw [step_read hin (by omega), hoff, regAt_table, State.readReg, hword, Entry.word_eq, Slot.word_eq]
  rfl

end Sys2Proof.Machine
end

section
/-!
What single steps leave: the locked configuration (10_state.md R24, 45_host_control.md R121, R124), and the table and
buffer memory where no command runs (R35, R42, R128).
-/

namespace Sys2Proof.Machine

/-- A register write to a locked configuration (R24, R124). -/
theorem State.writeReg_locked {s : State} (hlock : s.cfgLock = true) (r : HostReg) (v : Word) :
    (s.writeReg r v).cfgLock = true ∧ (s.writeReg r v).hostIp = s.hostIp ∧ (s.writeReg r v).bcastIp = s.bcastIp ∧
      (s.writeReg r v).gatewayIp = s.gatewayIp := by
  cases r with
  | ctrl => simp [State.writeReg, State.writeCtrl, hlock]
  | status =>
    simp only [State.writeReg, State.writeStatus]
    split <;> exact ⟨hlock, rfl, rfl, rfl⟩
  | hostIp | bcastIp | gatewayIp => simp [State.writeReg, hlock]
  | _ => exact ⟨hlock, rfl, rfl, rfl⟩

/-- Settles O56: no command writes these registers, a register write does not while they are locked, and of the other
accesses only a reset does. -/
theorem lockedConfigurationStays : Obligations.LockedConfigurationStays := by
  unfold Obligations.LockedConfigurationStays
  intro s t hlock hstep hreset
  rcases step_cases hstep with ⟨i, u, hlaunch, hexec⟩ | hdone
  · obtain ⟨v, rest, -, -, rfl⟩ := takeNext_command hlaunch
    rw [exec_frame hexec]
    exact ⟨hlock, rfl, rfl, rfl⟩
  · rcases takeNext_done hdone with ⟨-, rfl⟩ | ⟨_, _, -, rfl⟩ | ⟨off, v, rest, -, -, -, rfl⟩ | ⟨_, _, -, rfl⟩ |
      ⟨_, _, -, -, rfl⟩ | ⟨_, _, _, -, -, rfl⟩ | ⟨_, hin, -⟩
    · exact ⟨hlock, rfl, rfl, rfl⟩
    · exact ⟨hlock, rfl, rfl, rfl⟩
    · exact State.writeReg_locked (s := { s with inputs := rest }) hlock _ _
    · exact ⟨hlock, rfl, rfl, rfl⟩
    · exact ⟨hlock, rfl, rfl, rfl⟩
    · exact ⟨hlock, rfl, rfl, rfl⟩
    · exact absurd (by rw [hin]; rfl) hreset

/-- Settles O57: without a write to CMD a step is one of the accesses that launch no command. -/
theorem onlyCommandsWriteTheTable : Obligations.OnlyCommandsWriteTheTable := by
  unfold Obligations.OnlyCommandsWriteTheTable
  intro s t hstep hcmd
  rcases step_cases hstep with ⟨i, u, hlaunch, -⟩ | hdone
  · obtain ⟨v, rest, hin, -⟩ := takeNext_command hlaunch
    exact absurd hin (hcmd v rest)
  · rcases takeNext_done hdone with ⟨-, rfl⟩ | ⟨_, _, -, rfl⟩ | ⟨off, v, rest, -, -, -, rfl⟩ | ⟨v, rest, hin, -⟩ |
      ⟨_, _, -, -, rfl⟩ | ⟨a, b, _, hin, -, rfl⟩ | ⟨_, hin, rfl⟩
    · exact ⟨.inl rfl, .inl rfl⟩
    · exact ⟨.inl rfl, .inl rfl⟩
    · obtain ⟨hframe, -⟩ := State.writeReg_frame { s with inputs := rest } (regAt off.toNat) v
      rw [hframe]
      exact ⟨.inl rfl, .inl rfl⟩
    · exact absurd hin (hcmd v rest)
    · exact ⟨.inl rfl, .inl rfl⟩
    · exact ⟨.inl rfl, .inr ⟨a, b, by rw [hin]; rfl⟩⟩
    · exact ⟨.inr (by rw [hin]; rfl), .inl rfl⟩

end Sys2Proof.Machine
end

section
/-!
No command reads GATEWAY_IP (10_state.md R25): each operation on a state with another value in it is the operation on the
state itself, with that value in what it leaves.
-/

namespace Sys2Proof.Machine

/-- The state with another value in GATEWAY_IP. -/
def State.withGateway (g : Word) (s : State) : State := { s with gatewayIp := g }

/-- The answer of an operation, with another value in GATEWAY_IP. -/
abbrev viaGateway {α : Type} (g : Word) (x : State × α) : State × α := (x.1.withGateway g, x.2)

@[simp] theorem State.withGateway_params (g : Word) (s : State) : (s.withGateway g).params = s.params := rfl
@[simp] theorem State.withGateway_arg0 (g : Word) (s : State) : (s.withGateway g).arg0 = s.arg0 := rfl
@[simp] theorem State.withGateway_arg1 (g : Word) (s : State) : (s.withGateway g).arg1 = s.arg1 := rfl
@[simp] theorem State.withGateway_arg2 (g : Word) (s : State) : (s.withGateway g).arg2 = s.arg2 := rfl
@[simp] theorem State.withGateway_arg3 (g : Word) (s : State) : (s.withGateway g).arg3 = s.arg3 := rfl
@[simp] theorem State.withGateway_argTuple (g : Word) (s : State) : (s.withGateway g).argTuple = s.argTuple := rfl
@[simp] theorem State.withGateway_mem (g : Word) (s : State) : (s.withGateway g).mem = s.mem := rfl
@[simp] theorem State.withGateway_entry (g : Word) (s : State) (h : Nat) : (s.withGateway g).entry h = s.entry h := rfl
@[simp] theorem State.withGateway_lookup (g : Word) (s : State) (x : Tuple) :
    (s.withGateway g).lookup x = s.lookup x := rfl

theorem State.withGateway_alloc (g : Word) (s : State) (x : Tuple) :
    (s.withGateway g).alloc x = viaGateway g (s.alloc x) := by
  have hfree : ∀ line, (s.withGateway g).freeHandle line = s.freeHandle line := fun _ => rfl
  unfold State.alloc
  rw [State.withGateway_lookup, State.withGateway_params, hfree]
  cases s.lookup x
  · cases s.freeHandle (hashLine s.params x) <;> rfl
  · rfl

theorem State.withGateway_rxRst (g : Word) (s : State) (seg : Segment) :
    (s.withGateway g).rxRst seg = viaGateway g (s.rxRst seg) := by
  unfold State.rxRst
  rw [State.withGateway_lookup]
  cases s.lookup seg.tuple <;> rfl

theorem State.withGateway_rxSyn (g : Word) (s : State) (seg : Segment) :
    (s.withGateway g).rxSyn seg = viaGateway g (s.rxSyn seg) := by
  have hport : ∀ p, (s.withGateway g).portIsOpen p = s.portIsOpen p := fun _ => rfl
  unfold State.rxSyn
  rw [State.withGateway_lookup, State.withGateway_alloc, hport]
  cases s.portIsOpen seg.tuple.localPort
  · rfl
  · cases s.lookup seg.tuple with
    | some h => rfl
    | none =>
      obtain ⟨t, k, res⟩ := s.alloc seg.tuple
      cases k <;> rfl

theorem State.withGateway_rxDeliver (g : Word) (s : State) (h : Nat) (seg : Segment) :
    ((s.withGateway g).rxRelease h seg.ack).rxDeliver h seg =
      ((s.rxRelease h seg.ack).rxDeliver h seg).withGateway g := by
  unfold State.rxDeliver
  split <;> rfl

theorem State.withGateway_rxAck (g : Word) (s : State) (seg : Segment) :
    (s.withGateway g).rxAck seg = viaGateway g (s.rxAck seg) := by
  unfold State.rxAck
  rw [State.withGateway_lookup]
  cases s.lookup seg.tuple with
  | none => rfl
  | some h =>
    simp only [State.withGateway_entry, State.withGateway_rxDeliver]
    split
    · rfl
    · split
      · rfl
      · split <;> rfl

theorem State.withGateway_rxDispatch (g : Word) (s : State) (seg : Segment) :
    (s.withGateway g).rxDispatch seg = viaGateway g (s.rxDispatch seg) := by
  unfold State.rxDispatch
  rw [State.withGateway_rxRst, State.withGateway_rxSyn, State.withGateway_rxAck]
  simp only [apply_ite (viaGateway g)]

theorem State.withGateway_tcpRx (g : Word) (s : State) (seg : Word) (slen : Nat) (rip : Word) (prelude : Half) :
    (s.withGateway g).tcpRx seg slen rip prelude = (s.tcpRx seg slen rip prelude).map (viaGateway g) := by
  unfold State.tcpRx
  simp only [State.withGateway_rxDispatch, apply_ite (Except.map (viaGateway g))]
  rfl

theorem withGateway_ethCheck (g : Word) (s : State) :
    ethCheck (s.withGateway g) (s.withGateway g).arg0 (s.withGateway g).arg1 = ethCheck s s.arg0 s.arg1 := rfl

theorem withGateway_ipv4Check (g : Word) (s : State) (p eplen : Word) :
    ipv4Check (s.withGateway g) p eplen = ipv4Check s p eplen := rfl

theorem rxFrameBody_withGateway (g : Word) (s : State) :
    rxFrameBody (s.withGateway g) = (rxFrameBody s).map (viaGateway g) := by
  unfold rxFrameBody
  rw [withGateway_ethCheck]
  cases ethCheck s s.arg0 s.arg1 with
  | error e => rfl
  | ok f =>
    simp only [withGateway_ipv4Check]
    split
    · rfl
    · cases ipv4Check s f.payload f.payloadLen with
      | error e => rfl
      | ok i =>
        simp only [State.withGateway_tcpRx]
        split
        · rfl
        · split
          · cases s.tcpRx i.payload i.upperLen i.header.src i.prelude <;> rfl
          · rfl

theorem tcpSendBody_withGateway (g : Word) (s : State) :
    tcpSendBody (s.withGateway g) = (tcpSendBody s).map (viaGateway g) := by
  simp only [tcpSendBody, State.withGateway_entry, State.withGateway_arg0, State.withGateway_arg1,
    State.withGateway_arg2, State.withGateway_mem, State.withGateway_params, apply_ite (Except.map (viaGateway g))]
  cases freeSlot (s.entry s.arg0.toNat).unacked <;> rfl

/-- A body with another value in GATEWAY_IP (R25). -/
theorem bodyOf_withGateway (g : Word) (i : Instr) (s : State) :
    bodyOf i (s.withGateway g) = (bodyOf i s).map (viaGateway g) := by
  cases i <;> simp only [bodyOf]
  case nop | pseudo | destClass | tcpHash | tcpLookup => rfl
  case cksum =>
    simp only [cksumBody, apply_ite (Except.map (viaGateway g))]
    rfl
  case ethClassify =>
    rw [ethClassifyBody, withGateway_ethCheck, ethClassifyBody]
    cases ethCheck s s.arg0 s.arg1 <;> rfl
  case ipv4Rx =>
    rw [ipv4RxBody, withGateway_ipv4Check, State.withGateway_arg0, State.withGateway_arg1, ipv4RxBody]
    cases ipv4Check s s.arg0 s.arg1 <;> rfl
  case rxFrame => exact rxFrameBody_withGateway g s
  case tcpAlloc =>
    rw [tcpAllocBody, State.withGateway_argTuple, State.withGateway_alloc]
    rfl
  case tcpClear =>
    simp only [tcpClearBody, apply_ite (Except.map (viaGateway g))]
    rfl
  case tcpRx =>
    rw [tcpRxBody, State.withGateway_tcpRx, State.withGateway_arg0, State.withGateway_arg1, State.withGateway_arg2,
      State.withGateway_arg3, tcpRxBody]
    cases s.tcpRx s.arg0 s.arg1.toNat s.arg2 (argU16 s.arg3) <;> rfl
  case tcpSend => exact tcpSendBody_withGateway g s
  case ageTick =>
    simp only [ageTickBody, apply_ite (Except.map (viaGateway g))]
    rfl

/-- Settles O58: the launch checks and the body are those of the state itself. -/
theorem gatewayIpIsNotRead : Obligations.GatewayIpIsNotRead := by
  unfold Obligations.GatewayIpIsNotRead
  intro i s t g h
  have hlaunch : launchError i (s.withGateway g) = launchError i s := rfl
  show exec i (s.withGateway g) = .next (t.withGateway g)
  rw [exec_eq_launch, launch] at h ⊢
  rw [hlaunch, bodyOf_withGateway]
  split at h <;> cases h
  · rfl
  · cases bodyOf i s <;> rfl

end Sys2Proof.Machine
end

section
/-!
Buffer memory under commands and under the host (20_memory.md R42, R46, R48): the frames of the commands that write the
socket table, the frame of TCP_SEND, and the host's own accesses.
-/

namespace Sys2Proof.Machine

/-! ### The frame of TCP_ALLOC, TCP_CLEAR, TCP_RX and RX_FRAME -/

/-- The table of t is that of s, or it is with one entry replaced, whose handle the RES word w reports. -/
def State.WritesReported (s t : State) (w : Word) : Prop :=
  t.table = s.table ∨ ∃ k e, w = BitVec.ofNat 32 k ∧ t.table = s.table.set k e

theorem State.WritesReported.length_eq {s t : State} {w : Word} (h : s.WritesReported t w) :
    t.table.length = s.table.length := by
  rcases h with ht | ⟨k, e, -, ht⟩
  · rw [ht]
  · rw [ht, List.length_set]

/-- A handle that is not the reported one names the entry it named before. -/
theorem State.WritesReported.entry_eq {s t : State} {w : Word} (h : s.WritesReported t w) (hp : t.params = s.params)
    {j : Nat} (hj : w ≠ BitVec.ofNat 32 j) : t.entry j = s.entry j := by
  rcases h with ht | ⟨k, e, rfl, ht⟩
  · rw [State.entry, ht, hp, State.entry]
  · exact State.entry_of_set ht hp fun hkj => hj (by rw [hkj])

/-- The flag dispatch writes at most the entry whose handle it answers (R99 to R103). -/
theorem State.rxDispatch_writesReported {s t : State} {g : Segment} {c : TcpInfo} (hg : s.rxDispatch g = (t, c)) :
    s.WritesReported t (handleWord c.handle) := by
  rcases s.rxDispatch_cases g with ⟨_, _, -, hd⟩ | ⟨_, -, hd⟩ | ⟨_, k, _, e, -, -, -, -, hd⟩ |
    ⟨k, -, -, -, -, -, hd⟩ <;> rw [hd] at hg <;> cases hg
  · exact .inl rfl
  · exact .inl rfl
  · exact .inr ⟨k, e, rfl, rfl⟩
  · exact .inr ⟨k, _, rfl, rfl⟩

/-- tcp_rx writes at most the entry whose handle it answers (R97). -/
theorem State.tcpRx_writesReported {s t : State} {seg : Word} {slen : Nat} {rip : Word} {prelude : Half} {c : TcpInfo}
    (h : s.tcpRx seg slen rip prelude = .ok (t, c)) : s.WritesReported t (handleWord c.handle) := by
  rcases State.tcpRx_ok h with ⟨rfl, -⟩ | ⟨g, hg⟩
  · exact .inl rfl
  · exact State.rxDispatch_writesReported hg

theorem tcpAllocBody_writesReported {s u : State} {r : Results} (h : tcpAllocBody s = .ok (u, r)) :
    s.WritesReported u r.r0 := by
  unfold tcpAllocBody at h
  rcases s.alloc_cases s.argTuple with ⟨_, -, ha⟩ | ⟨-, -, ha⟩ | ⟨k, -, -, ha⟩ <;> rw [ha] at h <;> cases h
  · exact .inl rfl
  · exact .inl rfl
  · exact .inr ⟨k, _, rfl, rfl⟩

theorem tcpClearBody_writesReported {s u : State} {r : Results} (h : tcpClearBody s = .ok (u, r)) :
    s.WritesReported u r.r0 := by
  unfold tcpClearBody at h
  split at h <;> cases h
  · exact .inr ⟨s.arg0.toNat, _, by simp, rfl⟩
  · exact .inl rfl

theorem tcpRxBody_writesReported {s u : State} {r : Results} (h : tcpRxBody s = .ok (u, r)) :
    s.WritesReported u r.r1 := by
  unfold tcpRxBody at h
  split at h <;> cases h
  next ht => exact State.tcpRx_writesReported ht

theorem rxFrameBody_writesReported {s u : State} {r : Results} (h : rxFrameBody s = .ok (u, r)) :
    s.WritesReported u r.r1 := by
  rcases rxFrameBody_cases s with hb | ⟨_, hb, -⟩ | ⟨_, _, -, hb, -⟩ | ⟨_, _, _, _, -, -, ht, hb, hr, -⟩ <;>
    rw [hb] at h <;> cases h
  · exact .inl rfl
  · exact .inl rfl
  · rw [hr]
    exact State.tcpRx_writesReported ht

/-- The four commands write at most the entry they report: TCP_ALLOC and TCP_CLEAR in RES0, TCP_RX and RX_FRAME in RES1. -/
theorem bodyOf_writesReported {i : Instr} {s u : State} {r : Results}
    (hi : i ∈ [Instr.tcpAlloc, .tcpClear, .tcpRx, .rxFrame]) (h : bodyOf i s = .ok (u, r)) :
    s.WritesReported u (if i = .tcpAlloc ∨ i = .tcpClear then r.r0 else r.r1) := by
  simp only [List.mem_cons, List.not_mem_nil, or_false] at hi
  rcases hi with rfl | rfl | rfl | rfl
  · exact tcpAllocBody_writesReported h
  · exact tcpClearBody_writesReported h
  · exact tcpRxBody_writesReported h
  · exact rxFrameBody_writesReported h

/-- Only TCP_SEND and AGE_TICK write buffer memory (R46). -/
theorem bodyOf_mem {i : Instr} {s u : State} {r : Results} (hsend : i ≠ .tcpSend) (htick : i ≠ .ageTick)
    (h : bodyOf i s = .ok (u, r)) : u.mem = s.mem := by
  rcases bodyOf_cases h with rfl | ⟨-, _, -, -, rfl⟩ | ⟨-, -, rfl⟩ | ⟨-, _, rfl⟩ | ⟨-, _, _, hg⟩ | ⟨hi, -⟩ | ⟨hi, -⟩
  · rfl
  · rfl
  · rfl
  · rfl
  · exact State.rxDispatch_mem hg
  · exact absurd hi hsend
  · exact absurd hi htick

/-- TCP_ALLOC emits nothing (R88). -/
theorem tcpAllocBody_evq {s u : State} {r : Results} (h : tcpAllocBody s = .ok (u, r)) : u.evq = s.evq := by
  unfold tcpAllocBody at h
  rcases s.alloc_cases s.argTuple with ⟨_, -, ha⟩ | ⟨-, -, ha⟩ | ⟨_, -, -, ha⟩ <;> rw [ha] at h <;> cases h <;> rfl

/-- Only the two receive commands take from the ISN input (R31). -/
theorem bodyOf_isn_of_not_rx {i : Instr} {s u : State} {r : Results} (hrx : i ≠ .tcpRx) (hframe : i ≠ .rxFrame)
    (h : bodyOf i s = .ok (u, r)) : u.isnFeed = s.isnFeed ∧ u.isnDrawn = s.isnDrawn := by
  simpa [ReportsSynAccepted, hrx, hframe] using bodyOf_isn h

/-- Settles O9: an error leaves memory and table, and a body writes at most the entry that its results report. -/
theorem tableCommandsFrame : Obligations.TableCommandsFrame := by
  unfold Obligations.TableCommandsFrame
  intro i s t hi h
  rcases exec_cases h with ⟨e, rfl⟩ | ⟨u, r, -, hbody, rfl⟩
  · exact ⟨rfl, rfl, fun _ _ => rfl, fun _ => rfl, fun _ => ⟨rfl, rfl⟩⟩
  · have htable := bodyOf_writesReported hi hbody
    simp only [State.finish_mem, State.finish_table, State.finish_res, State.finish_evq, State.finish_isnFeed,
      State.finish_isnDrawn, State.entry_finish]
    refine ⟨bodyOf_mem ?_ ?_ hbody, htable.length_eq, fun j hj => htable.entry_eq (bodyOf_params hbody) hj, ?_, ?_⟩
    · rintro rfl; simp at hi
    · rintro rfl; simp at hi
    · rintro rfl; exact tcpAllocBody_evq hbody
    · rintro (rfl | rfl) <;> exact bodyOf_isn_of_not_rx (by simp) (by simp) hbody

/-! ### The frame of TCP_SEND -/

/-- Everything TCP_SEND can do: end with an error, change nothing but its results, or send a segment through a slot of
the valid entry that ARG0 names (R109). -/
theorem exec_tcpSend_cases {s t : State} (h : exec .tcpSend s = .next t) :
    (∃ e, t = s.raise e) ∨ (∃ r, t = s.finish r) ∨
    ∃ k len r, (s.entry s.arg0.toNat).valid = true ∧
      t = (s.sendSegment s.arg0.toNat s.arg1.toNat s.arg2.toNat len k).1.finish r := by
  rcases exec_cases h with he | ⟨u, r, -, hbody, rfl⟩
  · exact .inl he
  · rw [bodyOf] at hbody
    rcases tcpSendBody_cases s with hb | ⟨_, -, hb⟩ | ⟨k, len, hv, -, -, -, -, -, hb⟩ <;> rw [hb] at hbody <;>
      cases hbody
    · exact .inr (.inl ⟨_, rfl⟩)
    · exact .inr (.inr ⟨k, len, _, hv, rfl⟩)

/-- A send writes the PSH byte and the checksum field, and no other byte (R46, R109). -/
theorem State.sendSegment_byte_ne (s : State) (h plen len k : Nat) {b a : Nat} (h13 : a ≠ b + 13) (h16 : a ≠ b + 16)
    (h17 : a ≠ b + 17) : (s.sendSegment h b plen len k).1.mem.byte a = s.mem.byte a := by
  calc (s.sendSegment h b plen len k).1.mem.byte a
    _ = (s.mem.setByte (b + 13) (s.mem.byte (b + 13) ||| 0x08#8)).byte a := byte_sealSegment_ne _ _ _ _ _ h16 h17
    _ = s.mem.byte a := Memory.byte_setByte_ne _ _ h13

/-- A send writes one entry, and in it local_seq, remote_seq_sent and the slots (R109). -/
theorem State.sendSegment_table (s : State) (h b plen len k : Nat) :
    ∃ x y z, (s.sendSegment h b plen len k).1.table =
      s.table.set h { s.entry h with localSeq := x, remoteSeqSent := y, unacked := z } :=
  ⟨_, _, _, rfl⟩

/-- Settles O10: only a send writes, and it writes the segment's three bytes and one entry. -/
theorem tcpSendFrame : Obligations.TcpSendFrame := by
  unfold Obligations.TcpSendFrame
  intro s t h
  rcases exec_tcpSend_cases h with ⟨e, rfl⟩ | ⟨r, rfl⟩ | ⟨k, len, r, hv, rfl⟩
  · exact ⟨fun _ _ _ _ => rfl, fun _ _ => rfl, rfl, rfl, rfl⟩
  · exact ⟨fun _ _ _ _ => rfl, fun _ _ => rfl, rfl, rfl, rfl⟩
  · obtain ⟨x, y, z, htable⟩ := s.sendSegment_table s.arg0.toNat s.arg1.toNat s.arg2.toNat len k
    simp only [State.finish_mem, State.entry_finish]
    refine ⟨fun a h13 h16 h17 => s.sendSegment_byte_ne _ _ _ _ h13 h16 h17,
      fun j hj => State.entry_of_set htable rfl hj.symm, ?_, rfl, rfl⟩
    rw [State.entry_of_set_self htable (State.lt_of_valid hv)]

/-! ### The host's accesses to buffer memory -/

/-- The host's write of a byte (R42, R48). -/
theorem step_memWrite {s : State} {a : Word} {b : Byte} {rest : List HostAccess}
    (hin : s.inputs = .memWrite a b :: rest) (ha : a.toNat < s.params.memSize) :
    step s = .next { s with inputs := rest, mem := s.mem.setByte a.toNat b } := by
  simp [step, takeNext, hin, takeAccess, ha]

/-- The host's read of a byte (R42). -/
theorem step_memRead {s : State} {a : Word} {rest : List HostAccess} (hin : s.inputs = .memRead a :: rest)
    (ha : a.toNat < s.params.memSize) :
    step s = .next { s with inputs := rest, readData := (s.mem.byte a.toNat).setWidth 32 } := by
  simp [step, takeNext, hin, takeAccess, ha]

/-- The host's access to a byte that does not exist (R42). -/
theorem step_memFault {s : State} {a : Word} {b : Byte} {rest : List HostAccess}
    (hin : s.inputs = .memWrite a b :: rest ∨ s.inputs = .memRead a :: rest) (ha : s.params.memSize ≤ a.toNat) :
    step s = .fault .hostMemoryRange := by
  rcases hin with hin | hin <;> simp [step, takeNext, hin, takeAccess, Nat.not_lt.2 ha]

/-- Settles O53: an access is the byte's own read or write, and one past the memory's end faults. -/
theorem hostMemoryAccess : Obligations.HostMemoryAccess := by
  unfold Obligations.HostMemoryAccess
  intro s a b rest hwf
  refine ⟨fun hin ha => ⟨s.mem.setByte a.toNat b, step_memWrite hin ha, Memory.byte_setByte_self hwf _ _,
    fun x hx => Memory.byte_setByte_ne _ _ hx⟩, fun hin ha => ?_, step_memFault⟩
  rw [BitVec.ofNat_toNat]
  exact step_memRead hin ha

end Sys2Proof.Machine
end

section
/-!
The command words: decoder and encoder agree, and a word that is no command only sets STATUS (30_encoding.md R50 to R52,
45_host_control.md R119, R123).
-/

namespace Sys2Proof

/-- A word has given fields exactly where it is their word (R50). -/
theorem CommandFields.ofWord_eq_iff {w : Word} {f : CommandFields} : CommandFields.ofWord w = f ↔ w = f.toWord := by
  constructor
  · rintro rfl; exact (CommandFields.toWord_ofWord w).symm
  · rintro rfl; exact CommandFields.ofWord_toWord f

theorem CommandFields.eq_fields_iff {f : CommandFields} {i : Instr} :
    f = i.fields ↔ f.rsvd = 0#24 ∧ f.opcode = i.opcode := by
  obtain ⟨op, rsvd⟩ := f
  simp [Instr.fields, and_comm]

/-- Settles O1: the decoder's two checks pin both fields of a word, and a word is the word of its fields. -/
theorem decodeEncodeAgree : Obligations.DecodeEncodeAgree := by
  unfold Obligations.DecodeEncodeAgree
  intro w i
  calc decode w = .ok i
    _ ↔ (CommandFields.ofWord w).rsvd = 0#24 ∧ (CommandFields.ofWord w).opcode = i.opcode := decode_eq w i
    _ ↔ CommandFields.ofWord w = i.fields := CommandFields.eq_fields_iff.symm
    _ ↔ w = encode i := CommandFields.ofWord_eq_iff

/-- Settles O2: the decoder run on each of the 17 words. -/
theorem opcodeMapDecodes : Obligations.OpcodeMapDecodes := by
  unfold Obligations.OpcodeMapDecodes
  decide

/-- Every command's opcode is one of those R51 lists. -/
theorem Instr.opcode_mem_listedOpcodes (i : Instr) : i.opcode ∈ listedOpcodes := by
  rw [← decodeOpcode_isSome, (decodeOpcode_eq_some i.opcode i).2 rfl, Option.isSome_some]

/-- The reserved bits add nothing to a command's word (R50). -/
theorem encode_toNat (i : Instr) : (encode i).toNat = i.opcode.toNat := by
  calc (encode i).toNat
    _ = (0#24).toNat <<< 8 ||| i.opcode.toNat := BitVec.toNat_append 0#24 i.opcode
    _ = i.opcode.toNat := by simp

end Sys2Proof

namespace Sys2Proof.Machine

/-- A host write to CMD of a word that is no command (R52, R119, R123; log entry 12). -/
theorem step_illegalWord {s : State} {v : Word} {rest : List HostAccess} (hin : s.inputs = .write 32 0x008#32 v :: rest)
    (hv : ∀ i, decode v ≠ .ok i) :
    step s = .next { s with inputs := rest, cmd := v, code := .error .illegalCmd, err := true } := by
  rw [step, takeNext_writeCmd hin, launchWord]
  cases hd : decode v with
  | ok i => exact absurd hd (hv i)
  | error e => rfl

/-- Settles O3: a command's word is its opcode, so a word with bits above the opcode, or an unlisted opcode, is none. -/
theorem illegalWordOnlySetsStatus : Obligations.IllegalWordOnlySetsStatus := by
  unfold Obligations.IllegalWordOnlySetsStatus
  intro s v rest hin hillegal
  refine step_illegalWord hin fun i hd => ?_
  have hword : v.toNat = i.opcode.toNat := by rw [(decodeEncodeAgree v i).1 hd, encode_toNat]
  have hlt : v.toNat < 256 := hword ▸ i.opcode.isLt
  rcases hillegal with hrsvd | hunlisted
  · exact hrsvd (Nat.div_eq_of_lt hlt)
  · rw [Nat.mod_eq_of_lt hlt, hword] at hunlisted
    exact hunlisted (List.mem_map_of_mem (f := BitVec.toNat) i.opcode_mem_listedOpcodes)

end Sys2Proof.Machine
end

section
/-!
The checksum kernel (40_checksum.md R65 to R72): oc_add as addition of folded totals, what the kernel does to a list of
bytes, and the two commands that answer its value.
-/

namespace Sys2Proof.Machine

/-! ### oc_add -/

theorem onesSum_eq_zero {t : Nat} : onesSum t = 0 ↔ t = 0 := by
  have := onesSum_spec t
  omega

/-- onesSum_add for a total folded on the right. -/
theorem onesSum_add_right (a b : Nat) : onesSum (a + onesSum b) = onesSum (a + b) := by
  rw [Nat.add_comm, onesSum_add, Nat.add_comm]

theorem ocAdd_comm (s w : Half) : ocAdd s w = ocAdd w s := by
  apply BitVec.eq_of_toNat_eq
  rw [ocAdd_toNat, ocAdd_toNat, Nat.add_comm]

theorem ocAdd_assoc (a b c : Half) : ocAdd (ocAdd a b) c = ocAdd a (ocAdd b c) := by
  apply BitVec.eq_of_toNat_eq
  simp only [ocAdd_toNat]
  rw [onesSum_add, onesSum_add_right, Nat.add_assoc]

/-- Two words can be added in either order. -/
theorem ocAdd_right_comm (s v w : Half) : ocAdd (ocAdd s v) w = ocAdd (ocAdd s w) v := by
  rw [ocAdd_assoc, ocAdd_comm v, ocAdd_assoc]

@[simp] theorem ocAdd_zero (s : Half) : ocAdd s 0#16 = s := by
  apply BitVec.eq_of_toNat_eq
  rw [ocAdd_toNat]
  exact onesSum_of_lt s.isLt

theorem ocAdd_eq_zero {s w : Half} : ocAdd s w = 0#16 ↔ s = 0#16 ∧ w = 0#16 := by
  simp only [← BitVec.toNat_inj, ocAdd_toNat, BitVec.toNat_ofNat, Nat.zero_mod, onesSum_eq_zero, Nat.add_eq_zero_iff]

/-- 0xFFFF is a second neutral element, but for 0 (R69 item 3). -/
theorem ocAdd_allOnes {s : Half} (h : s ≠ 0#16) : ocAdd s 0xFFFF#16 = s := by
  have hpos : s.toNat ≠ 0 := fun h0 => h (BitVec.eq_of_toNat_eq h0)
  have hlt := s.isLt
  apply BitVec.eq_of_toNat_eq
  rw [ocAdd_toNat, show (0xFFFF#16).toNat = 65535 from rfl]
  have := onesSum_spec (s.toNat + 65535)
  omega

/-! ### Lists of bytes -/

/-- A region of whole words hands its sum on to the region that follows it (R70). -/
theorem cksumBytes_append {a : List Byte} (b : List Byte) (init : Half) (h : a.length % 2 = 0) :
    cksumBytes (a ++ b) init = cksumBytes b (cksumBytes a init) := by
  fun_induction cksumBytes a init with
  | case1 s => rfl
  | case2 s x => simp at h
  | case3 s x y rest ih =>
    rw [List.cons_append, List.cons_append, cksumBytes]
    exact ih (by rw [List.length_cons, List.length_cons] at h; omega)

/-- The sum of two regions is the folded sum of their two sums (R70). -/
theorem cksumBytes_append_zero {a : List Byte} (b : List Byte) (h : a.length % 2 = 0) :
    (cksumBytes (a ++ b) 0#16).toNat = onesSum ((cksumBytes a 0#16).toNat + (cksumBytes b 0#16).toNat) := by
  rw [cksumBytes_append b 0#16 h, cksumBytes_toNat b, cksumBytes_toNat b 0#16, onesSum_add_right, BitVec.toNat_ofNat,
    Nat.zero_mod, Nat.zero_add]

/-- The odd last byte is the high half of a word whose low half is 0 (R71). -/
theorem cksumBytes_pad {bs : List Byte} (init : Half) (h : bs.length % 2 = 1) :
    cksumBytes (bs ++ [0#8]) init = cksumBytes bs init := by
  fun_induction cksumBytes bs init with
  | case1 s => simp at h
  | case2 s x => rfl
  | case3 s x y rest ih =>
    rw [List.cons_append, List.cons_append, cksumBytes]
    exact ih (by rw [List.length_cons, List.length_cons] at h; omega)

/-- The order of the words does not matter (R69 item 5). -/
theorem cksumBytes_perm {ws ws' : List (Byte × Byte)} (h : ws.Perm ws') (init : Half) :
    cksumBytes (ws.flatMap fun w => [w.1, w.2]) init = cksumBytes (ws'.flatMap fun w => [w.1, w.2]) init := by
  induction h generalizing init with
  | nil => rfl
  | cons w _ ih => exact ih (ocAdd init (w.1 ++ w.2))
  | swap v w rest =>
    simp only [List.flatMap_cons, List.cons_append, List.nil_append, cksumBytes]
    rw [ocAdd_right_comm]
  | trans _ _ ih ih' => rw [ih, ih']

/-- A byte put in another's place moves the total by 1 or 256 times their difference, by the half of a word it is in. -/
theorem bytesTotal_set (hi : Bool) {bs : List Byte} {k : Nat} {b : Byte} (b' : Byte) (h : bs[k]? = some b) :
    ∃ w, (w = 1 ∨ w = 256) ∧
      bytesTotal hi (bs.set k b') + b.toNat * w = bytesTotal hi bs + b'.toNat * w := by
  induction bs generalizing hi k with
  | nil => simp at h
  | cons x rest ih =>
    cases k with
    | zero =>
      obtain rfl : x = b := by simpa using h
      refine ⟨if hi then 256 else 1, by cases hi <;> simp, ?_⟩
      simp only [List.set_cons_zero, bytesTotal]
      omega
    | succ k =>
      obtain ⟨w, hw, heq⟩ := ih (!hi) (by simpa using h)
      refine ⟨w, hw, ?_⟩
      simp only [List.set_cons_succ, bytesTotal]
      omega

/-- Two totals that both validate are congruent modulo 0xFFFF (R67, R69 item 4). -/
theorem mod_eq_of_onesSum_eq_allOnes {t t' : Nat} (h : onesSum t = 0xFFFF) (h' : onesSum t' = 0xFFFF) :
    t % 0xFFFF = t' % 0xFFFF := by
  have := onesSum_spec t
  have := onesSum_spec t'
  omega

/-- A single changed byte moves the total by less than 0xFFFF, so no two of the sums can both validate (R72). -/
theorem cksumBytes_set_ne_allOnes {bs : List Byte} {init : Half} {k : Nat} {b b' : Byte} (hk : bs[k]? = some b)
    (hne : b' ≠ b) (h : cksumBytes bs init = 0xFFFF#16) : cksumBytes (bs.set k b') init ≠ 0xFFFF#16 := by
  intro h'
  have hsum := congrArg BitVec.toNat h
  have hsum' := congrArg BitVec.toNat h'
  rw [cksumBytes_toNat] at hsum hsum'
  have hmod := mod_eq_of_onesSum_eq_allOnes hsum hsum'
  have hne : b'.toNat ≠ b.toNat := fun h => hne (BitVec.eq_of_toNat_eq h)
  have hb := b.isLt
  have hb' := b'.isLt
  obtain ⟨w, rfl | rfl, hset⟩ := bytesTotal_set true b' hk
  · omega
  · omega

/-- The bytes of a region, one more at the front. -/
theorem Memory.bytes_succ (m : Memory) (a n : Nat) : m.bytes a (n + 1) = m.byte a :: m.bytes (a + 1) n := by
  simp [Memory.bytes, List.range_succ_eq_map, Function.comp_def, Nat.add_assoc, Nat.add_comm 1]

/-- The sum of a region goes over its words. -/
theorem cksum_word (m : Memory) (a n : Nat) (init : Half) :
    cksum m a (n + 2) init = cksum m (a + 2) n (ocAdd init (m.be16 a)) := by
  rw [cksum, Memory.bytes_succ, Memory.bytes_succ, cksumBytes]
  rfl

@[simp] theorem cksum_empty (m : Memory) (a : Nat) (init : Half) : cksum m a 0 init = init := rfl

@[simp] theorem Memory.be32_high (m : Memory) (a : Nat) : (m.be32 a).extractLsb' 16 16 = m.be16 a :=
  BitVec.extractLsb'_append_eq_left

@[simp] theorem Memory.be32_low (m : Memory) (a : Nat) : (m.be32 a).extractLsb' 0 16 = m.be16 (a + 2) :=
  BitVec.extractLsb'_append_eq_right

/-- The prelude is the sum of the pseudo-header's image (R66, R69 item 6). -/
theorem cksum_pseudoImage {m : Memory} {a : Nat} (h8 : m.byte (a + 8) = 0#8) :
    cksum m a 12 0#16 = pseudoSum (m.be32 a) (m.be32 (a + 4)) (m.byte (a + 9)) (m.be16 (a + 10)) := by
  have hprotocol : m.be16 (a + 8) = 0#8 ++ m.byte (a + 9) := by rw [Memory.be16, h8]
  simp only [cksum_word, cksum_empty, pseudoSum, Memory.be32_high, Memory.be32_low, hprotocol, Nat.add_assoc,
    Nat.reduceAdd]

/-- Settles O17: the laws of oc_add are those of addition under one folding, and the kernel is a chain of oc_add. -/
theorem onesComplementLaws : Obligations.OnesComplementLaws := by
  unfold Obligations.OnesComplementLaws
  refine ⟨ocAdd_comm, ocAdd_assoc, ocAdd_zero, fun _ _ => ocAdd_eq_zero, fun _ => ocAdd_allOnes, by decide, cksum_toNat,
    fun _ _ init h => cksumBytes_perm h init, ?_⟩
  rintro m a _ _ _ _ rfl rfl h8 rfl rfl
  exact cksum_pseudoImage h8

/-- Settles O18; the odd first region that breaks both forms is the one byte 1, before another byte 1. -/
theorem checksumConcatenationAndPadding : Obligations.ChecksumConcatenationAndPadding := by
  unfold Obligations.ChecksumConcatenationAndPadding
  exact ⟨fun a b init h => ⟨cksumBytes_append b init h, cksumBytes_append_zero b h⟩,
    ⟨[1#8], [1#8], by decide, by decide, by decide⟩, fun bs init h => cksumBytes_pad init h⟩

/-- Settles O19; the two changes that cancel turn the words 0xFFFF, 0x0000 into 0x00FF, 0xFF00. -/
theorem singleByteChangeDetected : Obligations.SingleByteChangeDetected := by
  unfold Obligations.SingleByteChangeDetected
  exact ⟨fun _ _ _ _ _ hk hne h => cksumBytes_set_ne_allOnes hk hne h,
    ⟨[0xFF#8, 0xFF#8, 0#8, 0#8], 0, 2, 0#8, 0xFF#8, by decide⟩⟩

/-! ### CKSUM and PSEUDO -/

theorem argU16_toNat (w : Word) : (argU16 w).toNat = w.toNat % 65536 := by
  rw [argU16, BitVec.extractLsb'_toNat, Nat.shiftRight_zero]

theorem argU8_toNat (w : Word) : (argU8 w).toNat = w.toNat % 256 := by
  rw [argU8, BitVec.extractLsb'_toNat, Nat.shiftRight_zero]

/-- A command that needs no configuration, takes no handle and emits nothing runs its body in every state (R119). -/
theorem exec_of_no_checks {i : Instr} {s : State} (hconfig : needsConfig i = false) (hhandle : takesHandle i = false)
    (hworst : worstEvents s.params i = 0) : exec i s = .next (s.conclude (bodyOf i s)) := by
  refine exec_of_launchError_none (launchError_eq_none.2 ⟨?_, ?_, ?_⟩)
  · simp [hconfig]
  · simp [hhandle]
  · rw [hworst]; exact Nat.zero_le _

/-- Settles O15: the body answers the kernel's sum, which is the folded total. -/
theorem cksumIsFoldedTotal : Obligations.CksumIsFoldedTotal := by
  unfold Obligations.CksumIsFoldedTotal
  intro s
  rw [exec_of_no_checks rfl rfl rfl, bodyOf, cksumBody]
  simp only [inWindow_iff]
  split
  · rw [← argU16_toNat, ← cksum_toNat, BitVec.ofNat_toNat]
    rfl
  · rfl

/-- Settles O16: the body answers the prelude, which is the folded total of its six words. -/
theorem pseudoIsFoldedTotal : Obligations.PseudoIsFoldedTotal := by
  unfold Obligations.PseudoIsFoldedTotal
  intro s
  rw [exec_of_no_checks rfl rfl rfl, bodyOf, pseudoBody, ← argU16_toNat s.arg3, ← argU8_toNat, ← pseudoSum_toNat,
    BitVec.ofNat_toNat]
  rfl

end Sys2Proof.Machine
end

section
/-!
Validation after generation (40_checksum.md R67, R68): the segment that TCP_SEND sent (44_retransmit.md R109), and each
segment that AGE_TICK resent (R112), unless a later write falls into it (70_reset_and_hazards.md R148).
-/

namespace Sys2Proof.Machine

/-! ### TCP_SEND -/

theorem SendResult.word_eq_zero {r : SendResult} : r.word = 0#32 ↔ r = .sent := by
  cases r <;> decide

/-- A TCP_SEND that reports S_SENT has sent a segment of 20 to 65515 bytes (R109). -/
theorem exec_tcpSend_sent {s t : State} (h : exec .tcpSend s = .next t) (hok : t.code = .ok) (hsent : t.res.r0 = 0#32) :
    ∃ k len, 20 ≤ len ∧ len ≤ 65515 ∧
      t = (s.sendSegment s.arg0.toNat s.arg1.toNat s.arg2.toNat len k).1.finish
        (s.sendSegment s.arg0.toNat s.arg1.toNat s.arg2.toNat len k).2 := by
  obtain ⟨u, r, -, hbody, rfl⟩ := exec_ok h hok
  rw [bodyOf] at hbody
  rcases tcpSendBody_cases s with hb | ⟨code, hne, hb⟩ | ⟨k, len, -, hlen, h20, hle, -, -, hb⟩ <;> rw [hb] at hbody <;>
    cases hbody
  · exact absurd (SendResult.word_eq_zero.1 hsent) hne
  · exact ⟨k, len, by omega, hle, rfl⟩

/-- RES4 of a send (R109). -/
theorem State.sendSegment_length (s : State) (h b plen len k : Nat) :
    (s.sendSegment h b plen len k).2.r4 = BitVec.ofNat 32 len := rfl

/-- The segment that a send leaves in buffer memory validates (R67, R68, R109 step 4). -/
theorem State.sendSegment_validates {s : State} (hm : Memory.wf s.mem) (h b plen k : Nat) {len : Nat}
    (hlen : 18 ≤ len) :
    cksum (s.sendSegment h b plen len k).1.mem b len
      (pseudoSum s.hostIp (s.entry h).remoteIp 6#8 (BitVec.ofNat 16 len)) = 0xFFFF#16 :=
  sealSegment_validates (Memory.wf_setByte _ _ hm) s.hostIp (s.entry h).remoteIp b hlen

/-- Settles O42: the command that reported S_SENT wrote the checksum field last, and RES4 is the segment's length. -/
theorem sentSegmentValidates : Obligations.SentSegmentValidates := by
  unfold Obligations.SentSegmentValidates
  intro s t hm h hok hsent
  obtain ⟨k, len, h20, hle, rfl⟩ := exec_tcpSend_sent h hok hsent
  have hlen : (BitVec.ofNat 32 len).toNat = len := by
    rw [BitVec.toNat_ofNat]
    omega
  simp only [State.finish_res, State.finish_mem, State.sendSegment_length, hlen]
  exact State.sendSegment_validates hm _ _ _ k (by omega)

/-! ### AGE_TICK -/

/-- Slot k of the valid entry h is due, and holds sl: what a tick resends (R112). -/
structure DueAt (p : Params) (table : List Entry) (h k : Nat) (e : Entry) (sl : Slot) : Prop where
  entry : table[h]? = some e
  valid : e.valid = true
  slot : e.unacked[k]? = some sl
  due : DueSlot p sl

/-- A list around one of its elements. -/
theorem eq_take_append_cons_drop {α : Type} {l : List α} {k : Nat} {x : α} (h : l[k]? = some x) :
    l = l.take k ++ x :: l.drop (k + 1) := by
  obtain ⟨hk, rfl⟩ := List.getElem?_eq_some_iff.1 h
  rw [← List.drop_eq_getElem_cons hk, List.take_append_drop]

/-- An element past position k stands at a later position. -/
theorem exists_getElem?_of_mem_drop {α : Type} {l : List α} {k : Nat} {x : α} (h : x ∈ l.drop (k + 1)) :
    ∃ j, k < j ∧ l[j]? = some x := by
  obtain ⟨i, hi⟩ := List.mem_iff_getElem?.1 h
  rw [List.getElem?_drop] at hi
  exact ⟨k + 1 + i, by omega, hi⟩

/-- The due ones of an entry's slots, each with the entry's remote IP (R112). -/
def dueSlots (p : Params) (ip : Word) (slots : List Slot) : List (Word × Slot) :=
  (slots.filter fun sl => decide (DueSlot p sl)).map fun sl => (ip, sl)

theorem dueSegments_singleton (p : Params) {e : Entry} (hv : e.valid = true) :
    dueSegments p [e] = dueSlots p e.remoteIp e.unacked := by
  rw [dueSegments, List.flatMap_singleton, if_pos hv, dueSlots]

theorem dueSegments_append (p : Params) (a b : List Entry) :
    dueSegments p (a ++ b) = dueSegments p a ++ dueSegments p b :=
  List.flatMap_append

/-- The due slots around one of them. -/
theorem dueSlots_around {p : Params} (ip : Word) {slots : List Slot} {k : Nat} {sl : Slot} (hk : slots[k]? = some sl)
    (hd : DueSlot p sl) :
    dueSlots p ip slots = dueSlots p ip (slots.take k) ++ (ip, sl) :: dueSlots p ip (slots.drop (k + 1)) := by
  conv_lhs => rw [eq_take_append_cons_drop hk]
  rw [dueSlots, List.filter_append, List.filter_cons_of_pos (by simpa using hd), List.map_append, List.map_cons]
  rfl

/-- What the tick still writes after the segment in slot k of entry h: the due segments of the entry's later slots, and
those of the later entries (R112). -/
def dueAfter (p : Params) (table : List Entry) (h k : Nat) (e : Entry) : List (Word × Slot) :=
  dueSlots p e.remoteIp (e.unacked.drop (k + 1)) ++ dueSegments p (table.drop (h + 1))

/-- The due segments around one of them. -/
theorem dueSegments_around {p : Params} {table : List Entry} {h k : Nat} {e : Entry} {sl : Slot}
    (hat : DueAt p table h k e sl) :
    ∃ before, dueSegments p table = before ++ (e.remoteIp, sl) :: dueAfter p table h k e := by
  refine ⟨dueSegments p (table.take h) ++ dueSlots p e.remoteIp (e.unacked.take k), ?_⟩
  calc dueSegments p table
    _ = dueSegments p (table.take h ++ ([e] ++ table.drop (h + 1))) :=
      congrArg (dueSegments p) (eq_take_append_cons_drop hat.entry)
    _ = dueSegments p (table.take h) ++
        (dueSlots p e.remoteIp e.unacked ++ dueSegments p (table.drop (h + 1))) := by
      rw [dueSegments_append, dueSegments_append, dueSegments_singleton p hat.valid]
    _ = _ := by
      rw [dueSlots_around e.remoteIp hat.slot hat.due, dueAfter]
      simp only [List.append_assoc, List.cons_append]

/-- Each segment that the tick writes later is another slot's. -/
theorem exists_dueAt_of_mem_dueAfter {p : Params} {table : List Entry} {h k : Nat} {e : Entry} {x : Word × Slot}
    (he : table[h]? = some e) (hv : e.valid = true) (hx : x ∈ dueAfter p table h k e) :
    ∃ h' k' e', DueAt p table h' k' e' x.2 ∧ (h', k') ≠ (h, k) := by
  rcases List.mem_append.1 hx with hx | hx
  · obtain ⟨sl, hsl, rfl⟩ := List.mem_map.1 hx
    obtain ⟨hmem, hdue⟩ := List.mem_filter.1 hsl
    obtain ⟨j, hlt, hj⟩ := exists_getElem?_of_mem_drop hmem
    exact ⟨h, j, e, ⟨he, hv, hj, by simpa using hdue⟩, fun heq => hlt.ne' (congrArg Prod.snd heq)⟩
  · obtain ⟨e', he', hv', -, hsl, hdue⟩ := mem_dueSegments.1 hx
    obtain ⟨i, hlt, hi⟩ := exists_getElem?_of_mem_drop he'
    obtain ⟨j, hj⟩ := List.mem_iff_getElem?.1 hsl
    exact ⟨i, j, e', ⟨hi, hv', hj, hdue⟩, fun heq => hlt.ne' (congrArg Prod.fst heq)⟩

/-- A segment validates after the whole scan where no later write of a field falls into it (R67, R148). -/
theorem sealAll_validates {m : Memory} (hm : Memory.wf m) (hostIp : Word) (before after : List (Word × Slot))
    (x : Word × Slot) (hlen : 18 ≤ x.2.len.toNat)
    (hafter : ∀ y ∈ after, y.2.buf.toNat + 17 < x.2.buf.toNat ∨ x.2.buf.toNat + x.2.len.toNat ≤ y.2.buf.toNat + 16) :
    cksum ((before ++ x :: after).foldl (fun m x => sealSegment m hostIp x.1 x.2.buf.toNat x.2.len.toNat) m)
      x.2.buf.toNat x.2.len.toNat (pseudoSum hostIp x.1 6#8 x.2.len) = 0xFFFF#16 := by
  rw [List.foldl_append, List.foldl_cons, cksum_congr _ fun i hi => byte_sealAll_ne hostIp after _ fun y hy => ?_]
  · simpa using sealSegment_validates (wf_sealAll hostIp before hm) hostIp x.1 x.2.buf.toNat hlen
  · have := hafter y hy
    omega

/-- Settles O44: the fields written after the segment's own belong to other slots, so none lies in the segment. -/
theorem resentSegmentValidates : Obligations.ResentSegmentValidates := by
  unfold Obligations.ResentSegmentValidates
  intro s t h k e sl hm hexec hok he hv hk hdue hlen hother
  obtain ⟨u, r, -, hbody, rfl⟩ := exec_ok hexec hok
  rw [bodyOf, ageTickBody_eq] at hbody
  split at hbody <;> cases hbody
  obtain ⟨before, hsegs⟩ := dueSegments_around ⟨he, hv, hk, hdue⟩
  simp only [State.finish_mem, hsegs]
  refine sealAll_validates hm s.hostIp before _ (e.remoteIp, sl) hlen fun x hx => ?_
  obtain ⟨h', k', e', hat, hne⟩ := exists_dueAt_of_mem_dueAfter he hv hx
  exact hother h' k' e' x.2 hat.entry hat.valid hat.slot hat.due hne

end Sys2Proof.Machine
end

section
/-!
The Ethernet and IPv4 receive stages (41_ipv4_rx.md R76 to R83): destination class, fragment test and verdict in
numbers, and the commands that run one stage.
-/

namespace Sys2Proof.Machine

/-! ### Launch -/

/-- A command that needs the configuration is turned away where it is not locked, before any other check (R119). -/
theorem exec_of_not_configured {i : Instr} {s : State} (hneeds : needsConfig i = true) (hlock : s.cfgLock = false) :
    exec i s = .next (s.raise .notConfigured) :=
  exec_of_launchError_some (by rw [launchError_eq, if_pos ⟨hneeds, hlock⟩])

/-- A command that takes no handle runs its body where the configuration is locked and the queue has room (R119). -/
theorem exec_of_configured {i : Instr} {s : State} (hhandle : takesHandle i = false) (hlock : s.cfgLock = true)
    (hroom : worstEvents s.params i ≤ s.evqFree) : exec i s = .next (s.conclude (bodyOf i s)) :=
  exec_of_launchError_none (launchError_eq_none.2 ⟨fun _ => hlock, by simp [hhandle], hroom⟩)

/-- A command that takes no handle and emits nothing: only the configuration check can turn it away (R119). -/
theorem exec_of_config_check {i : Instr} {s : State} (hneeds : needsConfig i = true) (hhandle : takesHandle i = false)
    (hworst : worstEvents s.params i = 0) :
    exec i s = .next (if s.cfgLock = false then s.raise .notConfigured else s.conclude (bodyOf i s)) := by
  split
  next hlock => exact exec_of_not_configured hneeds hlock
  next hlock => exact exec_of_configured hhandle (by simpa using hlock) (hworst ▸ Nat.zero_le _)

/-! ### Destination class and Ethernet -/

/-- The four high bits of a word in numbers. -/
theorem high4_toNat (w : Word) : (w.extractLsb' 28 4).toNat = w.toNat / 2 ^ 28 := by
  have := w.isLt
  rw [BitVec.extractLsb'_toNat, Nat.shiftRight_eq_div_pow]
  omega

/-- dest_class with its two constants in numbers (R76). -/
theorem destClassOf_eq (hostIp bcastIp a : Word) : destClassOf hostIp bcastIp a =
    if a = hostIp then .unicastUs
    else if a = bcastIp ∨ a.toNat = 0xFFFFFFFF then .broadcast
    else if a.toNat / 2 ^ 28 = 14 then .multicast
    else .unicastOther := by
  have hones : a = 0xFFFFFFFF#32 ↔ a.toNat = 0xFFFFFFFF := BitVec.toNat_inj.symm
  have hclassD : a.extractLsb' 28 4 = 0b1110#4 ↔ a.toNat / 2 ^ 28 = 14 := by
    rw [← BitVec.toNat_inj, high4_toNat]
    rfl
  simp only [destClassOf, hones, hclassD]

/-- The destinations that are not somebody else's (R76, R83). -/
theorem destClassOf_ne_unicastOther {hostIp bcastIp a : Word} : destClassOf hostIp bcastIp a ≠ .unicastOther ↔
    a = hostIp ∨ a = bcastIp ∨ a = 0xFFFFFFFF#32 ∨ a.toNat / 2 ^ 28 = 14 := by
  have hones : a = 0xFFFFFFFF#32 ↔ a.toNat = 0xFFFFFFFF := BitVec.toNat_inj.symm
  rw [destClassOf_eq, hones]
  split_ifs with hus hbroadcast hmulticast
  · simp [hus]
  · exact iff_of_true (by simp) (.inr (hbroadcast.imp_right .inl))
  · exact iff_of_true (by simp) (.inr (.inr (.inr hmulticast)))
  · exact iff_of_false (· rfl) (by tauto)

/-- Settles O20: the body answers the code of the first class that matches. -/
theorem destClassFirstMatch : Obligations.DestClassFirstMatch := by
  unfold Obligations.DestClassFirstMatch
  intro s
  rw [exec_of_config_check rfl rfl rfl, bodyOf, destClassBody, destClassOf_eq]
  split
  · rfl
  · split_ifs <;> rfl

/-- eth_check with its window in the claims' words (R78). -/
theorem ethCheck_eq (s : State) (f flen : Word) : ethCheck s f flen =
    if flen.toNat < 14 then .ok { verdict := .runt, etherType := 0#16, payload := 0#32, payloadLen := 0#32 }
    else if Fits s.params f.toNat 14 then
      .ok { verdict := if s.mem.be16 (f.toNat + 12) = 0x0800#16 then .ipv4 else .notIpv4,
            etherType := s.mem.be16 (f.toNat + 12), payload := f + 14#32, payloadLen := flen - 14#32 }
    else .error .memRange := by
  simp only [ethCheck, inWindow_iff]

/-- Settles O21: eth_check answers the runt, the EtherType with the payload region, or the error. -/
theorem ethClassifyByEtherType : Obligations.EthClassifyByEtherType := by
  unfold Obligations.EthClassifyByEtherType
  intro s f et
  have hbody : bodyOf .ethClassify s = ethClassifyBody s := rfl
  rw [exec_of_no_checks rfl rfl rfl, hbody, ethClassifyBody, ethCheck_eq]
  by_cases hshort : s.arg1.toNat < 14
  · rw [if_pos hshort, if_pos hshort]
    rfl
  rw [if_neg hshort, if_neg hshort]
  by_cases hfit : Fits s.params f 14
  · rw [if_pos hfit, if_pos hfit]
    have het : (s.mem.be16 (f + 12)).toNat = et := s.mem.be16_toNat (f + 12)
    have hetWord : (s.mem.be16 (f + 12)).setWidth 32 = BitVec.ofNat 32 et := by rw [← het, BitVec.ofNat_toNat]
    have hipv4 : s.mem.be16 (f + 12) = 0x0800#16 ↔ et = 0x0800 := by rw [← BitVec.toNat_inj, het]; rfl
    have hverdict : (if s.mem.be16 (f + 12) = 0x0800#16 then EthVerdict.ipv4 else .notIpv4).byte.setWidth 32 =
        if et = 0x0800 then 0#32 else 1#32 := by
      simp only [hipv4]
      split <;> rfl
    have hpayload : s.arg0 + 14#32 = BitVec.ofNat 32 (f + 14) := BitVec.eq_of_toNat_eq (by simp [f])
    have hlen : s.arg1 - 14#32 = BitVec.ofNat 32 (s.arg1.toNat - 14) :=
      word_eq_ofNat (BitVec.toNat_sub_of_le (by simpa [BitVec.le_def] using hshort))
    rw [← hpayload, ← hlen, ← hverdict, ← hetWord]
    rfl
  · rw [if_neg hfit, if_neg hfit]
    rfl

/-! ### IPv4 -/

/-- Step 5's test in numbers (R80). -/
theorem isFragment_iff (ff : Half) : isFragment ff = true ↔
    ff.toNat / 0x8000 = 1 ∨ ff.toNat / 0x2000 % 2 = 1 ∨ ff.toNat % 0x2000 ≠ 0 := by
  have hlt := ff.isLt
  have hoffset : ff.extractLsb' 0 13 = 0#13 ↔ ff.toNat % 0x2000 = 0 := by
    rw [← BitVec.toNat_inj, BitVec.extractLsb'_toNat, Nat.shiftRight_zero]
    rfl
  simp only [isFragment, Bool.or_eq_true, bne_iff_ne, ne_eq, hoffset, BitVec.getLsbD, Nat.testBit_eq_decide_div_mod_eq,
    decide_eq_true_eq]
  omega

/-- The code of a destination class in numbers (R55, R76). -/
theorem destClassOf_byte_toNat (hostIp bcastIp a : Word) : (destClassOf hostIp bcastIp a).byte.toNat =
    if a.toNat = hostIp.toNat then 0 else if a.toNat = bcastIp.toNat ∨ a.toNat = 0xFFFFFFFF then 1
      else if a.toNat / 2 ^ 28 = 14 then 2 else 3 := by
  simp only [destClassOf_eq, ← BitVec.toNat_inj, apply_ite DestClass.byte, apply_ite BitVec.toNat]
  rfl

/-- The verdict of the first failing step, in numbers (R56, R80, R81). -/
theorem ipv4Verdict_byte_toNat (sum : Half) (h : Ipv4Header) (eplen : Nat) (c : DestClass) :
    (ipv4Verdict sum h eplen c).byte.toNat =
      if sum.toNat ≠ 0xFFFF then 0x10
      else if h.vihl.toNat ≠ 0x45 then 0x11
      else if h.totalLen.toNat < 20 ∨ eplen < h.totalLen.toNat then 0x12
      else if h.flagsFrag.toNat / 0x8000 = 1 ∨ h.flagsFrag.toNat / 0x2000 % 2 = 1 ∨ h.flagsFrag.toNat % 0x2000 ≠ 0
        then 0x13
      else if c.byte.toNat = 3 then 0x14
      else if h.proto.toNat = 1 then (if c.byte.toNat = 2 then 0x15 else 0x00)
      else if h.proto.toNat = 6 then (if c.byte.toNat = 0 then 0x01 else 0x16)
      else if h.proto.toNat = 17 then 0x02
      else 0x17 := by
  simp only [ipv4Verdict, apply_ite Ipv4Verdict.byte, apply_ite BitVec.toNat, ← isFragment_iff, ← BitVec.toNat_inj,
    ne_eq]
  cases c <;> rfl

/-- A verdict that is no drop: every step passed (R80, R81, R83). -/
theorem ipv4Verdict_passed {sum : Half} {h : Ipv4Header} {eplen : Nat} {c : DestClass} {v : Ipv4Verdict}
    (hv : ipv4Verdict sum h eplen c = v) (hmem : v ∈ [.deliverIcmp, .deliverTcp, .udpPlaceholder]) :
    h.vihl = 0x45#8 ∧ 20 ≤ h.totalLen.toNat ∧ h.totalLen.toNat ≤ eplen ∧ ¬ isFragment h.flagsFrag ∧
      c ≠ .unicastOther := by
  subst hv
  unfold ipv4Verdict at hmem
  split at hmem
  · simp at hmem
  split at hmem
  · simp at hmem
  next hvihl =>
  split at hmem
  · simp at hmem
  next hlen =>
  split at hmem
  · simp at hmem
  next hfrag =>
  split at hmem
  · simp at hmem
  next hcls => exact ⟨by simpa using hvihl, by omega, by omega, hfrag, hcls⟩

theorem ipv4HeaderLen_eq (vihl : Byte) : ipv4HeaderLen vihl = 4 * (vihl.toNat % 16) := by
  rw [ipv4HeaderLen, BitVec.extractLsb'_toNat, Nat.shiftRight_zero]

/-- Both access windows of the IPv4 checks lie in buffer memory (R80). -/
abbrev PacketFits (s : State) (p : Word) : Prop :=
  Fits s.params p.toNat 1 ∧ Fits s.params p.toNat (max 20 (ipv4HeaderLen (s.mem.byte p.toNat)))

/-- RES0..RES7 of IPV4_RX (R82). -/
def Ipv4Info.results (i : Ipv4Info) : Results :=
  { r0 := i.verdict.byte.setWidth 32, r1 := i.header.src, r2 := i.header.dst, r3 := i.lengthClassProto,
    r4 := i.header.flagsFrag ++ i.prelude, r5 := i.payload, r6 := i.header.id ++ BitVec.ofNat 16 i.upperLen,
    r7 := 0#8 ++ i.header.ttl ++ i.header.dscp ++ i.header.vihl }

theorem ipv4RxBody_eq (s : State) : ipv4RxBody s =
    if PacketFits s s.arg0 then .ok (s, (ipv4Answer s s.arg0 s.arg1).results) else .error .memRange := by
  rw [ipv4RxBody, ipv4Check_eq]
  by_cases hfit : PacketFits s s.arg0
  · rw [if_pos hfit, if_pos hfit]; rfl
  · rw [if_neg hfit, if_neg hfit]

/-- IPV4_RX ends as its body says where the configuration is locked (R80, R119). -/
theorem exec_ipv4Rx (s : State) : exec .ipv4Rx s = .next
    (if s.cfgLock = false then s.raise .notConfigured
     else if PacketFits s s.arg0 then s.finish (ipv4Answer s s.arg0 s.arg1).results
     else s.raise .memRange) := by
  rw [exec_of_config_check rfl rfl rfl, bodyOf, ipv4RxBody_eq]
  simp only [apply_ite (State.conclude s)]
  rfl

theorem exec_ipv4Rx_of_fits {s : State} (hlock : s.cfgLock = true) (hfit : PacketFits s s.arg0) :
    exec .ipv4Rx s = .next (s.finish (ipv4Answer s s.arg0 s.arg1).results) := by
  rw [exec_ipv4Rx, if_neg (by simp [hlock]), if_pos hfit]

theorem exec_ipv4Rx_of_not_fits {s : State} (hlock : s.cfgLock = true) (hfit : ¬ PacketFits s s.arg0) :
    exec .ipv4Rx s = .next (s.raise .memRange) := by
  rw [exec_ipv4Rx, if_neg (by simp [hlock]), if_neg hfit]

/-- The result registers of IPV4_RX in numbers (R82). -/
theorem Ipv4Info.results_eq (i : Ipv4Info) : i.results =
    { r0 := BitVec.ofNat 32 i.verdict.byte.toNat, r1 := BitVec.ofNat 32 i.header.src.toNat,
      r2 := BitVec.ofNat 32 i.header.dst.toNat,
      r3 := BitVec.ofNat 32 (i.header.totalLen.toNat * 65536 + i.cls.byte.toNat * 256 + i.header.proto.toNat),
      r4 := BitVec.ofNat 32 (i.header.flagsFrag.toNat * 65536 + i.prelude.toNat), r5 := i.payload,
      r6 := BitVec.ofNat 32 (i.header.id.toNat * 65536 + i.upperLen % 65536),
      r7 := BitVec.ofNat 32 (i.header.ttl.toNat * 65536 + i.header.dscp.toNat * 256 + i.header.vihl.toNat) } := by
  have hr3 : i.lengthClassProto =
      BitVec.ofNat 32 (i.header.totalLen.toNat * 65536 + i.cls.byte.toNat * 256 + i.header.proto.toNat) :=
    word_eq_ofNat (by rw [Ipv4Info.lengthClassProto, append_toNat, append_toNat]; omega)
  have hr6 : i.header.id ++ BitVec.ofNat 16 i.upperLen =
      BitVec.ofNat 32 (i.header.id.toNat * 65536 + i.upperLen % 65536) :=
    word_eq_ofNat (by rw [wordHalves_toNat, BitVec.toNat_ofNat])
  have hr7 : 0#8 ++ i.header.ttl ++ i.header.dscp ++ i.header.vihl =
      BitVec.ofNat 32 (i.header.ttl.toNat * 65536 + i.header.dscp.toNat * 256 + i.header.vihl.toNat) :=
    word_eq_ofNat (by rw [append_toNat, append_toNat, append_toNat, BitVec.toNat_ofNat]; omega)
  rw [Ipv4Info.results, hr3, hr6, hr7, portsWord_eq, BitVec.ofNat_toNat, BitVec.ofNat_toNat, BitVec.ofNat_toNat,
    BitVec.setWidth_eq, BitVec.setWidth_eq]

/-- The prelude in numbers: it is computed for a delivered TCP packet, whose total length is at least 20 (R80). -/
theorem ipv4Answer_prelude_toNat (s : State) (p eplen : Word) (i : Ipv4Info) (hi : i = ipv4Answer s p eplen) :
    i.prelude.toNat = if i.verdict.byte.toNat = 0x01 then
      onesSum (i.header.src.toNat / 65536 + i.header.src.toNat % 65536 + i.header.dst.toNat / 65536 +
        i.header.dst.toNat % 65536 + 6 + (i.header.totalLen.toNat - 20)) else 0 := by
  have htcp : i.verdict.byte.toNat = 0x01 ↔ i.verdict = .deliverTcp := by cases i.verdict <;> decide
  have hdef : i.prelude = if i.verdict = .deliverTcp then
      pseudoSum i.header.src i.header.dst 6#8 (i.header.totalLen - 20#16) else 0#16 := by subst hi; rfl
  simp only [htcp, hdef]
  split
  next hv =>
    have hlen : 20 ≤ i.header.totalLen.toNat := by
      subst hi
      obtain ⟨-, h20, -⟩ := ipv4Verdict_passed hv (by simp)
      exact h20
    rw [pseudoSum_toNat, BitVec.toNat_sub_of_le (by simpa [BitVec.le_def] using hlen)]
    rfl
  · rfl

/-- Settles O22: the answer's header fields, class, verdict and prelude are the statement's numbers. -/
theorem ipv4RxFieldsAndVerdict : Obligations.Ipv4RxFieldsAndVerdict := by
  unfold Obligations.Ipv4RxFieldsAndVerdict
  intro s p b hlen tlen ff src dst cls verdict prelude
  have hhlen : ipv4HeaderLen (s.mem.byte s.arg0.toNat) = hlen := ipv4HeaderLen_eq _
  generalize hi : ipv4Answer s s.arg0 s.arg1 = i
  have hvihl : i.header.vihl.toNat = b 0 := by rw [← hi]; rfl
  have hdscp : i.header.dscp.toNat = b 1 := by rw [← hi]; rfl
  have httl : i.header.ttl.toNat = b 8 := by rw [← hi]; rfl
  have hproto : i.header.proto.toNat = b 9 := by rw [← hi]; rfl
  have htlen : i.header.totalLen.toNat = tlen := by rw [← hi]; exact s.mem.be16_toNat _
  have hid : i.header.id.toNat = b 4 * 256 + b 5 := by rw [← hi]; exact s.mem.be16_toNat _
  have hff : i.header.flagsFrag.toNat = ff := by rw [← hi]; exact s.mem.be16_toNat _
  have hsrc : i.header.src.toNat = src := by rw [← hi]; exact s.mem.be32_toNat _
  have hdst : i.header.dst.toNat = dst := by rw [← hi]; exact s.mem.be32_toNat _
  have hcls : i.cls.byte.toNat = cls := by
    have hdef : i.cls = destClassOf s.hostIp s.bcastIp i.header.dst := by rw [← hi]; rfl
    rw [hdef, destClassOf_byte_toNat, hdst]
  have hsum : (cksum s.mem p hlen 0#16).toNat = onesSum (regionTotal s.mem p hlen) := by
    rw [cksum_toNat, BitVec.toNat_ofNat, Nat.zero_mod, Nat.zero_add]
  have hverdict : i.verdict.byte.toNat = verdict := by
    have hdef : i.verdict = ipv4Verdict (cksum s.mem p hlen 0#16) i.header s.arg1.toNat i.cls := by
      rw [← hhlen, ← hi]; rfl
    rw [hdef, ipv4Verdict_byte_toNat, hsum, hvihl, htlen, hff, hcls, hproto]
  have hprelude : i.prelude.toNat = prelude := by
    rw [ipv4Answer_prelude_toNat s _ _ i hi.symm, hverdict, hsrc, hdst, htlen]
  have hpayload : i.payload = BitVec.ofNat 32 (p + 20) := by
    rw [← hi]
    exact BitVec.eq_of_toNat_eq (by simp [ipv4Answer, p])
  have hupper : i.upperLen % 65536 = tlen - 20 := by
    have hdef : i.upperLen = i.header.totalLen.toNat - 20 := by rw [← hi]; rfl
    have := i.header.totalLen.isLt
    omega
  rw [exec_ipv4Rx, hi, Ipv4Info.results_eq, hverdict, hsrc, hdst, htlen, hcls, hproto, hff, hprelude, hpayload, hid,
    hupper, hvihl, hdscp, httl, ← hhlen]
  rfl

/-- Settles O23: a packet whose verdict is no drop has passed every step. -/
theorem ipv4FilterProperties : Obligations.Ipv4FilterProperties := by
  unfold Obligations.Ipv4FilterProperties
  intro s t h hok p ff dst hr0
  obtain ⟨u, r, -, hbody, rfl⟩ := exec_ok h hok
  rw [bodyOf, ipv4RxBody_eq] at hbody
  split at hbody <;> cases hbody
  have hcode : (ipv4Answer s s.arg0 s.arg1).verdict ∈ [.deliverIcmp, .deliverTcp, .udpPlaceholder] := by
    revert hr0
    simp only [State.finish_res, Ipv4Info.results]
    cases (ipv4Answer s s.arg0 s.arg1).verdict <;> decide
  obtain ⟨hvihl, -, hlen, hfrag, hcls⟩ := ipv4Verdict_passed rfl hcode
  have hff : ¬ (ff / 0x8000 = 1 ∨ ff / 0x2000 % 2 = 1 ∨ ff % 0x2000 ≠ 0) := mt (isFragment_iff _).2 hfrag
  have hdest : dst = s.hostIp ∨ dst = s.bcastIp ∨ dst = 0xFFFFFFFF#32 ∨ dst.toNat / 2 ^ 28 = 14 :=
    destClassOf_ne_unicastOther.1 hcls
  exact ⟨hvihl, hlen, by omega, by omega, hdest⟩

end Sys2Proof.Machine
end

section
/-!
RX_FRAME as a run of its stages (41_ipv4_rx.md R84): tcp_rx does not read the operands, so RX_FRAME's TCP stage is what
TCP_RX does on the operands that IPV4_RX has answered (R82, R105).
-/

namespace Sys2Proof.Machine

/-! ### tcp_rx and the operands -/

/-- The one error of tcp_rx is ERR_MEM_RANGE (R97). -/
theorem State.tcpRx_error {s : State} {seg : Word} {slen : Nat} {rip : Word} {prelude : Half} {e : CmdError}
    (h : s.tcpRx seg slen rip prelude = .error e) : e = .memRange := by
  rcases s.tcpRx_cases seg slen rip prelude with ⟨-, -, h'⟩ | ⟨_, -, -, h'⟩ | ⟨-, -, -, -, -, h'⟩ <;>
    rw [h'] at h <;> cases h
  rfl

/-- The state with other values in ARG0..ARG3. -/
def State.withArgs (a b c d : Word) (s : State) : State := { s with arg0 := a, arg1 := b, arg2 := c, arg3 := d }

section
variable (a b c d : Word) (s : State) (g : Segment)

/-- The answer of an operation, with other values in ARG0..ARG3. -/
abbrev viaArgs {α : Type} (x : State × α) : State × α := (x.1.withArgs a b c d, x.2)

theorem State.withArgs_lookup (x : Tuple) : (s.withArgs a b c d).lookup x = s.lookup x := rfl

theorem State.withArgs_alloc (x : Tuple) : (s.withArgs a b c d).alloc x = viaArgs a b c d (s.alloc x) := by
  have hfree : (s.withArgs a b c d).freeHandle (hashLine (s.withArgs a b c d).params x) =
      s.freeHandle (hashLine s.params x) := rfl
  rw [State.alloc, State.withArgs_lookup, hfree, State.alloc]
  cases s.lookup x with
  | some h => rfl
  | none => cases s.freeHandle (hashLine s.params x) <;> rfl

theorem State.withArgs_rxRst : (s.withArgs a b c d).rxRst g = viaArgs a b c d (s.rxRst g) := by
  rw [State.rxRst, State.withArgs_lookup, State.rxRst]
  cases s.lookup g.tuple <;> rfl

theorem State.withArgs_rxSyn : (s.withArgs a b c d).rxSyn g = viaArgs a b c d (s.rxSyn g) := by
  have hport : ∀ p, (s.withArgs a b c d).portIsOpen p = s.portIsOpen p := fun _ => rfl
  rw [State.rxSyn, State.withArgs_lookup, State.withArgs_alloc, hport, State.rxSyn]
  cases s.portIsOpen g.tuple.localPort with
  | false => rfl
  | true =>
    cases s.lookup g.tuple with
    | some h => rfl
    | none =>
      obtain ⟨t, k, res⟩ := s.alloc g.tuple
      cases k <;> rfl

theorem State.withArgs_rxAck : (s.withArgs a b c d).rxAck g = viaArgs a b c d (s.rxAck g) := by
  cases hl : s.lookup g.tuple with
  | none => simp only [State.rxAck, State.withArgs_lookup, hl]
  | some h =>
    have hl' : (s.withArgs a b c d).lookup g.tuple = some h := hl
    by_cases hs : g.seq = (s.entry h).remoteSeq
    · cases hfin : g.fin with
      | true => rw [State.rxAck_fin hl hs hfin, State.rxAck_fin hl' hs hfin]; rfl
      | false => rw [State.rxAck_inOrder hl hs hfin, State.rxAck_inOrder hl' hs hfin]; rfl
    · rw [State.rxAck_outOfOrder hl hs, State.rxAck_outOfOrder hl' hs]

theorem State.withArgs_rxDispatch : (s.withArgs a b c d).rxDispatch g = viaArgs a b c d (s.rxDispatch g) := by
  simp only [State.rxDispatch, State.withArgs_rxRst, State.withArgs_rxSyn, State.withArgs_rxAck,
    apply_ite (viaArgs a b c d)]

/-- tcp_rx reads no ARG register: it takes its operands as arguments (R97, R104). -/
theorem State.withArgs_tcpRx (seg : Word) (slen : Nat) (rip : Word) (prelude : Half) :
    (s.withArgs a b c d).tcpRx seg slen rip prelude = (s.tcpRx seg slen rip prelude).map (viaArgs a b c d) := by
  simp only [State.tcpRx, State.withArgs_rxDispatch, apply_ite (Except.map (viaArgs a b c d))]
  rfl

end

/-! ### RX_FRAME -/

/-- A frame of at least 14 bytes that lie in buffer memory, with the EtherType of IPv4 (R78). -/
structure Ipv4Frame (s : State) : Prop where
  length : 14 ≤ s.arg1.toNat
  fits : Fits s.params s.arg0.toNat 14
  etherType : s.mem.be16 (s.arg0.toNat + 12) = 0x0800#16

theorem Ipv4Frame.ethCheck_eq {s : State} (h : Ipv4Frame s) : ethCheck s s.arg0 s.arg1 =
    .ok { verdict := .ipv4, etherType := 0x0800#16, payload := s.arg0 + 14#32, payloadLen := s.arg1 - 14#32 } := by
  rw [Machine.ethCheck_eq, if_neg (Nat.not_lt.2 h.length), if_pos h.fits, h.etherType]
  rfl

/-- RX_FRAME where the Ethernet stage answers another verdict than IPv4 (R84). -/
theorem rxFrameBody_of_not_ipv4 {s : State} {f : EthInfo} {v : EthVerdict} (he : ethCheck s s.arg0 s.arg1 = .ok f)
    (hf : f.verdict = v) (hv : v ≠ .ipv4) :
    rxFrameBody s = .ok (s, { r0 := stagesWord v none none, r1 := handleWord none }) := by
  subst hf
  rw [rxFrameBody, he]
  exact if_pos hv

/-- RX_FRAME launches where the configuration is locked and the queue has room (R61, R119). -/
theorem exec_rxFrame {s : State} (hlock : s.cfgLock = true) (hroom : s.HasRoom (s.params.maxUnacked + 3)) :
    exec .rxFrame s = .next (s.conclude (rxFrameBody s)) :=
  exec_of_configured rfl hlock hroom.le_evqFree

/-- Settles O24: the Ethernet stage answers each of the three, and no other stage runs. -/
theorem rxFrameStopsAtEthernet : Obligations.RxFrameStopsAtEthernet := by
  unfold Obligations.RxFrameStopsAtEthernet
  intro s hlock hroom
  rw [exec_rxFrame hlock hroom]
  refine ⟨fun hlt => ?_, fun hge hfit het => ?_, fun hge hfit => ?_⟩
  · have he := ethCheck_eq s s.arg0 s.arg1
    rw [if_pos hlt] at he
    rw [rxFrameBody_of_not_ipv4 (v := .runt) he rfl (by decide)]
    rfl
  · have he := ethCheck_eq s s.arg0 s.arg1
    rw [if_neg (Nat.not_lt.2 hge), if_pos hfit, if_neg het] at he
    rw [rxFrameBody_of_not_ipv4 (v := .notIpv4) he rfl (by decide)]
    rfl
  · rw [rxFrameBody, ethCheck_eq, if_neg (Nat.not_lt.2 hge), if_neg hfit]
    rfl

/-- What RX_FRAME does once the IPv4 stage has answered (R84): EV_ICMP, the TCP stage, or nothing. -/
def State.rxPacket (s : State) (i : Ipv4Info) : Body :=
  if i.verdict = .deliverIcmp then
    .ok (s.emit (Event.ofIcmp i),
         { r0 := stagesWord .ipv4 (some i.verdict) none, r1 := handleWord none, r2 := i.header.src,
           r3 := i.lengthClassProto, r5 := i.payload, r6 := BitVec.ofNat 32 i.upperLen })
  else if i.verdict = .deliverTcp then
    (s.tcpRx i.payload i.upperLen i.header.src i.prelude).map fun x =>
      (x.1, { r0 := stagesWord .ipv4 (some i.verdict) (some x.2.verdict), r1 := handleWord x.2.handle,
              r2 := i.header.src, r3 := i.lengthClassProto, r4 := x.2.ports, r5 := x.2.paddr,
              r6 := BitVec.ofNat 32 x.2.plen })
  else
    .ok (s, { r0 := stagesWord .ipv4 (some i.verdict) none, r1 := handleWord none, r2 := i.header.src,
              r3 := i.lengthClassProto })

/-- RX_FRAME on an IPv4 frame: the IPv4 stage on the packet 14 bytes into the frame, then what its answer asks for
(R84). -/
theorem rxFrameBody_of_ipv4 {s : State} (hframe : Ipv4Frame s) : rxFrameBody s =
    if PacketFits s (s.arg0 + 14#32) then s.rxPacket (ipv4Answer s (s.arg0 + 14#32) (s.arg1 - 14#32))
    else .error .memRange := by
  rw [rxFrameBody, hframe.ethCheck_eq]
  simp only [ne_eq, not_true_eq_false, if_false, ipv4Check_eq]
  by_cases hfit : PacketFits s (s.arg0 + 14#32)
  · rw [if_pos hfit, if_pos hfit, State.rxPacket]
    generalize ipv4Answer s (s.arg0 + 14#32) (s.arg1 - 14#32) = i
    cases ht : s.tcpRx i.payload i.upperLen i.header.src i.prelude <;> simp only [ht] <;> rfl
  · rw [if_neg hfit, if_neg hfit]

/-! ### RX_FRAME against the single commands -/

/-- RES0..RES7 of TCP_RX (R105). -/
def TcpInfo.results (i : TcpInfo) : Results :=
  { r0 := i.verdict.byte.setWidth 32, r1 := handleWord i.handle, r2 := i.ports, r3 := i.seq, r4 := i.ack,
    r5 := i.doffFlags, r6 := BitVec.ofNat 32 i.plen, r7 := i.paddr }

theorem tcpRxBody_withArgs (a b c d : Word) (s : State) : tcpRxBody (s.withArgs a b c d) =
    (s.tcpRx a b.toNat c (argU16 d)).map fun x => (x.1.withArgs a b c d, x.2.results) := by
  have htcp := s.withArgs_tcpRx a b c d a b.toNat c (argU16 d)
  rw [tcpRxBody]
  simp only [State.withArgs] at htcp ⊢
  rw [htcp]
  cases s.tcpRx a b.toNat c (argU16 d) <;> rfl

/-- TCP_RX on operands other than the state's own, in the states in which RX_FRAME launches (R105). -/
theorem exec_tcpRx_withArgs {s : State} (a b c d : Word) (hlock : s.cfgLock = true)
    (hroom : s.HasRoom (s.params.maxUnacked + 3)) : exec .tcpRx (s.withArgs a b c d) =
      .next ((s.withArgs a b c d).conclude
        ((s.tcpRx a b.toNat c (argU16 d)).map fun x => (x.1.withArgs a b c d, x.2.results))) := by
  rw [← tcpRxBody_withArgs]
  exact exec_of_configured rfl hlock hroom.le_evqFree

theorem Ipv4Info.results_r0 (i : Ipv4Info) : i.results.r0 = i.verdict.byte.setWidth 32 := rfl

theorem TcpInfo.results_r0 (i : TcpInfo) : i.results.r0 = i.verdict.byte.setWidth 32 := rfl

/-- RES0 of IPV4_RX names the verdict (R56, R82). -/
theorem Ipv4Info.results_r0_eq_zero {i : Ipv4Info} : i.results.r0 = 0x00#32 ↔ i.verdict = .deliverIcmp := by
  rw [Ipv4Info.results_r0]
  cases i.verdict <;> decide

theorem Ipv4Info.results_r0_eq_one {i : Ipv4Info} : i.results.r0 = 0x01#32 ↔ i.verdict = .deliverTcp := by
  rw [Ipv4Info.results_r0]
  cases i.verdict <;> decide

/-- RES0 of RX_FRAME where the IPv4 stage is the last, from that of IPV4_RX (R84). -/
theorem stagesWord_ipv4 (i : Ipv4Info) :
    stagesWord .ipv4 (some i.verdict) none = BitVec.ofNat 32 (0x00FF0000 + i.results.r0.toNat * 256) := by
  rw [Ipv4Info.results_r0]
  cases i.verdict <;> rfl

/-- RES0 of RX_FRAME where the TCP stage is the last, from that of TCP_RX (R84). -/
theorem stagesWord_tcp (c : TcpInfo) : stagesWord .ipv4 (some .deliverTcp) (some c.verdict) =
    BitVec.ofNat 32 (c.results.r0.toNat * 65536 + 0x0100) := by
  rw [TcpInfo.results_r0]
  cases c.verdict <;> rfl

/-- Bits 15:0 of RES6 of IPV4_RX: the length of what the packet carries (R82). -/
theorem ipv4Answer_upperLen (s : State) (p eplen : Word) :
    (ipv4Answer s p eplen).results.r6.toNat % 65536 = (ipv4Answer s p eplen).upperLen := by
  have hlt := (ipv4Answer s p eplen).header.totalLen.isLt
  have hdef : (ipv4Answer s p eplen).upperLen = (ipv4Answer s p eplen).header.totalLen.toNat - 20 := rfl
  rw [Ipv4Info.results, wordHalves_toNat, BitVec.toNat_ofNat]
  omega

/-- Bits 15:0 of RES4 of IPV4_RX: the prelude (R82). -/
theorem Ipv4Info.results_prelude (i : Ipv4Info) : argU16 i.results.r4 = i.prelude :=
  BitVec.extractLsb'_append_eq_right

/-- RX_FRAME's TCP stage: it ends with the one error of tcp_rx, or with what tcp_rx leaves and answers (R84, R97). -/
theorem State.rxPacket_tcp (s : State) {i : Ipv4Info} (hv : i.verdict = .deliverTcp) :
    (s.tcpRx i.payload i.upperLen i.header.src i.prelude = .error .memRange ∧ s.rxPacket i = .error .memRange) ∨
    ∃ t c, s.tcpRx i.payload i.upperLen i.header.src i.prelude = .ok (t, c) ∧
      s.rxPacket i = .ok (t,
        { r0 := BitVec.ofNat 32 (c.results.r0.toNat * 65536 + 0x0100), r1 := handleWord c.handle, r2 := i.header.src,
          r3 := i.lengthClassProto, r4 := c.ports, r5 := c.paddr, r6 := BitVec.ofNat 32 c.plen }) := by
  have hpacket : s.rxPacket i = _ := (if_neg (by simp [hv])).trans (if_pos hv)
  cases ht : s.tcpRx i.payload i.upperLen i.header.src i.prelude with
  | error e =>
    obtain rfl : e = .memRange := State.tcpRx_error ht
    exact .inl ⟨rfl, by rw [hpacket, ht]; rfl⟩
  | ok x => exact .inr ⟨x.1, x.2, rfl, by rw [hpacket, ht, ← stagesWord_tcp, hv]; rfl⟩

/-- Settles O25: the IPv4 stage answers the error or a verdict, and RX_FRAME goes on as the verdict asks. -/
theorem rxFrameRunsItsStages : Obligations.RxFrameRunsItsStages := by
  unfold Obligations.RxFrameRunsItsStages
  intro s hlock hroom hlen hfits het
  have hrx := exec_rxFrame hlock hroom
  rw [rxFrameBody_of_ipv4 ⟨hlen, hfits, het⟩] at hrx
  by_cases hfit : PacketFits s (s.arg0 + 14#32)
  · have hupper := ipv4Answer_upperLen s (s.arg0 + 14#32) (s.arg1 - 14#32)
    obtain ⟨i, hi⟩ : ∃ i, i = ipv4Answer s (s.arg0 + 14#32) (s.arg1 - 14#32) := ⟨_, rfl⟩
    rw [← hi] at hupper
    rw [if_pos hfit, ← hi] at hrx
    refine ⟨({ s with arg0 := s.arg0 + 14#32, arg1 := s.arg1 - 14#32 } : State).finish i.results,
      hi ▸ exec_ipv4Rx_of_fits hlock hfit, ?_⟩
    simp only [State.finish_res, State.finish_code, ne_eq, not_true, if_false, hupper, hrx]
    by_cases hicmp : i.verdict = .deliverIcmp
    · rw [if_pos (Ipv4Info.results_r0_eq_zero.2 hicmp), State.rxPacket, if_pos hicmp, hicmp]
      rfl
    rw [if_neg (mt Ipv4Info.results_r0_eq_zero.1 hicmp)]
    by_cases htcp : i.verdict = .deliverTcp
    · rw [if_pos (Ipv4Info.results_r0_eq_one.2 htcp)]
      have hargs : s.tcpRx i.results.r5 (BitVec.ofNat 32 i.upperLen).toNat i.results.r1 (argU16 i.results.r4) =
          s.tcpRx i.payload i.upperLen i.header.src i.prelude := by
        rw [i.results_prelude, BitVec.toNat_ofNat, Nat.mod_eq_of_lt (by omega)]
        rfl
      have hexec := exec_tcpRx_withArgs i.results.r5 (BitVec.ofNat 32 i.upperLen) i.results.r1 i.results.r4 hlock hroom
      rw [hargs] at hexec
      rcases s.rxPacket_tcp htcp with ⟨ht, hp⟩ | ⟨t, c, ht, hp⟩ <;> rw [ht] at hexec <;> rw [hp]
      · exact ⟨_, hexec, (if_pos (by simp [Except.map, State.conclude])).mpr rfl⟩
      · refine ⟨_, hexec, (if_neg (by simp [Except.map, State.conclude])).mpr ?_⟩
        conv_lhs => rw [State.tcpRx_frame ht]
        rfl
    · rw [if_neg (mt Ipv4Info.results_r0_eq_one.1 htcp), State.rxPacket, if_neg hicmp, if_neg htcp, stagesWord_ipv4]
      rfl
  · rw [if_neg hfit] at hrx
    exact ⟨_, exec_ipv4Rx_of_not_fits hlock hfit, hrx⟩

end Sys2Proof.Machine
end

section
/-!
The socket table's commands (42_socket_table.md R86 to R93): the default hash in numbers, lookup and alloc by what the
ways of the tuple's line hold, and the four commands.
-/

namespace Sys2Proof.Machine

/-! ### The hash -/

/-- The rotation by 8 exchanges the two bytes of a u16 (00_scope.md R10). -/
theorem rotl16By8_toNat (x : Half) : (rotl16By8 x).toNat = x.toNat % 256 * 256 + x.toNat / 256 := by
  have hx := x.isLt
  have hhigh : x.toNat <<< 8 % 2 ^ 16 = 2 ^ 8 * (x.toNat % 256) := by rw [Nat.shiftLeft_eq]; omega
  have hlow : x.toNat / 2 ^ 8 < 2 ^ 8 := by omega
  rw [rotl16By8, BitVec.toNat_or, BitVec.toNat_shiftLeft, BitVec.toNat_ushiftRight, hhigh, Nat.shiftRight_eq_div_pow,
    ← Nat.two_pow_add_eq_or_of_lt hlow]
  omega

/-- The high half of a word in numbers. -/
theorem high16_toNat (w : Word) : (w.extractLsb' 16 16).toNat = w.toNat / 65536 := by
  have := w.isLt
  rw [BitVec.extractLsb'_toNat, Nat.shiftRight_eq_div_pow]
  omega

/-- The default mix in numbers (R86). -/
theorem defaultMix_toNat (t : Tuple) : (defaultMix t).toNat =
    (t.remoteIp.toNat / 65536) ^^^ (t.remoteIp.toNat % 65536) ^^^ t.localPort.toNat ^^^
      (t.remotePort.toNat % 256 * 256 + t.remotePort.toNat / 256) := by
  simp only [defaultMix, BitVec.toNat_xor, rotl16By8_toNat, high16_toNat]
  rw [BitVec.extractLsb'_toNat, Nat.shiftRight_zero]

/-- The line under the default hash (R86). -/
theorem hashLine_of_default {p : Params} (h : p.hash = .default) (t : Tuple) :
    hashLine p t = (defaultMix t).toNat % p.tableLines := by
  rw [hashLine, h]

/-- Settles O26: the body answers the tuple's line, which lies in the table and under the default hash is the mix. -/
theorem tcpHashYieldsLine : Obligations.TcpHashYieldsLine := by
  unfold Obligations.TcpHashYieldsLine
  intro s hlines _
  refine ⟨hashLine s.params s.argTuple, hashLine_lt hlines _, fun hdefault => ?_, exec_of_no_checks rfl rfl rfl⟩
  rw [hashLine_of_default hdefault, defaultMix_toNat]
  simp only [State.argTuple, argU16_toNat]

/-! ### Lookup -/

/-- The tuple of the operands, in numbers (R62, R90). -/
theorem Entry.tuple_eq_argTuple (e : Entry) (s : State) : e.tuple = s.argTuple ↔
    e.remoteIp = s.arg0 ∧ e.localPort.toNat = s.arg1.toNat % 65536 ∧ e.remotePort.toNat = s.arg2.toNat % 65536 := by
  simp only [Entry.tuple, State.argTuple, Tuple.mk.injEq, ← BitVec.toNat_inj (x := e.localPort),
    ← BitVec.toNat_inj (x := e.remotePort), argU16_toNat]

/-- On a table that keeps its invariant the lookup finds every valid entry by its tuple (R87, R95). -/
theorem State.TuplesOk.lookup_tuple {s : State} (h : s.TuplesOk) (hlines : 0 < s.params.tableLines) {k : Nat}
    (hk : k < s.params.handles) (hv : (s.entry k).valid = true) : s.lookup (s.entry k).tuple = some k := by
  cases hl : s.lookup (s.entry k).tuple with
  | none =>
    have hway : k / s.params.tableLines < s.params.tableWays := Nat.div_lt_of_lt_mul (by rwa [Nat.mul_comm])
    have hmiss := State.lookup_none.1 hl _ hway
    rw [← h.onLine k hk hv, Nat.div_add_mod', (Entry.holds_iff _ _).2 ⟨hv, rfl⟩] at hmiss
    cases hmiss
  | some j =>
    obtain ⟨hvj, htuple, -, w, hw, rfl⟩ := State.lookup_some hl
    rw [h.unique _ k (probe_lt hw (hashLine_lt hlines _)) hk hvj hv htuple]

/-- Settles O27: the lookup's handle is that of every entry holding the tuple, and the null handle says that there is
none. -/
theorem tcpLookupFindsTheEntry : Obligations.TcpLookupFindsTheEntry := by
  unfold Obligations.TcpLookupFindsTheEntry
  intro s hwf hshape htuples
  simp only [← Entry.tuple_eq_argTuple]
  refine ⟨handleWord (s.lookup s.argTuple), exec_of_no_checks rfl rfl rfl, ?_, fun hnone => ?_⟩
  · rintro h hh ⟨hv, htuple⟩
    rw [← htuple, htuples.lookup_tuple hwf.lines_pos hh hv]
    rfl
  · cases hl : s.lookup s.argTuple with
    | none => rfl
    | some k =>
      obtain ⟨hv, htuple, hk, -⟩ := State.lookup_some hl
      exact absurd ⟨hv, htuple⟩ (hnone k (hshape.entries ▸ hk))

/-! ### Alloc -/

/-- The lookup's null, in the claims' words (R87). -/
theorem State.lookup_eq_none {s : State} {t : Tuple} : s.lookup t = none ↔
    ∀ w, w < s.params.tableWays → ¬ ((s.entry (w * s.params.tableLines + hashLine s.params t)).valid = true ∧
      (s.entry (w * s.params.tableLines + hashLine s.params t)).tuple = t) := by
  simp only [State.lookup_none, ← Entry.holds_iff, Bool.not_eq_true]

/-- A line of valid entries has no free way (R88). -/
theorem State.freeHandle_eq_none {s : State} {line : Nat}
    (h : ∀ w, w < s.params.tableWays → (s.entry (w * s.params.tableLines + line)).valid = true) :
    s.freeHandle line = none :=
  find_probes_eq_none.2 fun w hw => by rw [h w hw, Bool.not_true]

/-- The first way whose entry is not valid is the free one (R88). -/
theorem State.freeHandle_eq_some {s : State} {line w : Nat} (hw : w < s.params.tableWays)
    (hfree : (s.entry (w * s.params.tableLines + line)).valid = false)
    (hfirst : ∀ v, v < w → (s.entry (v * s.params.tableLines + line)).valid = true) :
    s.freeHandle line = some (w * s.params.tableLines + line) :=
  find_probes_eq_some hw (by rw [hfree, Bool.not_false]) fun v hv => by rw [hfirst v hv, Bool.not_true]

/-- TCP_ALLOC is alloc on the operands' tuple: no launch check can turn it away (R92, R119). -/
theorem exec_tcpAlloc {s t : State} {h : Option Nat} {r : AllocResult} (ha : s.alloc s.argTuple = (t, h, r)) :
    exec .tcpAlloc s = .next (t.finish { r0 := handleWord h, r1 := r.word }) := by
  rw [exec_of_no_checks rfl rfl rfl, bodyOf, tcpAllocBody, ha]
  rfl

/-- Settles O28: the ways of the line decide which of alloc's three answers it is. -/
theorem tcpAllocTakesFirstFreeWay : Obligations.TcpAllocTakesFirstFreeWay := by
  unfold Obligations.TcpAllocTakesFirstFreeWay
  intro s _ _
  refine ⟨?_, fun hfull => ?_, fun w hw hfree hfirst hnew => ?_⟩
  · rintro ⟨w, hw, hholds⟩
    rcases s.alloc_cases s.argTuple with ⟨_, -, ha⟩ | ⟨hl, -, -⟩ | ⟨_, hl, -, -⟩
    · exact exec_tcpAlloc ha
    all_goals exact absurd hholds (State.lookup_eq_none.1 hl w hw)
  · have hlookup := State.lookup_eq_none.2 fun w hw => (hfull w hw).2
    have hnofree := State.freeHandle_eq_none fun w hw => (hfull w hw).1
    exact exec_tcpAlloc (by rw [State.alloc, hlookup, hnofree])
  · have hlookup := State.lookup_eq_none.2 hnew
    have hway := State.freeHandle_eq_some hw hfree hfirst
    exact exec_tcpAlloc (by rw [State.alloc, hlookup, hway])

/-! ### Clear -/

/-- Settles O29: a handle of the table and room pass the launch checks, and the body clears a valid entry alone. -/
theorem tcpClearReleasesAndZeroes : Obligations.TcpClearReleasesAndZeroes := by
  unfold Obligations.TcpClearReleasesAndZeroes
  intro s hhandle hroom
  have hlaunch : launchError .tcpClear s = none :=
    launchError_eq_none.2 ⟨nofun, fun _ => hhandle, hroom.le_evqFree⟩
  simp only
  rw [exec_of_launchError_none hlaunch, bodyOf, tcpClearBody, State.clearEntry_eq]
  split <;> rfl

end Sys2Proof.Machine
end

section
/-!
The segment layout (43_tcp_dispatch.md R96) in numbers, and TCP_RX up to the flag dispatch (R97, R105): the checks in
their order, and the good segment that passes them all.
-/

namespace Sys2Proof.Machine

/-! ### The segment -/

theorem high4_byte_toNat (b : Byte) : (b.extractLsb' 4 4).toNat = b.toNat / 16 := by
  have := b.isLt
  rw [BitVec.extractLsb'_toNat, Nat.shiftRight_eq_div_pow]
  omega

/-- Settles O30: each field is a read of buffer memory at its offset. -/
theorem segmentLayout : Obligations.SegmentLayout := by
  unfold Obligations.SegmentLayout
  intro m s rip slen b g
  have hdoff : g.doff.toNat = b 12 / 16 := high4_byte_toNat _
  have hflag : ∀ i, g.flags.getLsbD i = true ↔ b 13 / 2 ^ i % 2 = 1 := fun i => by
    simp only [BitVec.getLsbD, Nat.testBit_eq_decide_div_mod_eq, decide_eq_true_eq]
    rfl
  have hplen : g.plen = slen - 4 * g.doff.toNat := rfl
  have hpaddr : g.paddr.toNat = (s.toNat + 4 * g.doff.toNat) % 2 ^ 32 := by simp [g, parseSegment]
  rw [hplen, hpaddr, hdoff]
  exact ⟨rfl, m.be16_toNat _, m.be16_toNat _, m.be32_toNat _, m.be32_toNat _, rfl, rfl,
    (hflag 0).trans (by rw [pow_zero, Nat.div_one]), hflag 1, hflag 2, hflag 4, rfl, rfl⟩

/-- The ports word in numbers (R97). -/
theorem Segment.ports_eq (g : Segment) :
    g.ports = BitVec.ofNat 32 (g.tuple.remotePort.toNat * 65536 + g.tuple.localPort.toNat) :=
  portsWord_eq _ _

/-- The remote IP and the ports word name the connection (R97). -/
theorem Segment.tuple_eq_of_ports {g g' : Segment} (hip : g.tuple.remoteIp = g'.tuple.remoteIp)
    (hports : g.ports = g'.ports) : g.tuple = g'.tuple := by
  have hnat := congrArg BitVec.toNat hports
  simp only [Segment.ports, portsWord, wordHalves_toNat] at hnat
  have hlt := g.tuple.localPort.isLt
  have hlt' := g'.tuple.localPort.isLt
  have hlocal : g.tuple.localPort = g'.tuple.localPort := BitVec.eq_of_toNat_eq (by omega)
  have hremote : g.tuple.remotePort = g'.tuple.remotePort := BitVec.eq_of_toNat_eq (by omega)
  show (⟨g.tuple.remoteIp, g.tuple.localPort, g.tuple.remotePort⟩ : Tuple) = g'.tuple
  rw [hip, hlocal, hremote]

/-- A reply request in the claims' words (R60). -/
theorem Segment.reply_eq (g : Segment) (kind : EventKind) (handle : Half) (seq ack w5 : Word) :
    g.reply kind handle seq ack w5 = replyRecord g kind handle seq ack w5 := by
  rw [Segment.reply, Segment.ports_eq, replyRecord]

/-! ### The results -/

/-- Data offset and flags in one word, in numbers (R97). -/
theorem doffFlags_eq (d : BitVec 4) (f : Byte) : 0#20 ++ d ++ f = BitVec.ofNat 32 (d.toNat * 256 + f.toNat) :=
  word_eq_ofNat (by rw [append_toNat, append_toNat, BitVec.toNat_ofNat]; omega)

/-- The results of a segment that reached the flag dispatch, in the claims' words (R105). -/
theorem Segment.answer_results (g : Segment) (v : TcpVerdict) (h : Option Nat) :
    (g.answer v h).results = segmentResults g v.byte.toNat (handleWord h) := by
  rw [segmentResults, ← Segment.ports_eq, ← doffFlags_eq, BitVec.ofNat_toNat]
  rfl

/-- The results of a segment that was dropped after its header was read (R97, R105). -/
theorem Segment.dropped_results (g : Segment) (v : TcpVerdict) :
    (g.dropped v).results = { segmentResults g v.byte.toNat 0xFFFFFFFF#32 with r6 := 0#32, r7 := 0#32 } := by
  rw [segmentResults, ← Segment.ports_eq, ← doffFlags_eq, BitVec.ofNat_toNat]
  rfl

/-- RES0 of TCP_RX is the number of its verdict (R57, R105). -/
theorem TcpInfo.results_r0_toNat (i : TcpInfo) : i.results.r0.toNat = i.verdict.byte.toNat :=
  BitVec.toNat_setWidth_of_le (by decide)

/-- No two verdicts have the same number (R57). -/
theorem TcpVerdict.byte_inj {v w : TcpVerdict} (h : v.byte = w.byte) : v = w := by
  revert h
  cases v <;> cases w <;> decide

/-- RES0 of TCP_RX tells the verdict (R57, R105). -/
theorem TcpInfo.verdict_of_results {i : TcpInfo} {v : TcpVerdict} (h : i.results.r0 = BitVec.ofNat 32 v.byte.toNat) :
    i.verdict = v := by
  rw [TcpInfo.results_r0, ← BitVec.ofNat_toNat] at h
  have hnat := congrArg BitVec.toNat h
  rw [BitVec.toNat_ofNat, BitVec.toNat_ofNat] at hnat
  have := i.verdict.byte.isLt
  have := v.byte.isLt
  exact TcpVerdict.byte_inj (BitVec.eq_of_toNat_eq (by omega))

/-! ### The checks before the dispatch -/

/-- The segment that the operands of TCP_RX name (R105). -/
abbrev State.segment (s : State) : Segment := parseSegment s.mem s.arg0 s.arg1.toNat s.arg2

/-- The folded total of that segment and its prelude (R67, R97). -/
abbrev State.segmentSum (s : State) : Nat :=
  onesSum (s.arg3.toNat % 65536 + regionTotal s.mem s.arg0.toNat s.arg1.toNat)

/-- tcp_rx on the operands of TCP_RX. -/
abbrev State.rxOperands (s : State) : Except CmdError (State × TcpInfo) :=
  s.tcpRx s.arg0 s.arg1.toNat s.arg2 (argU16 s.arg3)

/-- The checks of tcp_rx in their order, in the claims' words (R97). -/
theorem State.rxOperands_eq (s : State) : s.rxOperands =
    if s.arg1.toNat < 20 then .ok (s, { verdict := .dropMalformed })
    else if ¬ Fits s.params s.arg0.toNat s.arg1.toNat then .error .memRange
    else if s.segmentSum ≠ 0xFFFF then .ok (s, s.segment.dropped .dropChecksum)
    else if s.segment.doff.toNat < 5 ∨ s.arg1.toNat < 4 * s.segment.doff.toNat then
      .ok (s, s.segment.dropped .dropMalformed)
    else .ok (s.rxDispatch s.segment) := by
  have hsum : cksum s.mem s.arg0.toNat s.arg1.toNat (argU16 s.arg3) = 0xFFFF#16 ↔ s.segmentSum = 0xFFFF := by
    rw [← BitVec.toNat_inj, cksum_toNat, argU16_toNat]
    rfl
  simp only [State.rxOperands, State.tcpRx, ← inWindow_iff, Bool.not_eq_true, Bool.not_eq_true', ne_eq, hsum]

/-- The body of TCP_RX is tcp_rx with its answer in RES0..RES7 (R105). -/
theorem tcpRxBody_eq (s : State) : tcpRxBody s = s.rxOperands.map fun x => (x.1, x.2.results) := by
  rw [tcpRxBody, State.rxOperands]
  cases s.tcpRx s.arg0 s.arg1.toNat s.arg2 (argU16 s.arg3) <;> rfl

/-- With room for its worst case TCP_RX passes its launch checks (R61, R119). -/
theorem exec_tcpRx {s : State} (hroom : s.HasRoom (s.params.maxUnacked + 3)) :
    exec .tcpRx s = .next (s.conclude (s.rxOperands.map fun x => (x.1, x.2.results))) := by
  have hlaunch : launchError .tcpRx s = none := launchError_eq_none.2 ⟨nofun, nofun, hroom.le_evqFree⟩
  rw [exec_of_launchError_none hlaunch, bodyOf, tcpRxBody_eq]

/-- Settles O31: the four checks in their order, each with its answer. -/
theorem tcpRxChecksBeforeDispatch : Obligations.TcpRxChecksBeforeDispatch := by
  unfold Obligations.TcpRxChecksBeforeDispatch
  intro s hroom g headerOnly sum
  have hrx := s.rxOperands_eq
  have hdropped : ∀ v, s.rxOperands = .ok (s, g.dropped v) → exec .tcpRx s = .next (headerOnly v.byte.toNat) :=
    fun v h => by rw [exec_tcpRx hroom, h, Except.map, Segment.dropped_results]; rfl
  refine ⟨fun hshort => ?_, fun h20 hfits => ?_, fun h20 hfits hsum => ?_, fun h20 hfits hsum hdoff => ?_⟩
  · rw [if_pos hshort] at hrx
    rw [exec_tcpRx hroom, hrx]
    rfl
  all_goals rw [if_neg (Nat.not_lt.2 h20)] at hrx
  · rw [if_pos hfits] at hrx
    rw [exec_tcpRx hroom, hrx]
    rfl
  all_goals rw [if_neg (not_not.2 hfits)] at hrx
  · rw [if_pos hsum] at hrx
    exact hdropped .dropChecksum hrx
  · rw [if_neg (not_not.2 hsum), if_pos hdoff] at hrx
    exact hdropped .dropMalformed hrx

/-- A good segment is dispatched (R97, R98). -/
theorem GoodSegment.exec_eq {s : State} {g : Segment} (hg : GoodSegment s g) :
    exec .tcpRx s = .next ((s.rxDispatch g).1.finish (s.rxDispatch g).2.results) := by
  obtain ⟨hroom, h20, hfits, hsum, rfl, h5, hdoff⟩ := hg
  have hdoff' : ¬ (s.segment.doff.toNat < 5 ∨ s.arg1.toNat < 4 * s.segment.doff.toNat) :=
    not_or.2 ⟨Nat.not_lt.2 h5, Nat.not_lt.2 hdoff⟩
  rw [exec_tcpRx hroom, s.rxOperands_eq, if_neg (Nat.not_lt.2 h20), if_neg (not_not.2 hfits),
    if_neg (not_not.2 hsum), if_neg hdoff']
  rfl

/-- A TCP_RX that ended with OK dropped its segment before the dispatch, or the segment was good and dispatched. -/
theorem exec_tcpRx_ok {s t : State} (h : exec .tcpRx s = .next t) (hok : t.code = .ok) :
    (∃ i : TcpInfo, (i.verdict = .dropMalformed ∨ i.verdict = .dropChecksum) ∧ t = s.finish i.results) ∨
    (GoodSegment s s.segment ∧ t = (s.rxDispatch s.segment).1.finish (s.rxDispatch s.segment).2.results) := by
  obtain ⟨u, r, hlaunch, hbody, rfl⟩ := exec_ok h hok
  obtain ⟨-, -, hworst⟩ := launchError_eq_none.1 hlaunch
  have hroom : s.HasRoom (s.params.maxUnacked + 3) := by
    simp only [worstEvents, State.evqFree] at hworst
    show s.evq.length + (s.params.maxUnacked + 3) ≤ s.params.evqDepth
    omega
  rw [bodyOf, tcpRxBody_eq, s.rxOperands_eq] at hbody
  split at hbody
  · cases hbody
    exact .inl ⟨_, .inl rfl, rfl⟩
  next h20 =>
  split at hbody
  · cases hbody
  next hfits =>
  split at hbody
  · cases hbody
    exact .inl ⟨_, .inr rfl, rfl⟩
  next hsum =>
  split at hbody
  · cases hbody
    exact .inl ⟨_, .inl rfl, rfl⟩
  next hdoff =>
  cases hbody
  exact .inr ⟨⟨hroom, Nat.not_lt.1 h20, not_not.1 hfits, not_not.1 hsum, rfl, by omega, by omega⟩, rfl⟩

end Sys2Proof.Machine
end

section
/-!
The flag dispatch of tcp_rx (43_tcp_dispatch.md R98 to R103): the branch that the flags select, and what TCP_RX leaves
on a good segment, branch by branch.
-/

namespace Sys2Proof.Machine

/-! ### The branches -/

theorem State.rxDispatch_of_rst (s : State) {g : Segment} (hrst : g.rst = true) : s.rxDispatch g = s.rxRst g :=
  if_pos hrst

theorem State.rxDispatch_of_syn (s : State) {g : Segment} (hrst : g.rst = false) (hsyn : g.syn = true)
    (hack : g.ackFlag = false) : s.rxDispatch g = s.rxSyn g := by
  simp [State.rxDispatch, hrst, hsyn, hack]

theorem State.rxDispatch_of_ack (s : State) {g : Segment} (hrst : g.rst = false) (hack : g.ackFlag = true) :
    s.rxDispatch g = s.rxAck g := by
  simp [State.rxDispatch, hrst, hack]

theorem State.rxDispatch_of_no_flags (s : State) {g : Segment} (hrst : g.rst = false) (hsyn : g.syn = false)
    (hack : g.ackFlag = false) : s.rxDispatch g = (s, g.answer .dropNoFlags none) := by
  simp [State.rxDispatch, hrst, hsyn, hack]

theorem State.rxRst_none {s : State} {g : Segment} (hl : s.lookup g.tuple = none) :
    s.rxRst g = (s, g.answer .rstNoSocket none) := by
  rw [State.rxRst, hl]

theorem State.rxAck_none {s : State} {g : Segment} (hl : s.lookup g.tuple = none) :
    s.rxAck g = (s, g.answer .dropNoSocket none) := by
  rw [State.rxAck, hl]

theorem State.rxSyn_portClosed {s : State} {g : Segment} (hp : s.portIsOpen g.tuple.localPort = false) :
    s.rxSyn g = (s.emit g.rstAck, g.answer .synPortClosed none) := by
  simp [State.rxSyn, hp]

theorem State.rxSyn_duplicate {s : State} {g : Segment} {h : Nat} (hp : s.portIsOpen g.tuple.localPort = true)
    (hl : s.lookup g.tuple = some h) : s.rxSyn g = (s, g.answer .synDuplicate (some h)) := by
  simp [State.rxSyn, hp, hl]

theorem State.rxSyn_tableFull {s : State} {g : Segment} (hp : s.portIsOpen g.tuple.localPort = true)
    (hl : s.lookup g.tuple = none) (hf : s.freeHandle (hashLine s.params g.tuple) = none) :
    s.rxSyn g = (s.emit g.rstAck, g.answer .synTableFull none) := by
  simp [State.rxSyn, hp, hl, State.alloc, hf]

/-- TCP_RX on a good segment whose dispatch is known (R97, R105). -/
theorem GoodSegment.exec_of_dispatch {s t : State} {g : Segment} {v : TcpVerdict} {h : Option Nat}
    (hg : GoodSegment s g) (hd : s.rxDispatch g = (t, g.answer v h)) :
    exec .tcpRx s = .next (t.finish (segmentResults g v.byte.toNat (handleWord h))) := by
  rw [hg.exec_eq, hd, Segment.answer_results]

/-! ### Drops and RST -/

/-- Settles O32: the three answers of the dispatch that leave the state as it is. -/
theorem tcpRxSilentDrops : Obligations.TcpRxSilentDrops := by
  unfold Obligations.TcpRxSilentDrops
  intro s g hg silent
  refine ⟨fun hrst hsyn hack => ?_, fun hrst hack hl => ?_, fun h hrst hack hl hseq => ?_⟩
  · exact hg.exec_of_dispatch (s.rxDispatch_of_no_flags hrst hsyn hack)
  · exact hg.exec_of_dispatch ((s.rxDispatch_of_ack hrst hack).trans (State.rxAck_none hl))
  · exact hg.exec_of_dispatch ((s.rxDispatch_of_ack hrst hack).trans (State.rxAck_outOfOrder hl hseq))

/-- Settles O33: the RST branch clears the entry that the lookup finds, and does nothing where it finds none. -/
theorem tcpRxRstClearsTheEntry : Obligations.TcpRxRstClearsTheEntry := by
  unfold Obligations.TcpRxRstClearsTheEntry
  intro s g hg hrst
  refine ⟨fun h hl => ?_, fun hl => ?_⟩
  · exact hg.exec_of_dispatch ((s.rxDispatch_of_rst hrst).trans (State.rxRst_some hl))
  · exact hg.exec_of_dispatch ((s.rxDispatch_of_rst hrst).trans (State.rxRst_none hl))

/-! ### SYN -/

/-- The RST+ACK reply in the claims' words (R100). -/
theorem Segment.rstAck_eq (g : Segment) : g.rstAck =
    replyRecord g .replyRstAck 0xFFFF#16 0#32 (BitVec.ofNat 32 (g.seq.toNat + 1 + g.plen)) 0#32 := by
  rw [Segment.rstAck, Segment.reply_eq, seqAdd, Nat.add_assoc]

/-- Settles O34: the three answers of the SYN branch that take no entry. -/
theorem tcpRxSynRefused : Obligations.TcpRxSynRefused := by
  unfold Obligations.TcpRxSynRefused
  intro s g hg hrst hsyn hack refused
  have hdispatch := s.rxDispatch_of_syn hrst hsyn hack
  have hrefused : ∀ v, s.rxSyn g = (s.emit g.rstAck, g.answer v none) → refused v.byte.toNat := fun v h => by
    simp only [refused]
    rw [hg.exec_of_dispatch (hdispatch.trans h), Segment.rstAck_eq]
    rfl
  refine ⟨fun hp => ?_, fun hp hl hf => ?_, fun h hp hl => ?_⟩
  · exact hrefused .synPortClosed (State.rxSyn_portClosed hp)
  · exact hrefused .synTableFull (State.rxSyn_tableFull hp hl hf)
  · exact hg.exec_of_dispatch (hdispatch.trans (State.rxSyn_duplicate hp hl))

/-- The MSS of a SYN+ACK in numbers (R60, R100). -/
theorem mss_eq (p : Params) : mss p = BitVec.ofNat 32 ((p.payloadMtu - 20) % 65536) := by
  rw [mss, ← BitVec.ofNat_toNat, BitVec.toNat_ofNat]

/-- Settles O35: the ISN is the value at the input, and the SYN branch takes the free way. -/
theorem tcpRxSynAccepted : Obligations.TcpRxSynAccepted := by
  unfold Obligations.TcpRxSynAccepted
  intro s g h hg hrst hsyn hack hp hl hf next
  refine ⟨s.isn, s.isnFeed.tail, fun v vs hfeed => ?_, fun hfeed => ?_, ?_⟩
  · simp [State.isn, hfeed]
  · simp [State.isn, hfeed]
  · have hdispatch := (s.rxDispatch_of_syn hrst hsyn hack).trans (State.rxSyn_accepted hp hl hf)
    rw [hg.exec_of_dispatch hdispatch, Segment.reply_eq, mss_eq]
    rfl

/-! ### ACK -/

/-- The slots that an ack covers, by distance (R14, R102). -/
theorem covered_eq (ack : Word) :
    covered ack = fun sl => decide ((ack.toNat + 2 ^ 32 - sl.endSeq.toNat) % 2 ^ 32 < 2 ^ 31) :=
  funext fun _ => seqLe_eq _ _

/-- A sequence number that advances twice (R14). -/
theorem seqAdd_seqAdd (a : Word) (m n : Nat) : seqAdd (seqAdd a m) n = BitVec.ofNat 32 (a.toNat + m + n) :=
  BitVec.eq_of_toNat_eq (by simp [seqAdd])

/-- Settles O36: releases, delivery and the ACK, with the release test by distance. -/
theorem tcpRxAckProcessed : Obligations.TcpRxAckProcessed := by
  unfold Obligations.TcpRxAckProcessed
  intro s g h hg hrst hack hfin hl hseq e covered' next
  have hcovered : covered g.ack = covered' := covered_eq g.ack
  have hdispatch := (s.rxDispatch_of_ack hrst hack).trans (State.rxAck_inOrder hl hseq hfin)
  rw [hg.exec_of_dispatch hdispatch, hcovered, Segment.reply_eq, ← List.append_assoc]
  rfl

/-- Settles O37: releases, delivery, the close with its FIN+ACK, and the release of what is left. -/
theorem tcpRxFinCloses : Obligations.TcpRxFinCloses := by
  unfold Obligations.TcpRxFinCloses
  intro s g h hg hrst hack hfin hl hseq e covered'
  have hcovered : covered g.ack = covered' := covered_eq g.ack
  have hdispatch := (s.rxDispatch_of_ack hrst hack).trans (State.rxAck_fin hl hseq hfin)
  rw [hg.exec_of_dispatch hdispatch, hcovered, Segment.reply_eq, seqAdd_seqAdd]
  simp only [List.append_assoc]
  rfl

end Sys2Proof.Machine
end

section
/-!
Two segments of one connection (43_tcp_dispatch.md R106): a repeated SYN, and what follows an RST.
-/

namespace Sys2Proof.Machine

/-! ### After an accepted SYN -/

/-- The verdict that a TCP_RX reports past its first checks is that of the dispatch (R97, R105). -/
theorem exec_tcpRx_verdict {s t : State} (h : exec .tcpRx s = .next t) (hok : t.code = .ok) {v : TcpVerdict}
    (hr0 : t.res.r0 = BitVec.ofNat 32 v.byte.toNat) (hv : v ≠ .dropMalformed ∧ v ≠ .dropChecksum) :
    GoodSegment s s.segment ∧ (s.rxDispatch s.segment).2.verdict = v ∧
      t = (s.rxDispatch s.segment).1.finish (s.rxDispatch s.segment).2.results := by
  obtain ⟨hmalformed, hchecksum⟩ := hv
  rcases exec_tcpRx_ok h hok with ⟨i, hdrop, rfl⟩ | ⟨hg, rfl⟩
  · rw [TcpInfo.verdict_of_results hr0] at hdrop
    exact absurd hdrop (not_or.2 ⟨hmalformed, hchecksum⟩)
  · exact ⟨hg, TcpInfo.verdict_of_results hr0, rfl⟩

/-- The only way the dispatch accepts a SYN (R98, R100). -/
theorem State.rxDispatch_synAccepted {s : State} {g : Segment} (hv : (s.rxDispatch g).2.verdict = .synAccepted) :
    g.rst = false ∧ g.syn = true ∧ g.ackFlag = false ∧ s.portIsOpen g.tuple.localPort = true ∧
      s.lookup g.tuple = none ∧ ∃ h, s.freeHandle (hashLine s.params g.tuple) = some h := by
  rcases s.rxDispatch_cases g with ⟨v, _, hne, hd⟩ | ⟨v, hor, hd⟩ | ⟨v, _, _, _, hor, -, -, -, hd⟩ |
    ⟨h, hrst, hsyn, hack, hl, hf, -⟩
  · rw [hd] at hv
    exact absurd hv hne
  · rw [hd] at hv
    rcases hor with rfl | rfl <;> cases hv
  · rw [hd] at hv
    rcases hor with rfl | rfl | rfl <;> cases hv
  · cases hp : s.portIsOpen g.tuple.localPort with
    | true => exact ⟨hrst, hsyn, hack, rfl, hl, h, hf⟩
    | false =>
      rw [s.rxDispatch_of_syn hrst hsyn hack, State.rxSyn_portClosed hp] at hv
      cases hv

/-- A segment that is good stays good where memory and the operands stay and the queue still has room. -/
theorem GoodSegment.congr {s t : State} {g : Segment} (hg : GoodSegment s g)
    (hroom : t.HasRoom (t.params.maxUnacked + 3)) (hp : t.params = s.params) (hm : t.mem = s.mem)
    (h0 : t.arg0 = s.arg0) (h1 : t.arg1 = s.arg1) (h2 : t.arg2 = s.arg2) (h3 : t.arg3 = s.arg3) :
    GoodSegment t g := by
  obtain ⟨-, hrest⟩ := hg
  refine ⟨hroom, ?_⟩
  rw [hp, hm, h0, h1, h2, h3]
  exact hrest

/-- A valid entry just written is found by its tuple (R87, R95). -/
theorem State.Inv.lookup_of_set {s t : State} {k : Nat} {e : Entry} (h : t.Inv) (ht : t.table = s.table.set k e)
    (hk : k < s.table.length) (hv : e.valid = true) : t.lookup e.tuple = some k := by
  have hself : t.entry k = e := State.entry_of_set_self ht hk
  have hlt : k < t.params.handles := by rw [← h.shape.entries, ht, List.length_set]; exact hk
  have hfound := h.tuples.lookup_tuple h.params.lines_pos hlt (by rw [hself]; exact hv)
  rwa [hself] at hfound

/-- Settles O38: the accepted SYN's entry holds the segment's tuple, so the lookup finds it the second time. -/
theorem repeatedSynIsDuplicate : Obligations.RepeatedSynIsDuplicate := by
  unfold Obligations.RepeatedSynIsDuplicate
  intro s t hinv hexec hok hr0 hroom
  obtain ⟨hg, hv, ht⟩ := exec_tcpRx_verdict hexec hok (v := .synAccepted) hr0 (by decide)
  generalize s.segment = g at hg hv ht
  obtain ⟨hrst, hsyn, hack, hp, hl, h, hf⟩ := State.rxDispatch_synAccepted hv
  rw [s.rxDispatch_of_syn hrst hsyn hack, State.rxSyn_accepted hp hl hf, Segment.answer_results] at ht
  have hlt : h < s.table.length := by
    obtain ⟨-, w, hw, rfl⟩ := State.freeHandle_some hf
    rw [hinv.shape.entries]
    exact probe_lt hw (hashLine_lt hinv.params.lines_pos _)
  have htable : t.table = s.table.set h (acceptedEntry s g) := by rw [ht]; rfl
  have hlookup : t.lookup g.tuple = some h := (exec_inv hinv hexec).lookup_of_set htable hlt rfl
  have hport : t.portIsOpen g.tuple.localPort = true := by rw [ht]; exact hp
  have hgood : GoodSegment t g := by
    refine hg.congr hroom ?_ ?_ ?_ ?_ ?_ ?_ <;> rw [ht] <;> rfl
  have hdispatch := (t.rxDispatch_of_syn hrst hsyn hack).trans (State.rxSyn_duplicate hport hlookup)
  refine ⟨_, hgood.exec_of_dispatch hdispatch, ?_⟩
  have hres : t.res = segmentResults g 0x02 (BitVec.ofNat 32 h) := by rw [ht]; rfl
  rw [hres]
  rfl

/-! ### After an RST -/

/-- The verdicts of the SYN branch (R100). -/
theorem State.rxSyn_verdict (s : State) (g : Segment) :
    (s.rxSyn g).2.verdict ∈ [TcpVerdict.synAccepted, .synPortClosed, .synTableFull, .synDuplicate] := by
  cases hp : s.portIsOpen g.tuple.localPort with
  | false => simp [State.rxSyn_portClosed hp]
  | true =>
    cases hl : s.lookup g.tuple with
    | some h => simp [State.rxSyn_duplicate hp hl]
    | none =>
      cases hf : s.freeHandle (hashLine s.params g.tuple) with
      | none => simp [State.rxSyn_tableFull hp hl hf]
      | some h => simp [State.rxSyn_accepted hp hl hf]

/-- The verdicts of the ACK branch (R101). -/
theorem State.rxAck_verdict (s : State) (g : Segment) :
    (s.rxAck g).2.verdict ∈ [TcpVerdict.ackProcessed, .finClosed, .dropNoSocket, .dropOutOfOrder] := by
  cases hl : s.lookup g.tuple with
  | none => simp [State.rxAck_none hl]
  | some h =>
    by_cases hseq : g.seq = (s.entry h).remoteSeq
    · cases hfin : g.fin with
      | true => simp [State.rxAck_fin hl hseq hfin]
      | false => simp [State.rxAck_inOrder hl hseq hfin]
    · simp [State.rxAck_outOfOrder hl hseq]

/-- The only way the dispatch clears an entry by RST (R98, R99). -/
theorem State.rxDispatch_rstCleared {s : State} {g : Segment} (hv : (s.rxDispatch g).2.verdict = .rstCleared) :
    ∃ h, s.lookup g.tuple = some h ∧
      (s.rxDispatch g).1.table = s.table.set h (Entry.empty s.params.maxUnacked) := by
  have hrst : g.rst = true := by
    by_contra hno
    have hsyn := s.rxSyn_verdict g
    have hack := s.rxAck_verdict g
    unfold State.rxDispatch at hv
    rw [if_neg hno] at hv
    split_ifs at hv
    · simp [hv] at hsyn
    · simp [hv] at hack
    · simp at hv
  rw [s.rxDispatch_of_rst hrst] at hv ⊢
  cases hl : s.lookup g.tuple with
  | none =>
    rw [State.rxRst_none hl] at hv
    cases hv
  | some h => exact ⟨h, rfl, by rw [State.rxRst_some hl]⟩

/-- Once its entry is cleared a tuple is not found: no other valid entry holds it (R87, R89, R95). -/
theorem State.TableOk.lookup_cleared {s t : State} {x : Tuple} {h : Nat} (hs : s.TableOk)
    (hl : s.lookup x = some h) (ht : t.table = s.table.set h (Entry.empty s.params.maxUnacked))
    (hp : t.params = s.params) : t.lookup x = none := by
  obtain ⟨hv, htuple, hh, -⟩ := State.lookup_some hl
  cases hl' : t.lookup x with
  | none => rfl
  | some k =>
    obtain ⟨hvk, htuplek, hk, -⟩ := State.lookup_some hl'
    have hne : h ≠ k := by
      rintro rfl
      rw [State.entry_of_set_self ht hh] at hvk
      cases hvk
    rw [State.entry_of_set ht hp hne] at hvk htuplek
    rw [hs.shape.entries] at hh
    rw [ht, List.length_set, hs.shape.entries] at hk
    exact absurd (hs.tuples.unique h k hh hk hv hvk (htuple.trans htuplek.symm)) hne

/-- The dispatch reports the ports of the segment (R97). -/
theorem State.rxDispatch_ports (s : State) (g : Segment) : (s.rxDispatch g).2.ports = g.ports := by
  rcases s.rxDispatch_cases g with ⟨_, _, -, hd⟩ | ⟨_, -, hd⟩ | ⟨_, _, _, _, -, -, -, -, hd⟩ |
    ⟨_, -, -, -, -, -, hd⟩ <;> rw [hd] <;> rfl

/-- A segment without a connection changes nothing, but for the answers to a SYN (R98). -/
theorem State.rxDispatch_no_socket {s : State} {g : Segment} (hl : s.lookup g.tuple = none)
    (hv : (s.rxDispatch g).2.verdict ∉ [TcpVerdict.synAccepted, .synPortClosed, .synTableFull]) :
    (s.rxDispatch g).1 = s := by
  rcases s.rxDispatch_cases g with ⟨_, _, -, hd⟩ | ⟨v, hor, hd⟩ | ⟨_, _, _, _, -, hl', -⟩ | ⟨h, -, -, -, -, -, hd⟩
  · rw [hd]
  · rw [hd] at hv
    rcases hor with rfl | rfl <;> simp at hv
  · rw [hl] at hl'
    cases hl'
  · rw [hd] at hv
    simp at hv

/-- Settles O39: the cleared entry's tuple is not found, and without a connection only a SYN has a response. -/
theorem noResponseAfterRst : Obligations.NoResponseAfterRst := by
  unfold Obligations.NoResponseAfterRst
  intro s t u v hinv hexec hok hr0 htable hparams harg2 hexec' hok' hports hsyn
  obtain ⟨-, hcleared, rfl⟩ := exec_tcpRx_verdict hexec hok (v := .rstCleared) hr0 (by decide)
  obtain ⟨h, hl, hset⟩ := State.rxDispatch_rstCleared hcleared
  rcases exec_tcpRx_ok hexec' hok' with ⟨_, -, rfl⟩ | ⟨-, rfl⟩
  · exact ⟨rfl, rfl⟩
  have hsame : u.segment.ports = s.segment.ports :=
    (u.rxDispatch_ports _).symm.trans (hports.trans (s.rxDispatch_ports _))
  have htuple : u.segment.tuple = s.segment.tuple := Segment.tuple_eq_of_ports harg2 hsame
  have hnone : u.lookup u.segment.tuple = none := by
    rw [htuple]
    exact hinv.tableOk.lookup_cleared hl (htable.trans hset) (hparams.trans (exec_params hexec))
  have hkept : (u.rxDispatch u.segment).1 = u := by
    refine State.rxDispatch_no_socket hnone fun hmem => hsyn ?_
    rw [State.finish_res, TcpInfo.results_r0_toNat]
    simp only [List.mem_cons, List.not_mem_nil, or_false] at hmem
    rcases hmem with hv | hv | hv <;> rw [hv] <;> decide
  rw [hkept]
  exact ⟨rfl, rfl⟩

end Sys2Proof.Machine
end

section
/-!
TCP_SEND (44_retransmit.md R109, R111): the checks of its body in the claims' words, and what the send leaves in buffer
memory and reports.
-/

namespace Sys2Proof.Machine

/-! ### The checks before the send -/

/-- The header length in numbers (R96, R109). -/
theorem segmentHeaderLen_eq (m : Memory) (b : Nat) : segmentHeaderLen m b = 4 * ((m.byte (b + 12)).toNat / 16) := by
  rw [segmentHeaderLen, high4_byte_toNat]

/-- A shorter region at the same address lies in buffer memory too (R41). -/
theorem fits_of_le {p : Params} {a m n : Nat} (h : Fits p a n) (hle : m ≤ n) : Fits p a m := by
  unfold Fits at h ⊢
  omega

/-- The data offset of the segment that the operands of TCP_SEND name (R109). -/
abbrev State.sendDoff (s : State) : Nat := (s.mem.byte (s.arg1.toNat + 12)).toNat / 16

/-- The length of that segment, seg_len of R109. -/
abbrev State.sendLen (s : State) : Nat := 4 * s.sendDoff + s.arg2.toNat

/-- The checks of TCP_SEND in their order, in the claims' words (R109). -/
theorem tcpSendBody_eq (s : State) : tcpSendBody s =
    if ¬ (s.entry s.arg0.toNat).valid = true then sendNothing s .notValid
    else if ¬ Fits s.params s.arg1.toNat 20 then .error .memRange
    else if s.sendDoff < 5 ∨ 65515 < s.sendLen then sendNothing s .malformed
    else if ¬ Fits s.params s.arg1.toNat s.sendLen then .error .memRange
    else (freeSlot (s.entry s.arg0.toNat).unacked).elim (sendNothing s .ringFull) fun k =>
      .ok (s.sendSegment s.arg0.toNat s.arg1.toNat s.arg2.toNat s.sendLen k) := by
  have hdoff : 4 * s.sendDoff < 20 ↔ s.sendDoff < 5 := by omega
  simp only [tcpSendBody, segmentHeaderLen_eq, hdoff, ← inWindow_iff, Bool.not_eq_true, Bool.not_eq_true']
  cases freeSlot (s.entry s.arg0.toNat).unacked <;> rfl

/-- TCP_SEND passes its launch checks with the configuration locked, a handle of the table and room for one record
(R61, R119). -/
theorem exec_tcpSend {s : State} (hlock : s.cfgLock = true) (hhandle : s.arg0.toNat < s.params.handles)
    (hroom : s.HasRoom 1) : exec .tcpSend s = .next (s.conclude (tcpSendBody s)) :=
  exec_of_launchError_none (launchError_eq_none.2 ⟨fun _ => hlock, fun _ => hhandle, hroom.le_evqFree⟩)

/-- Settles O40: the checks of the body in their order, each with its answer. -/
theorem tcpSendRefusals : Obligations.TcpSendRefusals := by
  unfold Obligations.TcpSendRefusals
  intro s hlock hhandle hroom e b doff len refused
  rw [exec_tcpSend hlock hhandle hroom, tcpSendBody_eq]
  refine ⟨fun hv => ?_, fun hv hfit => ?_, fun hv hfit hbad => ?_, fun hv hfit hdoff hle hout => ?_,
    fun hv hfit hdoff hle hin hfull => ?_⟩
  · rw [if_pos (Bool.eq_false_iff.1 hv)]
    rfl
  · rw [if_neg (not_not.2 hv), if_pos hfit]
    rfl
  · rw [if_neg (not_not.2 hv), if_neg (not_not.2 hfit), if_pos hbad]
    rfl
  · rw [if_neg (not_not.2 hv), if_neg (not_not.2 hfit),
      if_neg (not_or.2 ⟨Nat.not_lt.2 hdoff, Nat.not_lt.2 hle⟩), if_pos hout]
    rfl
  · rw [if_neg (not_not.2 hv), if_neg (not_not.2 hfit),
      if_neg (not_or.2 ⟨Nat.not_lt.2 hdoff, Nat.not_lt.2 hle⟩), if_neg (not_not.2 hin), freeSlot_eq_none.2 hfull]
    rfl

/-! ### The send -/

/-- A 32-bit number depends on its four bytes alone (R12). -/
theorem Memory.be32_congr {m m' : Memory} {a : Nat} (h : ∀ i < 4, m.byte (a + i) = m'.byte (a + i)) :
    m.be32 a = m'.be32 a := by
  simp only [Memory.be32, Memory.be16, Nat.add_assoc]
  rw [h 1 (by omega), h 2 (by omega), h 3 (by omega), show m.byte a = m'.byte a from h 0 (by omega)]

/-- A send keeps the canonical form. -/
theorem State.sendSegment_mem_wf {s : State} (hm : Memory.wf s.mem) (h b plen len k : Nat) :
    Memory.wf (s.sendSegment h b plen len k).1.mem :=
  wf_sealSegment _ _ _ _ (Memory.wf_setByte _ _ hm)

/-- A send sets PSH (R109 step 1). -/
theorem State.sendSegment_psh {s : State} (hm : Memory.wf s.mem) (h b plen len k : Nat) :
    (s.sendSegment h b plen len k).1.mem.byte (b + 13) = (s.mem.byte (b + 13) ||| 0x08#8) :=
  (byte_sealSegment_ne _ _ _ _ _ (by omega) (by omega)).trans (Memory.byte_setByte_self hm _ _)

/-- A send leaves the number of R68 in the checksum field (R109 step 4). -/
theorem State.sendSegment_checksum {s : State} (hm : Memory.wf s.mem) (h b plen len k : Nat) :
    ((s.sendSegment h b plen len k).1.mem.be16 (b + 16)).toNat =
      checksumField (s.sendSegment h b plen len k).1.mem s.hostIp (s.entry h).remoteIp b len :=
  (be16_sealSegment (Memory.wf_setByte _ _ hm) _ _ _ _).trans
    (checksumField_congr _ _ _ fun _ h16 h17 => (byte_sealSegment_ne _ _ _ _ _ h16 h17).symm)

/-- A send leaves the segment's ack field (R46). -/
theorem State.sendSegment_ack (s : State) (h b plen len k : Nat) :
    (s.sendSegment h b plen len k).1.mem.be32 (b + 8) = s.mem.be32 (b + 8) :=
  Memory.be32_congr fun _ _ => s.sendSegment_byte_ne h plen len k (by omega) (by omega) (by omega)

/-- The whole effect of a send on the state (R109 steps 1 to 4), over its memory. -/
theorem State.sendSegment_eq (s : State) (h plen k : Nat) (b : Word) {len : Nat} (hlen : len < 65536) :
    let e := s.entry h
    let m := (s.sendSegment h b.toNat plen len k).1.mem
    let localSeq := BitVec.ofNat 32 (e.localSeq.toNat + plen)
    s.sendSegment h b.toNat plen len k =
      ({ s with
         mem := m
         evq := s.evq ++ [{ kind := .tx, slot := BitVec.ofNat 8 k, handle := BitVec.ofNat 16 h, w1 := b,
                            w2 := BitVec.ofNat 32 len, w3 := localSeq, w4 := e.remoteIp }]
         table := s.table.set h
           { e with
             localSeq := localSeq
             unacked := e.unacked.set k
               { occupied := true, buf := b, len := BitVec.ofNat 16 len, endSeq := localSeq, age := 0#16 }
             remoteSeqSent := s.mem.be32 (b.toNat + 8) } },
       { r0 := 0#32, r1 := BitVec.ofNat 32 k, r2 := localSeq, r3 := BitVec.ofNat 32 (m.be16 (b.toNat + 16)).toNat,
         r4 := BitVec.ofNat 32 len }) := by
  intro e m localSeq
  have hbuf : BitVec.ofNat 32 b.toNat = b := BitVec.ofNat_toNat 32 b
  have hw2 : (BitVec.ofNat 16 len).setWidth 32 = BitVec.ofNat 32 len := by
    apply BitVec.eq_of_toNat_eq
    simp only [BitVec.toNat_setWidth, BitVec.toNat_ofNat]
    omega
  have hr3 : BitVec.ofNat 32 (m.be16 (b.toNat + 16)).toNat = (m.be16 (b.toNat + 16)).setWidth 32 :=
    BitVec.ofNat_toNat 32 _
  have hack := s.sendSegment_ack h b.toNat plen len k
  rw [hr3]
  simp only [State.sendSegment, State.emit, State.setEntry, Event.ofSlot] at hack ⊢
  rw [hack, hbuf, hw2]
  rfl

/-- Settles O41: every check passes, the ring's lowest free slot is k, and the memory is the send's. -/
theorem tcpSendRecordsSegment : Obligations.TcpSendRecordsSegment := by
  unfold Obligations.TcpSendRecordsSegment
  intro s k hlock hhandle hroom hm h e b doff len localSeq slot hv hdoff hle hfit hfree hmin
  obtain ⟨sl, hk, hsl⟩ := hfree
  have hbody : tcpSendBody s = .ok (s.sendSegment h b s.arg2.toNat len k) := by
    rw [tcpSendBody_eq, if_neg (not_not.2 hv), if_neg (not_not.2 (fits_of_le hfit (by omega))),
      if_neg (not_or.2 ⟨Nat.not_lt.2 hdoff, Nat.not_lt.2 hle⟩), if_neg (not_not.2 hfit),
      freeSlot_eq_some hk hsl hmin]
    rfl
  refine ⟨(s.sendSegment h b s.arg2.toNat len k).1.mem, State.sendSegment_mem_wf hm _ _ _ _ _,
    State.sendSegment_psh hm _ _ _ _ _, fun a => s.sendSegment_byte_ne _ _ _ _,
    State.sendSegment_checksum hm _ _ _ _ _, ?_⟩
  rw [exec_tcpSend hlock hhandle hroom, hbody, s.sendSegment_eq _ _ _ s.arg1 (by omega : len < 65536)]
  rfl

end Sys2Proof.Machine
end

section
/-!
AGE_TICK (44_retransmit.md R112, R113): the tick as its window check decides it, and that the check passes where the
invariant holds.
-/

namespace Sys2Proof.Machine

/-- AGE_TICK passes its launch checks with the configuration locked and room for its worst case (R61, R119). -/
theorem exec_ageTick {s : State} (hlock : s.cfgLock = true)
    (hroom : s.HasRoom (s.params.handles * s.params.maxUnacked)) :
    exec .ageTick s = .next (s.conclude (ageTickBody s)) :=
  exec_of_configured rfl hlock hroom.le_evqFree

/-- Settles O43: the window check decides between the scan and the error; the memory clauses are those of the writes of
checksum fields. -/
theorem ageTickAgesAndResends : Obligations.AgeTickAgesAndResends := by
  unfold Obligations.AgeTickAgesAndResends
  intro s hlock hroom inRange write m
  have hwindow : s.dueInWindow = true ↔ inRange := s.dueInWindow_iff
  rw [exec_ageTick hlock hroom, ageTickBody_eq]
  refine ⟨fun hin => ?_, fun hout => ?_, wf_sealAll s.hostIp _, fun a ha => ?_, fun m' x hm' => ?_⟩
  · rw [if_pos (hwindow.2 hin)]
    rfl
  · rw [if_neg (mt hwindow.1 hout)]
    rfl
  · refine byte_sealAll_ne s.hostIp _ s.mem fun x hx => ?_
    obtain ⟨e, he, hv, -, hsl, hdue⟩ := mem_dueSegments.1 hx
    exact ha e he hv x.2 hsl hdue
  · exact ⟨wf_sealSegment _ _ _ _ hm', be16_sealSegment hm' _ _ _ _,
      fun a h16 h17 => byte_sealSegment_ne _ _ _ _ _ h16 h17⟩

/-- The segment of an occupied slot lies in buffer memory (R41, R109). -/
theorem SlotOk.fits {p : Params} {sl : Slot} (hp : p.Wf) (h : SlotOk p sl) (ho : sl.occupied = true) :
    Fits p sl.buf.toNat sl.len.toNat := by
  obtain ⟨-, -, hmem, -⟩ : _ ∧ _ ∧ _ ∧ _ := by simpa [SlotOk, ho] using h
  exact .inr ⟨hmem, hmem.trans hp.mem_le⟩

/-- Settles O45: a due slot is occupied, and the invariant keeps the segments of occupied slots in buffer memory. -/
theorem ageTickNeverOutOfRange : Obligations.AgeTickNeverOutOfRange := by
  unfold Obligations.AgeTickNeverOutOfRange
  intro s hinv hlock hroom
  have hwindow : s.dueInWindow = true := s.dueInWindow_iff.2 fun e he _ sl hsl hdue =>
    ((hinv.entries e he).slots sl hsl).fits hinv.params hdue.1
  refine ⟨_, exec_ageTick hlock hroom, ?_⟩
  rw [ageTickBody_eq, if_pos hwindow]
  rfl

end Sys2Proof.Machine
end

section
/-!
Launch (45_host_control.md R119, R120, R123): the host's write of a command word, the checks before a command's body in
the claims' words, and NOP.
-/

namespace Sys2Proof.Machine

/-- Settles O4: the write is taken, and a word that decodes is a command on the state that kept it. -/
theorem stepRunsDecodedCommand : Obligations.StepRunsDecodedCommand := by
  unfold Obligations.StepRunsDecodedCommand
  intro s v rest i hin hdecode
  have htake : takeNext s = .command i { s with inputs := rest, cmd := v } := by
    rw [takeNext_writeCmd hin, launchWord, hdecode]
    rfl
  rw [step, htake]

/-- Settles O14: NOP has no launch check to fail, and its body answers the state itself with results of 0. -/
theorem nopWritesZeroResults : Obligations.NopWritesZeroResults := by
  unfold Obligations.NopWritesZeroResults
  intro s
  exact exec_of_no_checks rfl rfl rfl

/-! ### The launch checks -/

/-- The config column of R51 as a list. -/
theorem needsConfig_iff (i : Instr) :
    needsConfig i = true ↔ i ∈ [Instr.destClass, .ipv4Rx, .rxFrame, .tcpSend, .ageTick] := by
  cases i <;> decide

/-- The commands with a handle as a list (R119). -/
theorem takesHandle_iff (i : Instr) : takesHandle i = true ↔ i ∈ [Instr.tcpClear, .tcpSend] := by
  cases i <;> decide

/-- The worst cases of R61 as a chain. -/
theorem worstEvents_eq (p : Params) (i : Instr) : worstEvents p i =
    if i = .tcpClear then p.maxUnacked
    else if i = .tcpRx ∨ i = .rxFrame then p.maxUnacked + 3
    else if i = .tcpSend then 1
    else if i = .ageTick then p.tableWays * p.tableLines * p.maxUnacked
    else 0 := by
  cases i <;> rfl

/-- A command that passes its launch checks completes, or its window check fails (R119, R129). -/
theorem exec_ok_or_memRange {i : Instr} {s : State} (h : launchError i s = none) :
    ∃ t, exec i s = .next t ∧ (t.code = .ok ∨ t = s.raise .memRange) := by
  refine ⟨_, exec_of_launchError_none h, ?_⟩
  cases hbody : bodyOf i s with
  | ok x => exact .inl rfl
  | error e => exact .inr (by rw [bodyOf_error hbody]; rfl)

/-- Settles O5: the chain is that of the launch checks, and a body's one error is ERR_MEM_RANGE. -/
theorem launchChecksInOrder : Obligations.LaunchChecksInOrder := by
  unfold Obligations.LaunchChecksInOrder
  intro i s config handle worst
  have hchecks : launchError i s =
      if config ∧ s.cfgLock = false then some .notConfigured
      else if handle ∧ s.params.tableWays * s.params.tableLines ≤ s.arg0.toNat then some .badHandle
      else if s.params.evqDepth - s.evq.length < worst then some .evqFull
      else none := by
    simp only [launchError_eq, needsConfig_iff, takesHandle_iff, worstEvents_eq]
    rfl
  split_ifs at hchecks ⊢
  · exact exec_of_launchError_some hchecks
  · exact exec_of_launchError_some hchecks
  · exact exec_of_launchError_some hchecks
  · exact exec_ok_or_memRange hchecks

end Sys2Proof.Machine
end

section
/-!
The host's register writes that act, and the event queue's registers (10_state.md R20, R24, 30_encoding.md R59,
45_host_control.md R121 to R125).
-/

namespace Sys2Proof.Machine

/-! ### Register writes -/

/-- A register write leaves the pending accesses alone. -/
theorem State.writeReg_inputs (s : State) (rest : List HostAccess) (r : HostReg) (v : Word) :
    ({ s with inputs := rest } : State).writeReg r v = { s.writeReg r v with inputs := rest } := by
  cases r with
  | status => exact (apply_ite (fun t : State => { t with inputs := rest }) (v.getLsbD 8 = true) s.clearErr s).symm
  | hostIp | bcastIp | gatewayIp =>
    simp only [State.writeReg]
    split <;> rfl
  | _ => rfl

/-- A write to the register r, which is not CMD, by its offset (R19, R20). -/
theorem step_writeReg {s : State} {off v : Word} {rest : List HostAccess} (hin : s.inputs = .write 32 off v :: rest)
    (r : HostReg) (hoff : off.toNat % 4 = 0 ∧ regAt off.toNat = r ∧ r ≠ .cmd) :
    step s = .next { s.writeReg r v with inputs := rest } := by
  obtain ⟨h4, rfl, hcmd⟩ := hoff
  rw [step_write hin h4 hcmd, State.writeReg_inputs]

/-- A bit of a word in numbers. -/
theorem getLsbD_iff (v : Word) (i : Nat) : v.getLsbD i = true ↔ v.toNat / 2 ^ i % 2 = 1 := by
  rw [BitVec.getLsbD, Nat.testBit_eq_decide_div_mod_eq, decide_eq_true_eq]

/-- A write to CTRL in numbers (R24, R121). -/
theorem State.writeCtrl_eq (s : State) (v : Word) :
    s.writeCtrl v = if v.toNat % 2 = 1 then { s with cfgLock := true } else s := by
  have hbit : v.getLsbD 0 = true ↔ v.toNat % 2 = 1 := by rw [getLsbD_iff, pow_zero, Nat.div_one]
  unfold State.writeCtrl
  split
  next hset => rw [hbit.2 hset, Bool.or_true]
  next hclear => rw [Bool.eq_false_iff.2 (mt hbit.1 hclear), Bool.or_false]

/-- A write to STATUS in numbers (R122). -/
theorem State.writeStatus_eq (s : State) (v : Word) :
    s.writeStatus v = if v.toNat / 256 % 2 = 1 then { s with err := false } else s := by
  simp only [State.writeStatus, getLsbD_iff]
  rfl

/-- Settles O50: each offset is its register's, and the register takes the write as R121 to R124 say. -/
theorem registerWrites : Obligations.RegisterWrites := by
  unfold Obligations.RegisterWrites
  intro s v rest wrote
  have hwrote (off : Word) (r : HostReg) (hoff : off.toNat % 4 = 0 ∧ regAt off.toNat = r ∧ r ≠ .cmd) :
      wrote off (s.writeReg r v) := fun hin => step_writeReg hin r hoff
  rw [← s.writeCtrl_eq, ← s.writeStatus_eq]
  exact ⟨hwrote _ .ctrl (by decide), hwrote _ .status (by decide), hwrote _ .arg0 (by decide),
    hwrote _ .arg1 (by decide), hwrote _ .arg2 (by decide), hwrote _ .arg3 (by decide), hwrote _ .hostIp (by decide),
    hwrote _ .bcastIp (by decide), hwrote _ .gatewayIp (by decide)⟩

/-! ### The event queue's registers -/

/-- The register of EVQ_HEAD[j] reads word j of the head record (R20, R125). -/
theorem State.readReg_evqHead (s : State) {j : Nat} (hj : j < 6) : s.readReg (regAt (0x070 + 4 * j)) = s.evqHead j := by
  interval_cases j <;> rfl

/-- A read of EVQ_HEAD[j] as one step (R125). -/
theorem step_readEvqHead {s : State} {j : Nat} {rest : List HostAccess} (hj : j < 6)
    (hin : s.inputs = .read 32 (BitVec.ofNat 32 (0x070 + 4 * j)) :: rest) :
    step s = .next { s with inputs := rest, readData := s.evqHead j } := by
  have hoff : (BitVec.ofNat 32 (0x070 + 4 * j)).toNat = 0x070 + 4 * j := by
    rw [BitVec.toNat_ofNat, Nat.mod_eq_of_lt (by omega)]
  rw [step_read hin (by omega), hoff, s.readReg_evqHead hj]

/-- The words of the oldest record (R59, R125). -/
theorem State.evqHead_cons {s : State} {e : Event} {es : List Event} (h : s.evq = e :: es) {j : Nat} (hj : j < 6) :
    s.evqHead j = [e.w0, e.w1, e.w2, e.w3, e.w4, e.w5].getD j 0#32 := by
  rw [State.evqHead, h]
  interval_cases j <;> rfl

/-- An empty queue reads 0 (R125). -/
theorem State.evqHead_nil {s : State} (h : s.evq = []) (j : Nat) : s.evqHead j = 0#32 := by
  rw [State.evqHead, h]

/-- W0 of a record in numbers (R59). -/
theorem Event.w0_eq (e : Event) :
    e.w0 = BitVec.ofNat 32 (e.handle.toNat * 65536 + e.slot.toNat * 256 + e.kind.byte.toNat) := by
  apply word_eq_ofNat
  rw [Event.w0, append_toNat, append_toNat]
  omega

/-- A write to EVQ_POP as one step (R125, R123). -/
theorem step_popEvent {s : State} {v : Word} {rest : List HostAccess} (hin : s.inputs = .write 32 0x068#32 v :: rest) :
    step s = .next { s with inputs := rest, evq := s.evq.tail, evqPop := v } :=
  step_writeReg hin .evqPop (by decide)

/-- Settles O47: the head registers read the oldest record's words, and a pop leaves the tail of the queue. -/
theorem eventQueueAccess : Obligations.EventQueueAccess := by
  unfold Obligations.EventQueueAccess
  intro s rest kind
  have hkind (k : EventKind) : k.byte.toNat = kind k := by cases k <;> rfl
  refine ⟨fun j e es hj hin hevq => ?_, fun j hj hin hevq => ?_, fun v e es hin hevq => ?_, fun v hin hevq => ?_⟩
  · rw [step_readEvqHead hj hin, State.evqHead_cons hevq hj, Event.w0_eq, hkind]
  · rw [step_readEvqHead hj hin, State.evqHead_nil hevq]
  · rw [step_popEvent hin, hevq, List.tail_cons]
  · rw [step_popEvent hin, hevq, List.tail_nil, ← hevq]

end Sys2Proof.Machine
end

section
/-!
The block's only exception entry (60_exceptions.md R130): an error writes CODE and ERR, and a completed command leaves
ERR alone (R22, R122).
-/

namespace Sys2Proof.Machine

/-- No body writes ERR, so only an error sets it (R22, R122). -/
theorem bodyOf_err {i : Instr} {s u : State} {r : Results} (h : bodyOf i s = .ok (u, r)) : u.err = s.err := by
  rw [bodyOf_frame h]

/-- Settles O6: a command raises an error on the state it started from, or finishes its body, which leaves ERR alone; a
word that is no command raises ERR_ILLEGAL_CMD on the state that kept the word (log entry 12). -/
theorem errorsChangeOnlyStatus : Obligations.ErrorsChangeOnlyStatus := by
  unfold Obligations.ErrorsChangeOnlyStatus
  refine ⟨fun i s => ?_, fun _ _ _ => step_illegalWord⟩
  obtain ⟨t, h⟩ := exec_next i s
  refine ⟨t, h, ?_⟩
  rcases exec_cases h with ⟨e, rfl⟩ | ⟨u, r, -, hbody, rfl⟩
  · exact .inr ⟨e, rfl⟩
  · exact .inl ⟨rfl, by rw [State.finish_err, bodyOf_err hbody]⟩

end Sys2Proof.Machine
end

section
/-!
Reset (70_reset_and_hazards.md R143): what it leaves of the block, and that the state after it meets the invariant.
-/

namespace Sys2Proof

/-- The parameters of log entry 2 meet the constraints of R7 and R146. -/
theorem Config.params_wf : Config.params.Wf := by constructor <;> decide

end Sys2Proof

namespace Sys2Proof.Machine

/-- A step in which the host resets the block (R143, R144). -/
theorem step_reset {s : State} {rest : List HostAccess} (hin : s.inputs = .reset :: rest) :
    step s = .next ({ s with inputs := rest } : State).hostReset := by
  simp [step, takeNext, hin, takeAccess]

/-- Settles O54: the step is the block's reset, which starts from the reset values and puts back only the parameters,
buffer memory, the ISN input and the host's side (log entries 1, 5, 6 and 8). -/
theorem resetRestoresBlockState : Obligations.ResetRestoresBlockState := by
  unfold Obligations.ResetRestoresBlockState
  intro s rest hin
  rw [step_reset hin]
  rfl

/-- Where no cell is listed, the canonical form holds. -/
theorem Cells.wf_nil {n : Nat} : Cells.Wf (n := n) [] := ⟨List.Pairwise.nil, by simp⟩

/-- The state after reset meets the invariant for all admissible parameters (R7, R38, R143): every entry is invalid, and
buffer memory, the port words and the queue are empty lists. -/
theorem State.resetWith_inv {p : Params} (hp : p.Wf) : (State.resetWith p).Inv :=
  have hmem : MemoryOk p [] := ⟨Cells.wf_nil, by simp⟩
  have hports : PortsOk [] := ⟨Cells.wf_nil, by simp⟩
  .of_parts hp (State.TableOk.of_reset rfl) hmem hports (Nat.zero_le _)

/-- Settles O60: reset meets the invariant for all admissible parameters, and those of log entry 2 are admissible. -/
theorem resetMeetsInvariant : Obligations.ResetMeetsInvariant := by
  unfold Obligations.ResetMeetsInvariant
  exact ⟨fun _ => State.resetWith_inv, State.resetWith_inv Config.params_wf⟩

end Sys2Proof.Machine
end
